-- ==== Sys2Proof/Word.lean ====
section
/-! DEFINITION. The word types of the interface and the small sets of names the rest is written over.
30_encoding.md R43, R46; 10_state.md R14; 00_scope.md R6, R7. -/

namespace Sys2Proof

/-- A command word, 64 bits (R43). -/
abbrev Word := BitVec 64

/-- The VALUE field of a register write, 32 bits, read as a signed integer (R46). -/
abbrev Value := BitVec 32

/-- A sample-domain value: envelope level, coefficient, sample or frame component, a real number (R7). A rational is
written as itself; any other real is written by its name, a number whose meaning is the configuration's `RealNames`
(log 1). -/
inductive Sample where
  | rat (q : Rat)
  | named (n : Nat)
  deriving DecidableEq, Repr

/-- The four operations on sample-domain values. -/
inductive ArithOp where
  | add
  | sub
  | mul
  | div
  deriving DecidableEq, Repr

/-- The six envelope stages (R14). -/
inductive Stage where
  | off
  | attack
  | decay
  | sustain
  | release
  | damp
  deriving DecidableEq, Repr

/-- The four rate tables of `BASE_RATE(s, r)`, s ∈ {A, D, S, R} (R6). -/
inductive RateKind where
  | attackRate
  | decayRate
  | sustainRate
  | releaseRate
  deriving DecidableEq, Repr

/-- `SAMPLE_ARITH` (R6, D19): exact arithmetic, or IEEE binary64 rounding of each operation. -/
inductive SampleArith where
  | ideal
  | binary64
  deriving DecidableEq, Repr

end Sys2Proof
end

