-- ==== Sys2Proof/Syntax.lean ====
section
/-! DEFINITION. The commands of 30_encoding.md R48, one constructor per row of spec/opcode_table.json, and the ways a
word can be reserved (R49). Operands (R46): `ch` is the CH field, `op` the OP field, `v` the VALUE field. -/

namespace Sys2Proof

/-- The 31 commands (R44, R45, R48). -/
inductive Instr where
  /-- `NOP` (R109) -/
  | nop
  /-- `NEXT` (R107) -/
  | next
  /-- `WRITE_TL` (R108) -/
  | wrtl (ch : BitVec 8) (op : Fin 4) (carrierTL modulatorTL : BitVec 16)
  /-- `WRITE_CHANNEL KON` (R96) -/
  | wrchKON (ch : BitVec 8) (v : Value)
  /-- `WRITE_CHANNEL BLOCK` (R97) -/
  | wrchBLOCK (ch : BitVec 8) (v : Value)
  /-- `WRITE_CHANNEL FNUM` (R98) -/
  | wrchFNUM (ch : BitVec 8) (v : Value)
  /-- `WRITE_CHANNEL ALG` (R99) -/
  | wrchALG (ch : BitVec 8) (v : Value)
  /-- `WRITE_CHANNEL LFO` (R100) -/
  | wrchLFO (ch : BitVec 8) (v : Value)
  /-- `WRITE_CHANNEL PANPOT` (R101) -/
  | wrchPANPOT (ch : BitVec 8) (v : Value)
  /-- `WRITE_CHANNEL CHPAN` (R102) -/
  | wrchCHPAN (ch : BitVec 8) (v : Value)
  /-- `WRITE_CHANNEL VOLUME` (R103) -/
  | wrchVOLUME (ch : BitVec 8) (v : Value)
  /-- `WRITE_CHANNEL EXPRESSION` (R104) -/
  | wrchEXPRESSION (ch : BitVec 8) (v : Value)
  /-- `WRITE_CHANNEL BO` (R105) -/
  | wrchBO (ch : BitVec 8) (v : Value)
  /-- `WRITE_CHANNEL VELOCITY` (R106) -/
  | wrchVELOCITY (ch : BitVec 8) (v : Value)
  /-- `WRITE_OPERATOR EAM` (R64) -/
  | wropEAM (ch : BitVec 8) (op : Fin 4) (v : Value)
  /-- `WRITE_OPERATOR EVB` (R65) -/
  | wropEVB (ch : BitVec 8) (op : Fin 4) (v : Value)
  /-- `WRITE_OPERATOR DAM` (R66) -/
  | wropDAM (ch : BitVec 8) (op : Fin 4) (v : Value)
  /-- `WRITE_OPERATOR DVB` (R67) -/
  | wropDVB (ch : BitVec 8) (op : Fin 4) (v : Value)
  /-- `WRITE_OPERATOR DT` (R68) -/
  | wropDT (ch : BitVec 8) (op : Fin 4) (v : Value)
  /-- `WRITE_OPERATOR KSL` (R69) -/
  | wropKSL (ch : BitVec 8) (op : Fin 4) (v : Value)
  /-- `WRITE_OPERATOR KSR` (R70) -/
  | wropKSR (ch : BitVec 8) (op : Fin 4) (v : Value)
  /-- `WRITE_OPERATOR WS` (R71) -/
  | wropWS (ch : BitVec 8) (op : Fin 4) (v : Value)
  /-- `WRITE_OPERATOR MULT` (R72) -/
  | wropMULT (ch : BitVec 8) (op : Fin 4) (v : Value)
  /-- `WRITE_OPERATOR FB` (R73) -/
  | wropFB (ch : BitVec 8) (op : Fin 4) (v : Value)
  /-- `WRITE_OPERATOR AR` (R74) -/
  | wropAR (ch : BitVec 8) (op : Fin 4) (v : Value)
  /-- `WRITE_OPERATOR DR` (R75) -/
  | wropDR (ch : BitVec 8) (op : Fin 4) (v : Value)
  /-- `WRITE_OPERATOR SL` (R76) -/
  | wropSL (ch : BitVec 8) (op : Fin 4) (v : Value)
  /-- `WRITE_OPERATOR SR` (R77) -/
  | wropSR (ch : BitVec 8) (op : Fin 4) (v : Value)
  /-- `WRITE_OPERATOR RR` (R78) -/
  | wropRR (ch : BitVec 8) (op : Fin 4) (v : Value)
  /-- `WRITE_OPERATOR TL` (R79) -/
  | wropTL (ch : BitVec 8) (op : Fin 4) (v : Value)
  /-- `WRITE_OPERATOR XOF` (R80) -/
  | wropXOF (ch : BitVec 8) (op : Fin 4) (v : Value)
  deriving DecidableEq, Repr

/-- The command's name in spec/opcode_table.json (R43). -/
def Instr.mnemonic : Instr → String
  | .nop => "nop"
  | .next => "next"
  | .wrtl _ _ _ _ => "wrtl"
  | .wrchKON _ _ => "wrch.KON"
  | .wrchBLOCK _ _ => "wrch.BLOCK"
  | .wrchFNUM _ _ => "wrch.FNUM"
  | .wrchALG _ _ => "wrch.ALG"
  | .wrchLFO _ _ => "wrch.LFO"
  | .wrchPANPOT _ _ => "wrch.PANPOT"
  | .wrchCHPAN _ _ => "wrch.CHPAN"
  | .wrchVOLUME _ _ => "wrch.VOLUME"
  | .wrchEXPRESSION _ _ => "wrch.EXPRESSION"
  | .wrchBO _ _ => "wrch.BO"
  | .wrchVELOCITY _ _ => "wrch.VELOCITY"
  | .wropEAM _ _ _ => "wrop.EAM"
  | .wropEVB _ _ _ => "wrop.EVB"
  | .wropDAM _ _ _ => "wrop.DAM"
  | .wropDVB _ _ _ => "wrop.DVB"
  | .wropDT _ _ _ => "wrop.DT"
  | .wropKSL _ _ _ => "wrop.KSL"
  | .wropKSR _ _ _ => "wrop.KSR"
  | .wropWS _ _ _ => "wrop.WS"
  | .wropMULT _ _ _ => "wrop.MULT"
  | .wropFB _ _ _ => "wrop.FB"
  | .wropAR _ _ _ => "wrop.AR"
  | .wropDR _ _ _ => "wrop.DR"
  | .wropSL _ _ _ => "wrop.SL"
  | .wropSR _ _ _ => "wrop.SR"
  | .wropRR _ _ _ => "wrop.RR"
  | .wropTL _ _ _ => "wrop.TL"
  | .wropXOF _ _ _ => "wrop.XOF"

/-- The channel a command names in its CH field, for the commands that have one (R43, R47). -/
def Instr.channel : Instr → Option (BitVec 8)
  | .nop => none
  | .next => none
  | .wrtl ch _ _ _ => some ch
  | .wrchKON ch _ => some ch
  | .wrchBLOCK ch _ => some ch
  | .wrchFNUM ch _ => some ch
  | .wrchALG ch _ => some ch
  | .wrchLFO ch _ => some ch
  | .wrchPANPOT ch _ => some ch
  | .wrchCHPAN ch _ => some ch
  | .wrchVOLUME ch _ => some ch
  | .wrchEXPRESSION ch _ => some ch
  | .wrchBO ch _ => some ch
  | .wrchVELOCITY ch _ => some ch
  | .wropEAM ch _ _ => some ch
  | .wropEVB ch _ _ => some ch
  | .wropDAM ch _ _ => some ch
  | .wropDVB ch _ _ => some ch
  | .wropDT ch _ _ => some ch
  | .wropKSL ch _ _ => some ch
  | .wropKSR ch _ _ => some ch
  | .wropWS ch _ _ => some ch
  | .wropMULT ch _ _ => some ch
  | .wropFB ch _ _ => some ch
  | .wropAR ch _ _ => some ch
  | .wropDR ch _ _ => some ch
  | .wropSL ch _ _ => some ch
  | .wropSR ch _ _ => some ch
  | .wropRR ch _ _ => some ch
  | .wropTL ch _ _ => some ch
  | .wropXOF ch _ _ => some ch

/-- Why a word spells no command (R47, R49). -/
inductive Reserved where
  /-- KIND 5..15. -/
  | kind
  /-- RSV0, RSV1 or RSV2 is not 0. -/
  | reservedField
  /-- REG holds a register code the KIND does not have. -/
  | registerCode
  /-- A field the command does not use is not 0. -/
  | unusedField
  deriving DecidableEq, Repr

end Sys2Proof
end

