-- ==== Sys2Proof/Decode.lean ====
section
/-! DEFINITION. Decoding and encoding of the 64-bit command word: 30_encoding.md R43 to R52. -/

namespace Sys2Proof

/-! ### The fields of R43 -/

/-- Bits 63:60. -/
def kindField (w : Word) : BitVec 4 := w.extractLsb' 60 4
/-- RSV0, bits 59:56. -/
def rsv0Field (w : Word) : BitVec 4 := w.extractLsb' 56 4
/-- CH, bits 55:48. -/
def chField (w : Word) : BitVec 8 := w.extractLsb' 48 8
/-- OP, bits 47:46. -/
def opField (w : Word) : BitVec 2 := w.extractLsb' 46 2
/-- RSV1, bit 45. -/
def rsv1Field (w : Word) : BitVec 1 := w.extractLsb' 45 1
/-- REG, bits 44:40. -/
def regField (w : Word) : BitVec 5 := w.extractLsb' 40 5
/-- RSV2, bits 39:32. -/
def rsv2Field (w : Word) : BitVec 8 := w.extractLsb' 32 8
/-- VALUE, bits 31:0. -/
def valueField (w : Word) : Value := w.extractLsb' 0 32

/-- VALUE[31:16], the carrierTL operand of `WRITE_TL` (R46). -/
def carrierTLField (w : Word) : BitVec 16 := w.extractLsb' 16 16
/-- VALUE[15:0], the modulatorTL operand of `WRITE_TL` (R46). -/
def modulatorTLField (w : Word) : BitVec 16 := w.extractLsb' 0 16

/-- OP as an operator index 0..3 (R46: unsigned). -/
def opIndex (w : Word) : Fin 4 := (opField w).toFin

/-! ### Decoding -/

/-- `WRITE_CHANNEL` by its register code (R45). -/
def decodeWrch (reg : Nat) (ch : BitVec 8) (v : Value) : Except Reserved Instr :=
  match reg with
  | 0 => .ok (.wrchKON ch v)
  | 1 => .ok (.wrchBLOCK ch v)
  | 2 => .ok (.wrchFNUM ch v)
  | 3 => .ok (.wrchALG ch v)
  | 4 => .ok (.wrchLFO ch v)
  | 5 => .ok (.wrchPANPOT ch v)
  | 6 => .ok (.wrchCHPAN ch v)
  | 7 => .ok (.wrchVOLUME ch v)
  | 8 => .ok (.wrchEXPRESSION ch v)
  | 9 => .ok (.wrchBO ch v)
  | 10 => .ok (.wrchVELOCITY ch v)
  | _ => .error .registerCode

/-- `WRITE_OPERATOR` by its register code (R45). -/
def decodeWrop (reg : Nat) (ch : BitVec 8) (op : Fin 4) (v : Value) : Except Reserved Instr :=
  match reg with
  | 0 => .ok (.wropEAM ch op v)
  | 1 => .ok (.wropEVB ch op v)
  | 2 => .ok (.wropDAM ch op v)
  | 3 => .ok (.wropDVB ch op v)
  | 4 => .ok (.wropDT ch op v)
  | 5 => .ok (.wropKSL ch op v)
  | 6 => .ok (.wropKSR ch op v)
  | 7 => .ok (.wropWS ch op v)
  | 8 => .ok (.wropMULT ch op v)
  | 9 => .ok (.wropFB ch op v)
  | 10 => .ok (.wropAR ch op v)
  | 11 => .ok (.wropDR ch op v)
  | 12 => .ok (.wropSL ch op v)
  | 13 => .ok (.wropSR ch op v)
  | 14 => .ok (.wropRR ch op v)
  | 15 => .ok (.wropTL ch op v)
  | 16 => .ok (.wropXOF ch op v)
  | _ => .error .registerCode

/-- The command a word spells, or why it is reserved (R44, R47, R48, R49). Total on every word. -/
def decodeWord (w : Word) : Except Reserved Instr :=
  if rsv0Field w ≠ 0 ∨ rsv1Field w ≠ 0 ∨ rsv2Field w ≠ 0 then .error .reservedField
  else
    match (kindField w).toNat with
    | 0 =>
      if chField w ≠ 0 ∨ opField w ≠ 0 ∨ regField w ≠ 0 ∨ valueField w ≠ 0 then .error .unusedField
      else .ok .nop
    | 1 =>
      if opField w ≠ 0 then .error .unusedField
      else decodeWrch (regField w).toNat (chField w) (valueField w)
    | 2 => decodeWrop (regField w).toNat (chField w) (opIndex w) (valueField w)
    | 3 =>
      if regField w ≠ 0 then .error .unusedField
      else .ok (.wrtl (chField w) (opIndex w) (carrierTLField w) (modulatorTLField w))
    | 4 =>
      if chField w ≠ 0 ∨ opField w ≠ 0 ∨ regField w ≠ 0 ∨ valueField w ≠ 0 then .error .unusedField
      else .ok .next
    | _ => .error .kind

/-! ### Encoding -/

/-- A field placed with its lowest bit at bit `p` of a word. -/
def fieldAt {n : Nat} (p : Nat) (x : BitVec n) : Word := x.setWidth 64 <<< p

/-- The word of R43 from all its fields, reserved ones too. -/
def wordOfFields (kind rsv0 : BitVec 4) (ch : BitVec 8) (op : BitVec 2) (rsv1 : BitVec 1) (reg : BitVec 5)
    (rsv2 : BitVec 8) (value : Value) : Word :=
  fieldAt 60 kind ||| fieldAt 56 rsv0 ||| fieldAt 48 ch ||| fieldAt 46 op ||| fieldAt 45 rsv1 ||| fieldAt 40 reg
    ||| fieldAt 32 rsv2 ||| fieldAt 0 value

/-- `{KIND, 0000, CH, OP, 0, REG, 00000000, VALUE}` (R52). -/
def commandWord (kind : BitVec 4) (ch : BitVec 8) (op : BitVec 2) (reg : BitVec 5) (value : Value) : Word :=
  wordOfFields kind 0 ch op 0 reg 0 value

/-- A `WRITE_CHANNEL` word: KIND 1, OP 0. -/
def wrchWord (reg : BitVec 5) (ch : BitVec 8) (v : Value) : Word := commandWord 1 ch 0 reg v

/-- A `WRITE_OPERATOR` word: KIND 2. -/
def wropWord (reg : BitVec 5) (ch : BitVec 8) (op : Fin 4) (v : Value) : Word := commandWord 2 ch (BitVec.ofFin op) reg v

/-- VALUE of `WRITE_TL`: carrierTL in 31:16, modulatorTL in 15:0 (R46, R52). -/
def wrtlValue (carrierTL modulatorTL : BitVec 16) : Value :=
  carrierTL.setWidth 32 <<< 16 ||| modulatorTL.setWidth 32

/-- The word of a command (R43, R44, R45, R52). -/
def encode : Instr → Word
  | .nop => commandWord 0 0 0 0 0
  | .next => commandWord 4 0 0 0 0
  | .wrtl ch op c m => commandWord 3 ch (BitVec.ofFin op) 0 (wrtlValue c m)
  | .wrchKON ch v => wrchWord 0 ch v
  | .wrchBLOCK ch v => wrchWord 1 ch v
  | .wrchFNUM ch v => wrchWord 2 ch v
  | .wrchALG ch v => wrchWord 3 ch v
  | .wrchLFO ch v => wrchWord 4 ch v
  | .wrchPANPOT ch v => wrchWord 5 ch v
  | .wrchCHPAN ch v => wrchWord 6 ch v
  | .wrchVOLUME ch v => wrchWord 7 ch v
  | .wrchEXPRESSION ch v => wrchWord 8 ch v
  | .wrchBO ch v => wrchWord 9 ch v
  | .wrchVELOCITY ch v => wrchWord 10 ch v
  | .wropEAM ch op v => wropWord 0 ch op v
  | .wropEVB ch op v => wropWord 1 ch op v
  | .wropDAM ch op v => wropWord 2 ch op v
  | .wropDVB ch op v => wropWord 3 ch op v
  | .wropDT ch op v => wropWord 4 ch op v
  | .wropKSL ch op v => wropWord 5 ch op v
  | .wropKSR ch op v => wropWord 6 ch op v
  | .wropWS ch op v => wropWord 7 ch op v
  | .wropMULT ch op v => wropWord 8 ch op v
  | .wropFB ch op v => wropWord 9 ch op v
  | .wropAR ch op v => wropWord 10 ch op v
  | .wropDR ch op v => wropWord 11 ch op v
  | .wropSL ch op v => wropWord 12 ch op v
  | .wropSR ch op v => wropWord 13 ch op v
  | .wropRR ch op v => wropWord 14 ch op v
  | .wropTL ch op v => wropWord 15 ch op v
  | .wropXOF ch op v => wropWord 16 ch op v

/-! ### The opcode map of R48, as its rows -/

/-- One row of R48: a word `w` spells the command when `w &&& mask = pattern`. -/
structure OpcodeRow where
  mnemonic : String
  pattern : Word
  mask : Word
  deriving DecidableEq, Repr

/-- The first and last rows of R48 and `WRITE_TL`. -/
def chipRows : List OpcodeRow :=
  [⟨"nop", 0x0000000000000000, 0xFFFFFFFFFFFFFFFF⟩,
   ⟨"wrtl", 0x3000000000000000, 0xFF003FFF00000000⟩,
   ⟨"next", 0x4000000000000000, 0xFFFFFFFFFFFFFFFF⟩]

/-- The `WRITE_CHANNEL` rows of R48. -/
def wrchRows : List OpcodeRow :=
  [⟨"wrch.KON", 0x1000000000000000, 0xFF00FFFF00000000⟩,
   ⟨"wrch.BLOCK", 0x1000010000000000, 0xFF00FFFF00000000⟩,
   ⟨"wrch.FNUM", 0x1000020000000000, 0xFF00FFFF00000000⟩,
   ⟨"wrch.ALG", 0x1000030000000000, 0xFF00FFFF00000000⟩,
   ⟨"wrch.LFO", 0x1000040000000000, 0xFF00FFFF00000000⟩,
   ⟨"wrch.PANPOT", 0x1000050000000000, 0xFF00FFFF00000000⟩,
   ⟨"wrch.CHPAN", 0x1000060000000000, 0xFF00FFFF00000000⟩,
   ⟨"wrch.VOLUME", 0x1000070000000000, 0xFF00FFFF00000000⟩,
   ⟨"wrch.EXPRESSION", 0x1000080000000000, 0xFF00FFFF00000000⟩,
   ⟨"wrch.BO", 0x1000090000000000, 0xFF00FFFF00000000⟩,
   ⟨"wrch.VELOCITY", 0x10000A0000000000, 0xFF00FFFF00000000⟩]

/-- The `WRITE_OPERATOR` rows of R48. -/
def wropRows : List OpcodeRow :=
  [⟨"wrop.EAM", 0x2000000000000000, 0xFF003FFF00000000⟩,
   ⟨"wrop.EVB", 0x2000010000000000, 0xFF003FFF00000000⟩,
   ⟨"wrop.DAM", 0x2000020000000000, 0xFF003FFF00000000⟩,
   ⟨"wrop.DVB", 0x2000030000000000, 0xFF003FFF00000000⟩,
   ⟨"wrop.DT", 0x2000040000000000, 0xFF003FFF00000000⟩,
   ⟨"wrop.KSL", 0x2000050000000000, 0xFF003FFF00000000⟩,
   ⟨"wrop.KSR", 0x2000060000000000, 0xFF003FFF00000000⟩,
   ⟨"wrop.WS", 0x2000070000000000, 0xFF003FFF00000000⟩,
   ⟨"wrop.MULT", 0x2000080000000000, 0xFF003FFF00000000⟩,
   ⟨"wrop.FB", 0x2000090000000000, 0xFF003FFF00000000⟩,
   ⟨"wrop.AR", 0x20000A0000000000, 0xFF003FFF00000000⟩,
   ⟨"wrop.DR", 0x20000B0000000000, 0xFF003FFF00000000⟩,
   ⟨"wrop.SL", 0x20000C0000000000, 0xFF003FFF00000000⟩,
   ⟨"wrop.SR", 0x20000D0000000000, 0xFF003FFF00000000⟩,
   ⟨"wrop.RR", 0x20000E0000000000, 0xFF003FFF00000000⟩,
   ⟨"wrop.TL", 0x20000F0000000000, 0xFF003FFF00000000⟩,
   ⟨"wrop.XOF", 0x2000100000000000, 0xFF003FFF00000000⟩]

/-- The opcode map (R48). Its rows do not overlap, so the order in which they are tried does not matter. -/
def opcodeRows : List OpcodeRow := chipRows ++ wrchRows ++ wropRows

/-- The name of the first row a word matches (R48); none for a reserved word (R49). -/
def spelledBy (w : Word) : Option String :=
  (opcodeRows.find? fun r => w &&& r.mask == r.pattern).map (·.mnemonic)

/-! ### The host's numbering of spec/opcode_table.json -/

/-- The word of the `nbits` low bits of `w`; the bits above are 0. A command is delivered whole, so the table's
numbering is the word's own (R35, R43). -/
def tableWord (nbits w : Nat) : Word := BitVec.ofNat 64 (w % 2 ^ nbits)

/-- What the decoder reads from a word numbered as the opcode table numbers it. -/
def decodeTableWord (nbits w : Nat) : Option Instr :=
  match decodeWord (tableWord nbits w) with
  | .ok i => some i
  | .error _ => none

end Sys2Proof
end

