-- ==== Sys2Proof/Config.lean ====
section
/-! DEFINITION. The configuration record of 00_scope.md R6: what a chip is constructed with and no command
writes (10_state.md R31). Every entry R6 calls OPEN is a field here, and `Config.free` is the one opaque value the chip's
record is taken from (log 2). The domains R6 states for the fields are `LegalConfig` in Machine/Params.lean. -/

namespace Sys2Proof

/-- What the names of reals mean, and how the chip computes with them: R7's reals, written as plain data (log 1). The
laws these functions obey are `RealNames.Legal` in Machine/Params.lean. -/
structure RealNames where
  /-- The real number a name stands for. -/
  value : Nat → Real
  /-- The exact result of an operation on sample-domain values. -/
  exact : ArithOp → Sample → Sample → Sample
  /-- a ≤ b -/
  atMost : Sample → Sample → Bool
  /-- `floor` of a named real. -/
  floorOf : Nat → Int
  /-- `trunc` of a named real. -/
  truncOf : Nat → Int
  /-- The binary64 value nearest to a named real. -/
  nearest64 : Nat → Rat

/-- `EG_STEP` (R6, R55, D21): the linear law, or another per-tick level law
`f stage level rate target` within the limits R55 sets. -/
inductive EgLaw where
  | linear
  | replacement (f : Stage → Sample → Sample → Sample → Sample)

/-- The configuration record of R6. `CHANNEL_COUNT` is the length of the state's channel list (log 5) and `BO_BITS`
is the constant `Config.boBits`. -/
structure Config where
  /-- `SAMPLE_RATE` (Fs) -/
  sampleRate : Sample
  /-- `WAVE_BITS` (W) -/
  waveBits : Nat
  /-- `WAVE_TABLE[ws][i]` -/
  waveTable : BitVec 3 → Nat → Sample
  /-- `PHASE_REF` -/
  phaseRef : Int
  /-- `PHASE_CONST` -/
  phaseConst : Sample
  /-- `MULT_FACTOR[m]` -/
  multFactor : BitVec 4 → Sample
  /-- `DT_TERM(dt, block, fnum)` -/
  dtTerm : BitVec 3 → BitVec 3 → BitVec 10 → Int
  /-- `VIB_TERM(inc, mi, dvb)` -/
  vibTerm : Nat → Nat → BitVec 2 → Int
  /-- `TREM_TERM(mi, dam)` -/
  tremTerm : Nat → BitVec 2 → Sample
  /-- `LFO_INC[l]` -/
  lfoInc : BitVec 3 → BitVec 64
  /-- `LFO_BITS` (L) -/
  lfoBits : Nat
  /-- `TL_COEF[t]` -/
  tlCoef : BitVec 6 → Sample
  /-- `KSL_COEF(ksl, block, fnum)` -/
  kslCoef : BitVec 2 → BitVec 3 → BitVec 10 → Sample
  /-- `FB_COEF[f]` -/
  fbCoef : BitVec 3 → Sample
  /-- `BASE_RATE(s, r)` -/
  baseRate : RateKind → BitVec 4 → Sample
  /-- `KSR_FACTOR(block, fnum, ksr)` -/
  ksrFactor : BitVec 3 → BitVec 10 → BitVec 1 → Sample
  /-- `SL_LEVEL[s]` -/
  slLevel : BitVec 4 → Sample
  /-- `DAMP_RATE` -/
  dampRate : Sample
  /-- `EG_STEP` -/
  egStep : EgLaw
  /-- `MOD_MULT` -/
  modMult : Sample
  /-- `REF_RATE` -/
  refRate : Sample
  /-- `ATT_VOLUME[v]` -/
  attVolume : BitVec 7 → Sample
  /-- `ATT_EXPRESSION[v]` -/
  attExpression : BitVec 7 → Sample
  /-- `ATT_VELOCITY[v]` -/
  attVelocity : BitVec 7 → Sample
  /-- `PAN_TABLE[i]`, (left, right) -/
  panTable : BitVec 7 → Sample × Sample
  /-- `SAMPLE_ARITH` -/
  sampleArith : SampleArith
  /-- The MODEL's own entry: the magnitude a result beyond the range of binary64 takes (log 3, free value). -/
  infinity64 : Rat
  /-- The MODEL's own entry: the quotient of a dividend, as the rule states it, by a `SAMPLE_RATE` that binary64 rounds
  to 0 (log 19, free value; its limits are `LegalQuotient` in Machine/Params.lean). -/
  divByZero : Sample → Sample
  /-- The MODEL's own entry: the names of the reals that are not written as rationals (log 1). -/
  names : RealNames

/-- `CHANNEL_COUNT` by default (R6, D45): what `State.reset` builds. -/
def Config.defaultChannelCount : Nat := 16

/-- `BO_BITS` = 2 (R6, R11, D9; log 13). -/
abbrev Config.boBits : Nat := 2

/-- A free value: an element of a type of which nothing is known but that it is one. The chip's configuration is this
value of the legal configurations (log 2). -/
opaque Config.free (α : Type) [Inhabited α] : α

end Sys2Proof
end

