-- ==== Sys2Proof/Machine/Arith.lean ====
section
/-! DEFINITION. Arithmetic of sample-domain values: 00_scope.md R6 (`SAMPLE_ARITH`), R7, 92_eei_decisions.md D19. Under
`ideal` every operation is exact, on reals (log 1); under `binary64` the result of each operation is rounded to the
nearest binary64 value, ties to even (log 3, log 4). -/

namespace Sys2Proof.Machine

/-- 2^e for an integer e. -/
def pow2 (e : Int) : Rat :=
  match e with
  | .ofNat n => ((2 ^ n : Nat) : Rat)
  | .negSucc n => 1 / ((2 ^ (n + 1) : Nat) : Rat)

/-- The integer e with 2^e ≤ |q| < 2^(e+1), for q ≠ 0. -/
def floorLog2 (q : Rat) : Int :=
  let e : Int := (Nat.log2 q.num.natAbs : Int) - (Nat.log2 q.den : Int)
  if pow2 e ≤ |q| then e else e - 1

/-- The nearest integer, ties to even. -/
def nearestEven (q : Rat) : Int :=
  let f := q.floor
  let d := q - f
  if d < 1 / 2 then f
  else if 1 / 2 < d then f + 1
  else if f % 2 = 0 then f else f + 1

/-- The exponent of the last place of a binary64 value of q's size: 53 significant bits, no less than 2^−1074. -/
def ulpExponent (q : Rat) : Int := max (floorLog2 q - 52) (-1074)

/-- Rounding to binary64 (K3). Beyond the largest finite value the result has the magnitude `inf` (log 3). -/
def roundBinary64 (inf q : Rat) : Rat :=
  if q = 0 then 0
  else
    let u := pow2 (ulpExponent q)
    let r := (nearestEven (q / u) : Rat) * u
    if |r| < pow2 1024 then r
    else if 0 < q then inf else -inf

/-- The rounding of a rational `SAMPLE_ARITH` asks for. -/
def roundRat (c : Config) (q : Rat) : Rat :=
  match c.sampleArith with
  | .ideal => q
  | .binary64 => roundBinary64 c.infinity64 q

/-- The rounding `SAMPLE_ARITH` asks for. -/
def roundS (c : Config) (x : Sample) : Sample :=
  match x with
  | .rat q => .rat (roundRat c q)
  | .named n =>
    match c.sampleArith with
    | .ideal => .named n
    | .binary64 => .rat (c.names.nearest64 n)

/-- An operation on rationals. -/
def ArithOp.onRat (op : ArithOp) (p q : Rat) : Rat :=
  match op with
  | .add => p + q
  | .sub => p - q
  | .mul => p * q
  | .div => p / q

/-- The exact result of an operation: computed where both operands are rationals, the configuration's otherwise. -/
def exactS (c : Config) (op : ArithOp) (a b : Sample) : Sample :=
  match a, b with
  | .rat p, .rat q => .rat (ArithOp.onRat op p q)
  | _, _ => c.names.exact op a b

/-- a ≤ b -/
def leS (c : Config) (a b : Sample) : Bool :=
  match a, b with
  | .rat p, .rat q => decide (p ≤ q)
  | _, _ => c.names.atMost a b

/-- a = 0 -/
def isZeroS (c : Config) (a : Sample) : Bool := leS c a (.rat 0) && leS c (.rat 0) a

/-- The smaller of two values. -/
def minS (c : Config) (a b : Sample) : Sample := if leS c a b then a else b
/-- The larger of two values. -/
def maxS (c : Config) (a b : Sample) : Sample := if leS c b a then a else b

/-- a + b -/
def addS (c : Config) (a b : Sample) : Sample := roundS c (exactS c .add a b)
/-- a − b -/
def subS (c : Config) (a b : Sample) : Sample := roundS c (exactS c .sub a b)
/-- a · b -/
def mulS (c : Config) (a b : Sample) : Sample := roundS c (exactS c .mul a b)
/-- a / SAMPLE_RATE, the only division there is (R23, R30). Where the rate rounds to 0 the quotient is the free value of
the dividend as the rule states it, `stated`, with nothing rounded (log 19). -/
def divRate (c : Config) (stated a : Sample) : Sample :=
  let rate := roundS c c.sampleRate
  roundS c (if isZeroS c rate then c.divByZero stated else exactS c .div a rate)

/-- `floor(x)`: toward −∞ (R7). -/
def floorS (c : Config) (x : Sample) : Int :=
  match x with
  | .rat q => q.floor
  | .named n => c.names.floorOf n

/-- `trunc(x)`: toward zero (R7). -/
def truncS (c : Config) (x : Sample) : Int :=
  match x with
  | .rat q => Int.tdiv q.num q.den
  | .named n => c.names.truncOf n

end Sys2Proof.Machine
end

