-- ==== Sys2Proof/Machine/Params.lean ====
section
/-! DEFINITION. The real numbers sample-domain values stand for (00_scope.md R7), the domains R6 states for the
configuration record (`LegalConfig`), and the chip's own configuration `chip`: any legal record, of which nothing is known
but those domains (log 2). -/

namespace Sys2Proof.Machine

/-! ### Reals (R7) -/

/-- The real number a sample-domain value stands for. -/
noncomputable def valueS (c : Config) (x : Sample) : Real :=
  match x with
  | .rat q => (q : Real)
  | .named n => c.names.value n

/-- An operation on reals. -/
noncomputable def ArithOp.onReal (op : ArithOp) (x y : Real) : Real :=
  match op with
  | .add => x + y
  | .sub => x - y
  | .mul => x * y
  | .div => x / y

/-- The laws of the names of reals (log 1): the exact operations and comparisons are those of the reals, a rational
result is written as a rational, and rounding to binary64 gives the nearest binary64 value. The last law pins the
nearest value of a real from below and above by the roundings of the rationals on each side of it. -/
structure LegalNames (c : Config) : Prop where
  exact : ∀ op a b, (op = .div → valueS c b ≠ 0) →
    valueS c (c.names.exact op a b) = ArithOp.onReal op (valueS c a) (valueS c b)
  rational : ∀ op a b (q : Rat), valueS c (c.names.exact op a b) = q → c.names.exact op a b = .rat q
  atMost : ∀ a b, c.names.atMost a b = true ↔ valueS c a ≤ valueS c b
  floorOf : ∀ n, c.names.floorOf n = ⌊c.names.value n⌋
  truncOf : ∀ n, c.names.truncOf n = if 0 ≤ c.names.value n then ⌊c.names.value n⌋ else ⌈c.names.value n⌉
  binary64 : c.sampleArith = .binary64 → ∀ n,
    roundBinary64 c.infinity64 (c.names.nearest64 n) = c.names.nearest64 n
  nearest64 : c.sampleArith = .binary64 → ∀ n (q : Rat),
    ((q : Real) ≤ c.names.value n → roundBinary64 c.infinity64 q ≤ c.names.nearest64 n) ∧
    (c.names.value n ≤ q → c.names.nearest64 n ≤ roundBinary64 c.infinity64 q)

/-! ### The domains of R6 -/

/-- A value in [0, 1]. -/
def InUnit (c : Config) (x : Sample) : Prop := 0 ≤ valueS c x ∧ valueS c x ≤ 1

/-- The target `t` lies ahead of the level, or is reached: above it in Attack, below it in every other stage. -/
def Ahead (c : Config) (st : Stage) (level t : Sample) : Prop :=
  if st = .attack then valueS c level ≤ valueS c t else valueS c t ≤ valueS c level

/-- What R55 says of one move of the level to `moved` at rate `r` toward a target that lies ahead: its limits, within
[level, target] in Attack and within [target, level] in every other moving stage, and its corner cases. -/
structure LegalMove (c : Config) (st : Stage) (level r t moved : Sample) : Prop where
  onward : Ahead c st level moved
  short : Ahead c st moved t
  /-- "a rate of 0 leaves the level unchanged forever" (R55; 93 U14; R78) -/
  still : valueS c r = 0 → valueS c moved = valueS c level
  /-- "a rate ≥ 1 crosses the whole range in one step" (R55; R78, R133) -/
  cross : InUnit c level → InUnit c t → 1 ≤ valueS c r → valueS c moved = valueS c t

/-- What a replacement `EG_STEP` obeys: every move of it is one R55 allows (log 12). R55 states its corner cases of
`EgStep`, so they bind every law (log 24, DEDUCED). -/
def LegalLaw (c : Config) (l : EgLaw) : Prop :=
  match l with
  | .linear => True
  | .replacement f => ∀ st level r t, Ahead c st level t → LegalMove c st level r t (f st level r t)

/-- What the rules say of a quotient by `SAMPLE_RATE` holds of the free one too (log 19). -/
structure LegalQuotient (c : Config) : Prop where
  /-- A dividend of 0 gives 0: "FNUM = 0 … freezes the phase" (R57). -/
  zero : ∀ x, valueS c x = 0 → valueS c (c.divByZero x) = 0
  /-- A dividend of half the rate gives 1/2: "at SAMPLE_RATE = REF_RATE, out is the mean of the last two values" (R93). -/
  half : ∀ x, 2 * valueS c x = valueS c c.sampleRate → valueS c (c.divByZero x) = 1 / 2
  /-- A dividend of at least the rate gives at least 1: "at SAMPLE_RATE ≤ REF_RATE / 2, BlendCurr = 1" (R93). -/
  whole : ∀ x, valueS c c.sampleRate ≤ valueS c x → 1 ≤ valueS c (c.divByZero x)

/-- The domains and constraints of R6. A record outside them is no configuration of this hardware (93 U16). -/
structure LegalConfig (c : Config) : Prop where
  sampleRate : 0 < valueS c c.sampleRate
  waveBits : 1 ≤ c.waveBits ∧ c.waveBits ≤ 32
  waveTable : ∀ ws i, i < 2 ^ c.waveBits → -1 ≤ valueS c (c.waveTable ws i) ∧ valueS c (c.waveTable ws i) ≤ 1
  /-- WS = 0 is one period of a sine from phase 0 (D48). -/
  sine : ∀ i, i < 2 ^ c.waveBits → valueS c (c.waveTable 0 i) = Real.sin (2 * Real.pi * i / 2 ^ c.waveBits)
  phaseConst : 0 < valueS c c.phaseConst
  multFactor : ∀ m, 0 ≤ valueS c (c.multFactor m)
  dtTerm : ∀ block fnum, c.dtTerm 0 block fnum = 0
  tremTerm : ∀ mi dam, InUnit c (c.tremTerm mi dam)
  lfoBits : 1 ≤ c.lfoBits ∧ c.lfoBits ≤ 64
  tlCoef : ∀ t, InUnit c (c.tlCoef t)
  kslCoef : ∀ ksl block fnum, InUnit c (c.kslCoef ksl block fnum)
  fbCoef : c.fbCoef 0 = .rat 0
  baseRate : ∀ s r, 0 ≤ valueS c (c.baseRate s r)
  releaseRate : 1 ≤ valueS c (c.baseRate .releaseRate 15)
  ksrFactor : ∀ block fnum ksr, 1 ≤ valueS c (c.ksrFactor block fnum ksr)
  slLevel : ∀ s, InUnit c (c.slLevel s)
  dampRate : 0 < valueS c c.dampRate
  egStep : LegalLaw c c.egStep
  refRate : 0 < valueS c c.refRate
  attVolume : ∀ v, 0 ≤ valueS c (c.attVolume v)
  attExpression : ∀ v, 0 ≤ valueS c (c.attExpression v)
  attVelocity : ∀ v, 0 ≤ valueS c (c.attVelocity v)
  panTable : ∀ i, 0 ≤ valueS c (c.panTable i).1 ∧ 0 ≤ valueS c (c.panTable i).2
  infinity64 : pow2 1024 ≤ c.infinity64
  divByZero : LegalQuotient c
  names : LegalNames c

/-! ### The chip's configuration -/

/-- A sample as a rational, where every name stands for 0. -/
def plainRat (x : Sample) : Rat :=
  match x with
  | .rat q => q
  | .named _ => 0

/-- A legal record in which every name stands for 0: it shows that there is one, and is used for nothing else. -/
def plainConfig : Config :=
  { sampleRate := .rat 1, waveBits := 1, waveTable := fun _ _ => .rat 0, phaseRef := 0, phaseConst := .rat 1
    multFactor := fun _ => .rat 1, dtTerm := fun _ _ _ => 0, vibTerm := fun _ _ _ => 0, tremTerm := fun _ _ => .rat 1
    lfoInc := fun _ => 0, lfoBits := 1, tlCoef := fun _ => .rat 1, kslCoef := fun _ _ _ => .rat 1
    fbCoef := fun _ => .rat 0, baseRate := fun _ _ => .rat 1, ksrFactor := fun _ _ _ => .rat 1
    slLevel := fun _ => .rat 1, dampRate := .rat 1, egStep := .linear, modMult := .rat 1, refRate := .rat 1
    attVolume := fun _ => .rat 1, attExpression := fun _ => .rat 1, attVelocity := fun _ => .rat 1
    panTable := fun _ => (.rat 1, .rat 1), sampleArith := .ideal, infinity64 := pow2 1024
    divByZero := fun x => x
    names :=
      { value := fun _ => 0
        exact := fun op a b => .rat (ArithOp.onRat op (plainRat a) (plainRat b))
        atMost := fun a b => decide (plainRat a ≤ plainRat b)
        floorOf := fun _ => 0, truncOf := fun _ => 0, nearest64 := fun _ => 0 } }

theorem plainNames_legal : LegalNames plainConfig := by
  have hv : ∀ x, valueS plainConfig x = ((plainRat x : Rat) : Real) := by
    intro x; cases x <;> simp [valueS, plainRat, plainConfig]
  refine ⟨fun op a b _ => ?_, fun op a b q h => ?_, fun a b => ?_, fun n => ?_, fun n => ?_, ?_, ?_⟩
  · rw [hv a, hv b]; cases op <;> simp [plainConfig, valueS, ArithOp.onRat, ArithOp.onReal]
  · simp only [plainConfig, valueS] at h ⊢; rw [Rat.cast_injective h]
  · rw [hv a, hv b]; simp [plainConfig]
  · simp [plainConfig]
  · simp [plainConfig]
  · intro h; cases h
  · intro h; cases h

theorem plainConfig_legal : LegalConfig plainConfig where
  sampleRate := by simp [plainConfig, valueS]
  waveBits := by decide
  waveTable := fun _ _ _ => by simp [plainConfig, valueS]
  sine := fun i hi => by
    have : i = 0 ∨ i = 1 := by simp [plainConfig] at hi; omega
    rcases this with rfl | rfl <;> simp [plainConfig, valueS]
  phaseConst := by simp [plainConfig, valueS]
  multFactor := fun _ => by simp [plainConfig, valueS]
  dtTerm := fun _ _ => rfl
  tremTerm := fun _ _ => by simp [plainConfig, InUnit, valueS]
  lfoBits := by decide
  tlCoef := fun _ => by simp [plainConfig, InUnit, valueS]
  kslCoef := fun _ _ _ => by simp [plainConfig, InUnit, valueS]
  fbCoef := rfl
  baseRate := fun _ _ => by simp [plainConfig, valueS]
  releaseRate := by simp [plainConfig, valueS]
  ksrFactor := fun _ _ _ => by simp [plainConfig, valueS]
  slLevel := fun _ => by simp [plainConfig, InUnit, valueS]
  dampRate := by simp [plainConfig, valueS]
  egStep := trivial
  refRate := by simp [plainConfig, valueS]
  attVolume := fun _ => by simp [plainConfig, valueS]
  attExpression := fun _ => by simp [plainConfig, valueS]
  attVelocity := fun _ => by simp [plainConfig, valueS]
  panTable := fun _ => by simp [plainConfig, valueS]
  infinity64 := le_rfl
  divByZero := ⟨fun _ h => h, fun x h => by simp [plainConfig, valueS] at h ⊢; linarith,
    fun x h => by simpa [plainConfig, valueS] using h⟩
  names := plainNames_legal

/-- A configuration of this hardware: a legal record. -/
structure Hardware where
  config : Config
  legal : LegalConfig config

/-- The chip is constructed with some legal record (R6), and nothing else is known of it (log 2). -/
def theHardware : Hardware := @Config.free Hardware ⟨⟨plainConfig, plainConfig_legal⟩⟩

/-- The configuration of the chip. -/
def chip : Config := theHardware.config

/-- The chip's configuration is a configuration of this hardware. -/
theorem chip_legal : LegalConfig chip := theHardware.legal

end Sys2Proof.Machine
end

