-- ==== Sys2Proof/Machine/State.lean ====
section
/-! DEFINITION. The state of one chip: 10_state.md R11, R13, R14, R16, the output stream of 20_memory.md R32, and the
host's undelivered commands (log 7). Reset: 70_reset_and_hazards.md R130. -/

namespace Sys2Proof.Machine

/-- The channel register file (R11). Every register is write-only from the host (R9). -/
structure ChannelRegs where
  kon : BitVec 1
  block : BitVec 3
  fnum : BitVec 10
  alg : BitVec 3
  lfo : BitVec 3
  panpot : BitVec 5
  chpan : BitVec 7
  volume : BitVec 7
  expression : BitVec 7
  bo : BitVec Config.boBits
  velocity : BitVec 7
  deriving DecidableEq, Repr

/-- The operator register file (R13). -/
structure OperatorRegs where
  eam : BitVec 1
  evb : BitVec 1
  dam : BitVec 2
  dvb : BitVec 2
  dt : BitVec 3
  ksl : BitVec 2
  ksr : BitVec 1
  ws : BitVec 3
  mult : BitVec 4
  fb : BitVec 3
  ar : BitVec 4
  dr : BitVec 4
  sl : BitVec 4
  sr : BitVec 4
  rr : BitVec 4
  tl : BitVec 6
  xof : BitVec 1
  deriving DecidableEq, Repr

/-- One operator: its registers and its hidden state (R13, R14). -/
structure Operator where
  regs : OperatorRegs
  /-- The phase accumulator, unsigned, wrapping modulo 2^64. -/
  phase : BitVec 64
  /-- The envelope stage. -/
  stage : Stage
  /-- The envelope's linear amplitude, in [0, 1] in every reachable state (R15). -/
  level : Sample
  deriving DecidableEq, Repr

/-- A feedback delay line (R16). -/
structure FeedbackLine where
  prev : Sample
  curr : Sample
  out : Sample
  deriving DecidableEq, Repr

/-- One channel: registers, four operators, hidden state (R11, R13, R16). `fb1` serves operator index 0 and `fb3`
operator index 2 (R3, R16). -/
structure Channel where
  regs : ChannelRegs
  op0 : Operator
  op1 : Operator
  op2 : Operator
  op3 : Operator
  fb1 : FeedbackLine
  fb3 : FeedbackLine
  /-- The LFO phase accumulator, unsigned, wrapping modulo 2^64. -/
  lfoPhase : BitVec 64
  deriving DecidableEq, Repr

/-- A stereo frame (R107). -/
structure Frame where
  left : Sample
  right : Sample
  deriving DecidableEq, Repr

/-- The chip. N is `channels.length` (log 5). `frames` is the output stream, oldest first (R32, R141; log 9).
`pending` is the model's own field: the words the host has yet to deliver, first first (log 7). -/
structure State where
  channels : List Channel
  frames : List Frame
  pending : List Word
  deriving DecidableEq, Repr

/-- The hardware raises nothing: "Nothing raises, nothing panics, nothing is fatal" (60_exceptions.md R111). No
constructor, so no step can end in a fault (log 17). -/
inductive Fault where
  deriving DecidableEq, Repr

/-- Why the model gives a command no meaning. -/
inductive Refusal where
  /-- Raised by an arm of `exec` for an instruction that has no meaning yet (none in this model). Safe. -/
  | notModelled (mnemonic : String)
  /-- Raised by `step` for a word that matches no row of R48: "The model gives a reserved word no meaning: it refuses
  it" (R49, R50; log 8). Safe. -/
  | reservedWord (w : Word) (why : Reserved)
  /-- Raised by a meaning whose CH names no channel of this chip: a word that matches a row with CH ≥ N is reserved
  (R49, R50; log 8). Safe. -/
  | reservedChannel (ch : BitVec 8)
  /-- Raised by `step` when the host has delivered no further command: the chip never steps without one (R2), and a
  run ends after its last command (R141; log 7). Safe. -/
  | noCommand
  deriving DecidableEq, Repr

/-! ### Reset (R130) -/

/-- Every channel register is 0 after construction (R11, R130; log 6). -/
def ChannelRegs.reset : ChannelRegs :=
  { kon := 0, block := 0, fnum := 0, alg := 0, lfo := 0, panpot := 0, chpan := 0, volume := 0, expression := 0,
    bo := 0, velocity := 0 }

/-- Every operator register is 0 after construction (R13, R130; log 6). -/
def OperatorRegs.reset : OperatorRegs :=
  { eam := 0, evb := 0, dam := 0, dvb := 0, dt := 0, ksl := 0, ksr := 0, ws := 0, mult := 0,
    fb := 0, ar := 0, dr := 0, sl := 0, sr := 0, rr := 0, tl := 0, xof := 0 }

/-- Stage Off, level 0, phase 0 (R14, R130). -/
def Operator.reset : Operator :=
  { regs := OperatorRegs.reset, phase := 0, stage := .off, level := .rat 0 }

/-- All three reals of a feedback line are 0 (R16, R130). -/
def FeedbackLine.zero : FeedbackLine := { prev := .rat 0, curr := .rat 0, out := .rat 0 }

/-- A channel after construction (R130). -/
def Channel.reset : Channel :=
  { regs := ChannelRegs.reset, op0 := Operator.reset, op1 := Operator.reset, op2 := Operator.reset,
    op3 := Operator.reset, fb1 := FeedbackLine.zero, fb3 := FeedbackLine.zero, lfoPhase := 0 }

/-- Construction of a chip of `n` channels (R130): the output stream is empty; the host has delivered nothing. -/
def State.construct (n : Nat) : State :=
  { channels := List.replicate n Channel.reset, frames := [], pending := [] }

/-- The machine right after reset: construction with the default channel count (R6, R130; log 5). -/
def State.reset : State := State.construct Config.defaultChannelCount

end Sys2Proof.Machine
end

