-- ==== Sys2Proof/Machine/Coef.lean ====
section
/-! DEFINITION. The derived coefficients, 10_state.md R19, R23 to R30: pure functions of the current registers and the
configuration `c`, evaluated when used (R19). Under `binary64` a table entry or constant is read as its nearest binary64
value, and the operations of each formula are rounded in the order written (log 4). -/

namespace Sys2Proof.Machine

/-- `2^(BLOCK + BO − PHASE_REF)` of R23. -/
def incExponent (c : Config) (r : ChannelRegs) : Int := (r.block.toNat : Int) + r.bo.toNat - c.phaseRef

/-- `FNUM · 2^(BLOCK + BO − PHASE_REF) · MULT_FACTOR[MULT] · PHASE_CONST` of R23, with `mul` for each product and `read`
for each constant. -/
def incDividend (mul : Sample → Sample → Sample) (read : Sample → Sample) (c : Config) (r : ChannelRegs)
    (mult : BitVec 4) : Sample :=
  mul (mul (mul (.rat r.fnum.toNat) (read (.rat (pow2 (incExponent c r))))) (read (c.multFactor mult)))
    (read c.phaseConst)

/-- The increment before rounding to an integer (R23). -/
def incReal (c : Config) (r : ChannelRegs) (mult : BitVec 4) : Sample :=
  divRate c (incDividend (exactS c .mul) id c r mult) (incDividend (mulS c) (roundS c) c r mult)

/-- `Inc(c,k) = min(2^64 − 1, floor(…))`, an integer ≥ 0 (R23). -/
def incOf (c : Config) (r : ChannelRegs) (mult : BitVec 4) : Nat :=
  min (2 ^ 64 - 1) (floorS c (incReal c r mult)).toNat

/-- `BASE_RATE(s, r) · KSRF` (R24). -/
def scaledRate (c : Config) (r : ChannelRegs) (o : OperatorRegs) (s : RateKind) (v : BitVec 4) : Sample :=
  mulS c (roundS c (c.baseRate s v)) (roundS c (c.ksrFactor r.block r.fnum o.ksr))

/-- `Rate(c,k)` of the operator's current stage (R24). -/
def rateOf (c : Config) (r : ChannelRegs) (o : Operator) : Sample :=
  match o.stage with
  | .attack => scaledRate c r o.regs .attackRate o.regs.ar
  | .decay => scaledRate c r o.regs .decayRate o.regs.dr
  | .sustain => scaledRate c r o.regs .sustainRate o.regs.sr
  | .release => scaledRate c r o.regs .releaseRate o.regs.rr
  | .damp => roundS c c.dampRate
  | .off => .rat 0

/-- `KslTl(c,k)` (R25). -/
def kslTl (c : Config) (r : ChannelRegs) (o : OperatorRegs) : Sample :=
  mulS c (roundS c (c.kslCoef o.ksl r.block r.fnum)) (roundS c (c.tlCoef o.tl))

/-- `FbCoef(c,k)` (R26). -/
def fbCoefOf (c : Config) (o : OperatorRegs) : Sample := roundS c (c.fbCoef o.fb)

/-- `Att(c)` (R27). -/
def attOf (c : Config) (r : ChannelRegs) : Sample :=
  mulS c (mulS c (roundS c (c.attVolume r.volume)) (roundS c (c.attExpression r.expression)))
    (roundS c (c.attVelocity r.velocity))

/-- `clamp(CHPAN + (PANPOT − 15) · 4, 0, 127)` on mathematical integers (R28). -/
def panIndexInt (r : ChannelRegs) : Int :=
  min 127 (max 0 ((r.chpan.toNat : Int) + ((r.panpot.toNat : Int) - 15) * 4))

/-- `PanIndex(c)` as the index of the 128-entry table (R28, R29). -/
def panIndex (r : ChannelRegs) : BitVec 7 := BitVec.ofInt 7 (panIndexInt r)

/-- `PanL(c)` (R29). -/
def panL (c : Config) (r : ChannelRegs) : Sample := roundS c (c.panTable (panIndex r)).1

/-- `PanR(c)` (R29). -/
def panR (c : Config) (r : ChannelRegs) : Sample := roundS c (c.panTable (panIndex r)).2

/-- `BlendCurr = min(1, 0.5 · REF_RATE / SAMPLE_RATE)` (R30). -/
def blendCurr (c : Config) : Sample :=
  minS c (.rat 1) (divRate c (exactS c .mul (.rat (1 / 2)) c.refRate) (mulS c (.rat (1 / 2)) (roundS c c.refRate)))

/-- `BlendPrev = 1 − BlendCurr` (R30). -/
def blendPrev (c : Config) : Sample := subS c (.rat 1) (blendCurr c)

end Sys2Proof.Machine
end

