-- ==== Sys2Proof/Machine/OperatorTick.lean ====
section
/-! DEFINITION. One operator's tick: envelope, phase, waveform and output, 40_operator.md R54 to R60. `c` is the
configuration, `r` the channel's registers. -/

namespace Sys2Proof.Machine

/-- One per-tick move of the level toward target `t` at rate `r` in a moving stage (R55): the linear law, or the
configuration's replacement. DESIGN CHOICE (log 23): a replacement's result is stored as the law gives it, not rounded to
binary64 again; the laws whose results are binary64 values are among those admitted. -/
def moveLevel (c : Config) (st : Stage) (level r t : Sample) : Sample :=
  match c.egStep with
  | .linear => if st = .attack then minS c t (addS c level r) else maxS c t (subS c level r)
  | .replacement f => f st level r t

/-- `SL_LEVEL[SL]`, the Decay target (R55). -/
def decayTarget (c : Config) (o : OperatorRegs) : Sample := roundS c (c.slLevel o.sl)

/-- `EgStep` at rate `r` (R55). A stage entered here takes effect from the next tick on. -/
def egStepAt (c : Config) (r : Sample) (o : Operator) : Operator :=
  match o.stage with
  | .off => o
  | .attack =>
    let l := moveLevel c .attack o.level r (.rat 1)
    { o with level := l, stage := if leS c (.rat 1) l then .decay else .attack }
  | .decay =>
    let t := decayTarget c o.regs
    let l := if leS c o.level t then o.level else moveLevel c .decay o.level r t
    { o with level := l, stage := if leS c l t then .sustain else .decay }
  | .sustain =>
    if o.regs.xof = 1 then { o with level := moveLevel c .sustain o.level r (.rat 0) } else o
  | .release =>
    let l := moveLevel c .release o.level r (.rat 0)
    { o with level := l, stage := if leS c l (.rat 0) then .off else .release }
  | .damp =>
    let l := moveLevel c .damp o.level r (.rat 0)
    { o with level := l, stage := if leS c l (.rat 0) then .off else .damp }

/-- `EgStep(c, k)`: at the rate of the stage at entry to the step (R55, R24). -/
def egStep (c : Config) (r : ChannelRegs) (o : Operator) : Operator := egStepAt c (rateOf c r o) o

/-- The increment of this tick, detune and vibrato added, not below 0 (R57). -/
def phaseDelta (c : Config) (r : ChannelRegs) (mi : Nat) (o : OperatorRegs) : Int :=
  let inc := incOf c r o.mult
  let d := (inc : Int) + c.dtTerm o.dt r.block r.fnum
  let d := if o.evb = 1 then d + c.vibTerm inc mi o.dvb else d
  max 0 d

/-- `PhaseStep(c, k, mi)` (R57), modulo 2^64. -/
def phaseStep (c : Config) (r : ChannelRegs) (mi : Nat) (o : Operator) : Operator :=
  { o with phase := o.phase + BitVec.ofInt 64 (phaseDelta c r mi o.regs) }

/-- `PhaseOffset(m) = mask_64(trunc(m · 2^64))` (R58). -/
def phaseOffset (c : Config) (m : Sample) : BitVec 64 := BitVec.ofInt 64 (truncS c (mulS c m (.rat (pow2 64))))

/-- The waveform index: the top W bits of the effective phase (R59). -/
def waveIndex (c : Config) (pe : BitVec 64) : Nat := pe.toNat >>> (64 - c.waveBits)

/-- The waveform sample with its tremolo factor, if EAM is set (R59, R60). -/
def waveSample (c : Config) (mi : Nat) (o : OperatorRegs) (pe : BitVec 64) : Sample :=
  let s := roundS c (c.waveTable o.ws (waveIndex c pe))
  if o.eam = 1 then mulS c s (roundS c (c.tremTerm mi o.dam)) else s

/-- `OpNext(c, k, mi, m)`: the operator after the tick and its output (R54). -/
def opNext (c : Config) (r : ChannelRegs) (mi : Nat) (m : Sample) (o : Operator) : Operator × Sample :=
  let o := egStep c r o
  let amp := mulS c o.level (kslTl c r o.regs)
  let o := phaseStep c r mi o
  let s := waveSample c mi o.regs (o.phase + phaseOffset c m)
  (o, mulS c s amp)

end Sys2Proof.Machine
end

