-- ==== Sys2Proof/Machine/Flags.lean ====
section
/-! DEFINITION. The derived status of a channel and of the chip: carrier sets and `isOff`, 10_state.md R17 to R22. The
stored status bits are KON and each operator's stage (R17); there are no condition codes. -/

namespace Sys2Proof.Machine

/-- The carrier indexes of each algorithm (R20). -/
def carriers (alg : BitVec 3) : List (Fin 4) :=
  match alg.toFin with
  | 0 => [1]
  | 1 => [0, 1]
  | 2 => [0, 1, 2, 3]
  | 3 => [3]
  | 4 => [3]
  | 5 => [1, 3]
  | 6 => [0, 3]
  | 7 => [0, 2, 3]

/-- `isCarrier(a, k)` (R20). -/
def isCarrier (alg : BitVec 3) (k : Fin 4) : Bool := (carriers alg).contains k

/-- Operator k of a channel (R13). -/
def Channel.op (ch : Channel) (k : Fin 4) : Operator :=
  match k with
  | 0 => ch.op0
  | 1 => ch.op1
  | 2 => ch.op2
  | 3 => ch.op3

/-- `isModulator(c, k)`: the complement of the carrier set (R21). -/
def Channel.isModulator (ch : Channel) (k : Fin 4) : Bool := !isCarrier ch.regs.alg k

/-- `isOff(c)`: every carrier of the current algorithm is in stage Off (R22). -/
def Channel.isOff (ch : Channel) : Bool := (carriers ch.regs.alg).all fun k => decide ((ch.op k).stage = .off)

/-- The status output `ch_off[N−1:0]` (R18), channel 0 first. -/
def State.chOff (s : State) : List Bool := s.channels.map Channel.isOff

end Sys2Proof.Machine
end

