-- ==== Sys2Proof/Machine/Ops.lean ====
section
/-! DEFINITION. The shared operations over the register space and the hidden state: reaching a channel or an operator
(20_memory.md R33, 30_encoding.md R49), the key operations (40_operator.md R62, R63), the channel reset (41_channel.md
R95), and taking the next command from the host (60_exceptions.md R122). There is no operation that takes an exception
or returns from one: the hardware has neither (R111, R114, R115). -/

namespace Sys2Proof.Machine

/-- The channel with operator k replaced. -/
def Channel.setOp (ch : Channel) (k : Fin 4) (o : Operator) : Channel :=
  match k with
  | 0 => { ch with op0 := o }
  | 1 => { ch with op1 := o }
  | 2 => { ch with op2 := o }
  | 3 => { ch with op3 := o }

/-- `for k in 0..3`: f on each of the four operators. -/
def Channel.mapOps (ch : Channel) (f : Operator → Operator) : Channel :=
  { ch with op0 := f ch.op0, op1 := f ch.op1, op2 := f ch.op2, op3 := f ch.op3 }

/-- The channel with its KON register replaced. -/
def Channel.setKonBit (ch : Channel) (b : BitVec 1) : Channel :=
  { ch with regs := { ch.regs with kon := b } }

/-- The chip with channel `c` replaced, and nothing else. -/
def State.setChannel (s : State) (c : BitVec 8) (ch : Channel) : State :=
  { s with channels := s.channels.set c.toNat ch }

/-- A command on channel `c`: f on that channel and nothing else. A channel number ≥ N is reserved and refused (R49,
R50; log 8). -/
def onChannel (c : BitVec 8) (f : Channel → Channel) (s : State) : Host.Outcome State Fault Refusal :=
  match s.channels[c.toNat]? with
  | some ch => .next (s.setChannel c (f ch))
  | none => .refused (.reservedChannel c)

/-- A command on operator `k` of channel `c`: f on that operator and nothing else. -/
def onOperator (c : BitVec 8) (k : Fin 4) (f : Operator → Operator) (s : State) :
    Host.Outcome State Fault Refusal :=
  onChannel c (fun ch => ch.setOp k (f (ch.op k))) s

/-- `KeyOnOp` (R62): phase 0, stage Attack; the level is kept. -/
def keyOnOp (o : Operator) : Operator := { o with phase := 0, stage := .attack }

/-- `KeyOffOp` (R63): to Release, unless Off; level and phase are kept. -/
def keyOffOp (o : Operator) : Operator := if o.stage = .off then o else { o with stage := .release }

/-- The operator part of `ChReset` (R95): phase 0, Off, level 0; registers kept. -/
def resetOp (o : Operator) : Operator := { o with phase := 0, stage := .off, level := .rat 0 }

/-- `ChReset` (R95): feedback lines zeroed and the four operators reset; no register and not `lfoPhase`. -/
def chReset (ch : Channel) : Channel :=
  { ch.mapOps resetOp with fb1 := FeedbackLine.zero, fb3 := FeedbackLine.zero }

/-- The host delivers its next command word, if it has one (R2, R38; log 7). -/
def takeCommand (s : State) : Option (Word × State) :=
  match s.pending with
  | [] => none
  | w :: rest => some (w, { s with pending := rest })

end Sys2Proof.Machine
end

