-- ==== Sys2Proof/Machine/ChannelTick.lean ====
section
/-! DEFINITION. One channel's tick: LFO, early exit, the eight algorithms, feedback, attenuation and pan, 41_channel.md
R81 to R94. -/

namespace Sys2Proof.Machine

/-- `LfoStep(c)`: the phase moves (R82). -/
def lfoStep (c : Config) (ch : Channel) : Channel := { ch with lfoPhase := ch.lfoPhase + c.lfoInc ch.regs.lfo }

/-- The modulation index: the top LFO_BITS bits of the LFO phase (R82). -/
def modIndex (c : Config) (ch : Channel) : Nat := ch.lfoPhase.toNat >>> (64 - c.lfoBits)

/-- The feedback line of operator k: fb1 for 0, fb3 for 2 (R93; R93 names no other k). -/
def Channel.line (ch : Channel) (k : Fin 4) : FeedbackLine := if k = 0 then ch.fb1 else ch.fb3

/-- The channel with the feedback line of operator k replaced. -/
def Channel.setLine (ch : Channel) (k : Fin 4) (l : FeedbackLine) : Channel :=
  if k = 0 then { ch with fb1 := l } else { ch with fb3 := l }

/-- `FbIn(c, k)` (R93). -/
def fbIn (c : Config) (ch : Channel) (k : Fin 4) : Sample :=
  if isZeroS c (fbCoefOf c (ch.op k).regs) then .rat 0 else (ch.line k).out

/-- A feedback line after an output `o` at gain `g` (R93). -/
def lineNext (c : Config) (g o : Sample) (l : FeedbackLine) : FeedbackLine :=
  let prev := l.curr
  let curr := mulS c o g
  { prev := prev, curr := curr, out := addS c (mulS c prev (blendPrev c)) (mulS c curr (blendCurr c)) }

/-- `FbUpdate(c, k, o)` (R93): with gain 0 the line is left as it is. -/
def fbUpdate (c : Config) (k : Fin 4) (o : Sample) (ch : Channel) : Channel :=
  let g := fbCoefOf c (ch.op k).regs
  if isZeroS c g then ch else ch.setLine k (lineNext c g o (ch.line k))

/-- `OpNext` on operator k of a channel: the channel after it and the output. -/
def evalOp (c : Config) (mi : Nat) (ch : Channel) (k : Fin 4) (m : Sample) : Channel × Sample :=
  let p := opNext c ch.regs mi m (ch.op k)
  (ch.setOp k p.1, p.2)

/-- What `Route` returns (R84): the channel, the carrier sum, and the outputs of operators 0 and 2. -/
structure Routed where
  ch : Channel
  res : Sample
  o0 : Sample
  o2 : Sample
  deriving DecidableEq, Repr

/-- `MOD_MULT · x` (R84). -/
def modIn (c : Config) (x : Sample) : Sample := mulS c (roundS c c.modMult) x

/-- ALG 0, "(FB)1 → 2 → OUT" (R85). -/
def routeAlg0 (c : Config) (mi : Nat) (ch : Channel) : Routed :=
  let (ch, o0) := evalOp c mi ch 0 (fbIn c ch 0)
  let (ch, o1) := evalOp c mi ch 1 (modIn c o0)
  { ch := ch, res := o1, o0 := o0, o2 := .rat 0 }

/-- ALG 1, "(FB)1 ∥ 2 → OUT" (R86). -/
def routeAlg1 (c : Config) (mi : Nat) (ch : Channel) : Routed :=
  let (ch, o0) := evalOp c mi ch 0 (fbIn c ch 0)
  let (ch, o1) := evalOp c mi ch 1 (.rat 0)
  { ch := ch, res := addS c o0 o1, o0 := o0, o2 := .rat 0 }

/-- ALG 2, "(FB)1 ∥ 2 ∥ (FB)3 ∥ 4 → OUT" (R87). -/
def routeAlg2 (c : Config) (mi : Nat) (ch : Channel) : Routed :=
  let f3 := fbIn c ch 2
  let (ch, o0) := evalOp c mi ch 0 (fbIn c ch 0)
  let (ch, o1) := evalOp c mi ch 1 (.rat 0)
  let (ch, o2) := evalOp c mi ch 2 f3
  let (ch, o3) := evalOp c mi ch 3 (.rat 0)
  { ch := ch, res := addS c (addS c (addS c o0 o1) o2) o3, o0 := o0, o2 := o2 }

/-- ALG 3, "(FB)1 → 4; 2 → 3 → 4 → OUT" (R88). -/
def routeAlg3 (c : Config) (mi : Nat) (ch : Channel) : Routed :=
  let (ch, o0) := evalOp c mi ch 0 (fbIn c ch 0)
  let (ch, o1) := evalOp c mi ch 1 (.rat 0)
  let (ch, o2) := evalOp c mi ch 2 (modIn c o1)
  let (ch, o3) := evalOp c mi ch 3 (addS c (modIn c o0) (modIn c o2))
  { ch := ch, res := o3, o0 := o0, o2 := o2 }

/-- ALG 4, "(FB)1 → 2 → 3 → 4 → OUT" (R89). -/
def routeAlg4 (c : Config) (mi : Nat) (ch : Channel) : Routed :=
  let (ch, o0) := evalOp c mi ch 0 (fbIn c ch 0)
  let (ch, o1) := evalOp c mi ch 1 (modIn c o0)
  let (ch, o2) := evalOp c mi ch 2 (modIn c o1)
  let (ch, o3) := evalOp c mi ch 3 (modIn c o2)
  { ch := ch, res := o3, o0 := o0, o2 := o2 }

/-- ALG 5, "(FB)1 → 2 ∥ (FB)3 → 4 → OUT" (R90). -/
def routeAlg5 (c : Config) (mi : Nat) (ch : Channel) : Routed :=
  let f3 := fbIn c ch 2
  let (ch, o0) := evalOp c mi ch 0 (fbIn c ch 0)
  let (ch, o1) := evalOp c mi ch 1 (modIn c o0)
  let (ch, o2) := evalOp c mi ch 2 f3
  let (ch, o3) := evalOp c mi ch 3 (modIn c o2)
  { ch := ch, res := addS c o1 o3, o0 := o0, o2 := o2 }

/-- ALG 6, "(FB)1 ∥ 2 → 3 → 4 → OUT" (R91). -/
def routeAlg6 (c : Config) (mi : Nat) (ch : Channel) : Routed :=
  let (ch, o0) := evalOp c mi ch 0 (fbIn c ch 0)
  let (ch, o1) := evalOp c mi ch 1 (.rat 0)
  let (ch, o2) := evalOp c mi ch 2 (modIn c o1)
  let (ch, o3) := evalOp c mi ch 3 (modIn c o2)
  { ch := ch, res := addS c o0 o3, o0 := o0, o2 := o2 }

/-- ALG 7, "(FB)1 ∥ 2 → 3 ∥ 4 → OUT" (R92). -/
def routeAlg7 (c : Config) (mi : Nat) (ch : Channel) : Routed :=
  let (ch, o0) := evalOp c mi ch 0 (fbIn c ch 0)
  let (ch, o1) := evalOp c mi ch 1 (.rat 0)
  let (ch, o2) := evalOp c mi ch 2 (modIn c o1)
  let (ch, o3) := evalOp c mi ch 3 (.rat 0)
  { ch := ch, res := addS c (addS c o0 o2) o3, o0 := o0, o2 := o2 }

/-- `Route(c, mi)`: the algorithm of the ALG register (R84). -/
def route (c : Config) (mi : Nat) (ch : Channel) : Routed :=
  match ch.regs.alg.toFin with
  | 0 => routeAlg0 c mi ch
  | 1 => routeAlg1 c mi ch
  | 2 => routeAlg2 c mi ch
  | 3 => routeAlg3 c mi ch
  | 4 => routeAlg4 c mi ch
  | 5 => routeAlg5 c mi ch
  | 6 => routeAlg6 c mi ch
  | 7 => routeAlg7 c mi ch

/-- Operator 2 is a feedback source in algorithms 2 and 5 only (R81, R93). -/
def hasFb3 (alg : BitVec 3) : Bool := alg = 2 || alg = 5

/-- The feedback updates of a tick: operator 0, then operator 2 where the algorithm marks it (R81). -/
def fbUpdates (c : Config) (t : Routed) : Channel :=
  let ch := fbUpdate c 0 t.o0 t.ch
  if hasFb3 ch.regs.alg then fbUpdate c 2 t.o2 ch else ch

/-- The frame of a carrier sum: attenuation, then each pan gain, nothing clipped (R94). -/
def frameOf (c : Config) (r : ChannelRegs) (res : Sample) : Frame :=
  let x := mulS c res (attOf c r)
  { left := mulS c x (panL c r), right := mulS c x (panR c r) }

/-- `ChNext(c)`: the channel after one tick and its frame (R81); with all carriers Off, (0, 0) and nothing but the LFO
moves (R83). -/
def chNext (c : Config) (ch : Channel) : Channel × Frame :=
  let ch := lfoStep c ch
  if ch.isOff then (ch, { left := .rat 0, right := .rat 0 })
  else
    let t := route c (modIndex c ch) ch
    let ch := fbUpdates c t
    (ch, frameOf c ch.regs t.res)

end Sys2Proof.Machine
end

