-- ==== Sys2Proof/Machine/Operands.lean ====
section
/-! DEFINITION. How a signed command value becomes a stored register value: 00_scope.md R7, 10_state.md R11, R13. -/

namespace Sys2Proof.Machine

/-- `mask_n(v) = v mod 2^n` (R7): the low n bits of v in two's complement. -/
def maskTo (n : Nat) (v : Int) : BitVec n := BitVec.ofInt n v

/-- `clamp(v, lo, hi) = min(hi, max(lo, v))` (R7). -/
def clamp (v lo hi : Int) : Int := min hi (max lo v)

/-- `clamp(v, 0, hi)` stored in an n-bit register (R11: BLOCK, PANPOT, CHPAN). -/
def saturateTo (n : Nat) (hi v : Int) : BitVec n := BitVec.ofInt n (clamp v 0 hi)

end Sys2Proof.Machine
end

