-- ==== Sys2Proof/Machine/Chip.lean ====
section
/-! DEFINITION. The chip's own commands `NOP`, `NEXT` and `WRITE_TL`: 42_chip.md R107 to R109. -/

namespace Sys2Proof.Machine

/-- The sum of the channels' frames in ascending order (R107). -/
def mix (c : Config) (frames : List Frame) : Frame :=
  frames.foldl (fun a f => { left := addS c a.left f.left, right := addS c a.right f.right })
    { left := .rat 0, right := .rat 0 }

/-- The frame one tick emits under configuration `c` (R107). -/
def frameNext (c : Config) (s : State) : Frame := mix c (s.channels.map fun ch => (chNext c ch).2)

/-- One tick of a chip constructed with configuration `c` (R107): every channel advances, one frame is appended. -/
def tick (c : Config) (s : State) : State :=
  { s with channels := s.channels.map fun ch => (chNext c ch).1, frames := s.frames ++ [frameNext c s] }

/-- `NEXT` (R107). -/
def execNext (s : State) : Host.Outcome State Fault Refusal := .next (tick chip s)

/-- `NOP` (R109): no state changes and no frame is emitted. -/
def execNop (s : State) : Host.Outcome State Fault Refusal := .next s

/-- The TL a `WRITE_TL` stores in operator k: one of its two values, by the algorithm in force (R108). -/
def selectTL (ch : Channel) (k : Fin 4) (carrierTL modulatorTL : BitVec 16) : BitVec 6 :=
  if isCarrier ch.regs.alg k then maskTo 6 carrierTL.toInt else maskTo 6 modulatorTL.toInt

/-- `WRITE_TL` (R108). -/
def execWrtl (ch : BitVec 8) (op : Fin 4) (carrierTL modulatorTL : BitVec 16) (s : State) :
    Host.Outcome State Fault Refusal :=
  onChannel ch (fun c => c.setOp op
    { c.op op with regs := { (c.op op).regs with tl := selectTL c op carrierTL modulatorTL } }) s

end Sys2Proof.Machine
end

