-- ==== Sys2Proof/Machine/WriteChannel.lean ====
section
/-! DEFINITION. The eleven `WRITE_CHANNEL` commands, 41_channel.md R96 to R106. BLOCK, PANPOT and CHPAN saturate, KON
and ALG have side effects, every other register masks (10_state.md R11). -/

namespace Sys2Proof.Machine

/-- `setKON` (R96): any nonzero value keys on an unkeyed channel; 0 keys off, and resets a channel found off. -/
def setKon (v : Int) (ch : Channel) : Channel :=
  if v ≠ 0 then
    if ch.regs.kon = 1 then ch
    else (ch.setKonBit 1).mapOps keyOnOp
  else
    let released := (ch.setKonBit 0).mapOps keyOffOp
    if released.isOff then chReset released else released

/-- `setALG` (R99): a changed value resets the channel before the new routing is in force. -/
def setAlg (v : Int) (ch : Channel) : Channel :=
  let a := maskTo 3 v
  let ch := if a ≠ ch.regs.alg then chReset ch else ch
  { ch with regs := { ch.regs with alg := a } }

/-- `WRITE_CHANNEL KON` (R96). -/
def execWrchKON (ch : BitVec 8) (v : Value) (s : State) : Host.Outcome State Fault Refusal :=
  onChannel ch (setKon v.toInt) s

/-- `WRITE_CHANNEL BLOCK` (R97). -/
def execWrchBLOCK (ch : BitVec 8) (v : Value) (s : State) : Host.Outcome State Fault Refusal :=
  onChannel ch (fun c => { c with regs := { c.regs with block := saturateTo 3 7 v.toInt } }) s

/-- `WRITE_CHANNEL FNUM` (R98). -/
def execWrchFNUM (ch : BitVec 8) (v : Value) (s : State) : Host.Outcome State Fault Refusal :=
  onChannel ch (fun c => { c with regs := { c.regs with fnum := maskTo 10 v.toInt } }) s

/-- `WRITE_CHANNEL ALG` (R99). -/
def execWrchALG (ch : BitVec 8) (v : Value) (s : State) : Host.Outcome State Fault Refusal :=
  onChannel ch (setAlg v.toInt) s

/-- `WRITE_CHANNEL LFO` (R100). -/
def execWrchLFO (ch : BitVec 8) (v : Value) (s : State) : Host.Outcome State Fault Refusal :=
  onChannel ch (fun c => { c with regs := { c.regs with lfo := maskTo 3 v.toInt } }) s

/-- `WRITE_CHANNEL PANPOT` (R101). -/
def execWrchPANPOT (ch : BitVec 8) (v : Value) (s : State) : Host.Outcome State Fault Refusal :=
  onChannel ch (fun c => { c with regs := { c.regs with panpot := saturateTo 5 31 v.toInt } }) s

/-- `WRITE_CHANNEL CHPAN` (R102). -/
def execWrchCHPAN (ch : BitVec 8) (v : Value) (s : State) : Host.Outcome State Fault Refusal :=
  onChannel ch (fun c => { c with regs := { c.regs with chpan := saturateTo 7 127 v.toInt } }) s

/-- `WRITE_CHANNEL VOLUME` (R103). -/
def execWrchVOLUME (ch : BitVec 8) (v : Value) (s : State) : Host.Outcome State Fault Refusal :=
  onChannel ch (fun c => { c with regs := { c.regs with volume := maskTo 7 v.toInt } }) s

/-- `WRITE_CHANNEL EXPRESSION` (R104). -/
def execWrchEXPRESSION (ch : BitVec 8) (v : Value) (s : State) : Host.Outcome State Fault Refusal :=
  onChannel ch (fun c => { c with regs := { c.regs with expression := maskTo 7 v.toInt } }) s

/-- `WRITE_CHANNEL BO` (R105). -/
def execWrchBO (ch : BitVec 8) (v : Value) (s : State) : Host.Outcome State Fault Refusal :=
  onChannel ch (fun c => { c with regs := { c.regs with bo := maskTo Config.boBits v.toInt } }) s

/-- `WRITE_CHANNEL VELOCITY` (R106). -/
def execWrchVELOCITY (ch : BitVec 8) (v : Value) (s : State) : Host.Outcome State Fault Refusal :=
  onChannel ch (fun c => { c with regs := { c.regs with velocity := maskTo 7 v.toInt } }) s

end Sys2Proof.Machine
end

