-- ==== Sys2Proof/Machine/WriteOperator.lean ====
section
/-! DEFINITION. The seventeen `WRITE_OPERATOR` commands, 40_operator.md R64 to R80: each masks the signed value into
its register of operator `op` of channel `ch` and changes nothing else (R61). -/

namespace Sys2Proof.Machine

/-- `WRITE_OPERATOR EAM` (R64). -/
def execWropEAM (ch : BitVec 8) (op : Fin 4) (v : Value) (s : State) : Host.Outcome State Fault Refusal :=
  onOperator ch op (fun o => { o with regs := { o.regs with eam := maskTo 1 v.toInt } }) s

/-- `WRITE_OPERATOR EVB` (R65). -/
def execWropEVB (ch : BitVec 8) (op : Fin 4) (v : Value) (s : State) : Host.Outcome State Fault Refusal :=
  onOperator ch op (fun o => { o with regs := { o.regs with evb := maskTo 1 v.toInt } }) s

/-- `WRITE_OPERATOR DAM` (R66). -/
def execWropDAM (ch : BitVec 8) (op : Fin 4) (v : Value) (s : State) : Host.Outcome State Fault Refusal :=
  onOperator ch op (fun o => { o with regs := { o.regs with dam := maskTo 2 v.toInt } }) s

/-- `WRITE_OPERATOR DVB` (R67). -/
def execWropDVB (ch : BitVec 8) (op : Fin 4) (v : Value) (s : State) : Host.Outcome State Fault Refusal :=
  onOperator ch op (fun o => { o with regs := { o.regs with dvb := maskTo 2 v.toInt } }) s

/-- `WRITE_OPERATOR DT` (R68). -/
def execWropDT (ch : BitVec 8) (op : Fin 4) (v : Value) (s : State) : Host.Outcome State Fault Refusal :=
  onOperator ch op (fun o => { o with regs := { o.regs with dt := maskTo 3 v.toInt } }) s

/-- `WRITE_OPERATOR KSL` (R69). -/
def execWropKSL (ch : BitVec 8) (op : Fin 4) (v : Value) (s : State) : Host.Outcome State Fault Refusal :=
  onOperator ch op (fun o => { o with regs := { o.regs with ksl := maskTo 2 v.toInt } }) s

/-- `WRITE_OPERATOR KSR` (R70). -/
def execWropKSR (ch : BitVec 8) (op : Fin 4) (v : Value) (s : State) : Host.Outcome State Fault Refusal :=
  onOperator ch op (fun o => { o with regs := { o.regs with ksr := maskTo 1 v.toInt } }) s

/-- `WRITE_OPERATOR WS` (R71). -/
def execWropWS (ch : BitVec 8) (op : Fin 4) (v : Value) (s : State) : Host.Outcome State Fault Refusal :=
  onOperator ch op (fun o => { o with regs := { o.regs with ws := maskTo 3 v.toInt } }) s

/-- `WRITE_OPERATOR MULT` (R72). -/
def execWropMULT (ch : BitVec 8) (op : Fin 4) (v : Value) (s : State) : Host.Outcome State Fault Refusal :=
  onOperator ch op (fun o => { o with regs := { o.regs with mult := maskTo 4 v.toInt } }) s

/-- `WRITE_OPERATOR FB` (R73). -/
def execWropFB (ch : BitVec 8) (op : Fin 4) (v : Value) (s : State) : Host.Outcome State Fault Refusal :=
  onOperator ch op (fun o => { o with regs := { o.regs with fb := maskTo 3 v.toInt } }) s

/-- `WRITE_OPERATOR AR` (R74). -/
def execWropAR (ch : BitVec 8) (op : Fin 4) (v : Value) (s : State) : Host.Outcome State Fault Refusal :=
  onOperator ch op (fun o => { o with regs := { o.regs with ar := maskTo 4 v.toInt } }) s

/-- `WRITE_OPERATOR DR` (R75). -/
def execWropDR (ch : BitVec 8) (op : Fin 4) (v : Value) (s : State) : Host.Outcome State Fault Refusal :=
  onOperator ch op (fun o => { o with regs := { o.regs with dr := maskTo 4 v.toInt } }) s

/-- `WRITE_OPERATOR SL` (R76). -/
def execWropSL (ch : BitVec 8) (op : Fin 4) (v : Value) (s : State) : Host.Outcome State Fault Refusal :=
  onOperator ch op (fun o => { o with regs := { o.regs with sl := maskTo 4 v.toInt } }) s

/-- `WRITE_OPERATOR SR` (R77). -/
def execWropSR (ch : BitVec 8) (op : Fin 4) (v : Value) (s : State) : Host.Outcome State Fault Refusal :=
  onOperator ch op (fun o => { o with regs := { o.regs with sr := maskTo 4 v.toInt } }) s

/-- `WRITE_OPERATOR RR` (R78). -/
def execWropRR (ch : BitVec 8) (op : Fin 4) (v : Value) (s : State) : Host.Outcome State Fault Refusal :=
  onOperator ch op (fun o => { o with regs := { o.regs with rr := maskTo 4 v.toInt } }) s

/-- `WRITE_OPERATOR TL` (R79). -/
def execWropTL (ch : BitVec 8) (op : Fin 4) (v : Value) (s : State) : Host.Outcome State Fault Refusal :=
  onOperator ch op (fun o => { o with regs := { o.regs with tl := maskTo 6 v.toInt } }) s

/-- `WRITE_OPERATOR XOF` (R80). -/
def execWropXOF (ch : BitVec 8) (op : Fin 4) (v : Value) (s : State) : Host.Outcome State Fault Refusal :=
  onOperator ch op (fun o => { o with regs := { o.regs with xof := maskTo 1 v.toInt } }) s

end Sys2Proof.Machine
end

