-- ==== Sys2Proof/Machine/Dispatch.lean ====
section
/-! DEFINITION. One arm per command of 30_encoding.md R48. -/

namespace Sys2Proof.Machine

def exec (i : Instr) (s : State) : Host.Outcome State Fault Refusal :=
  match i with
  | .nop => Sys2Proof.Machine.execNop s
  | .next => Sys2Proof.Machine.execNext s
  | .wrtl ch op c m => Sys2Proof.Machine.execWrtl ch op c m s
  | .wrchKON ch v => Sys2Proof.Machine.execWrchKON ch v s
  | .wrchBLOCK ch v => Sys2Proof.Machine.execWrchBLOCK ch v s
  | .wrchFNUM ch v => Sys2Proof.Machine.execWrchFNUM ch v s
  | .wrchALG ch v => Sys2Proof.Machine.execWrchALG ch v s
  | .wrchLFO ch v => Sys2Proof.Machine.execWrchLFO ch v s
  | .wrchPANPOT ch v => Sys2Proof.Machine.execWrchPANPOT ch v s
  | .wrchCHPAN ch v => Sys2Proof.Machine.execWrchCHPAN ch v s
  | .wrchVOLUME ch v => Sys2Proof.Machine.execWrchVOLUME ch v s
  | .wrchEXPRESSION ch v => Sys2Proof.Machine.execWrchEXPRESSION ch v s
  | .wrchBO ch v => Sys2Proof.Machine.execWrchBO ch v s
  | .wrchVELOCITY ch v => Sys2Proof.Machine.execWrchVELOCITY ch v s
  | .wropEAM ch op v => Sys2Proof.Machine.execWropEAM ch op v s
  | .wropEVB ch op v => Sys2Proof.Machine.execWropEVB ch op v s
  | .wropDAM ch op v => Sys2Proof.Machine.execWropDAM ch op v s
  | .wropDVB ch op v => Sys2Proof.Machine.execWropDVB ch op v s
  | .wropDT ch op v => Sys2Proof.Machine.execWropDT ch op v s
  | .wropKSL ch op v => Sys2Proof.Machine.execWropKSL ch op v s
  | .wropKSR ch op v => Sys2Proof.Machine.execWropKSR ch op v s
  | .wropWS ch op v => Sys2Proof.Machine.execWropWS ch op v s
  | .wropMULT ch op v => Sys2Proof.Machine.execWropMULT ch op v s
  | .wropFB ch op v => Sys2Proof.Machine.execWropFB ch op v s
  | .wropAR ch op v => Sys2Proof.Machine.execWropAR ch op v s
  | .wropDR ch op v => Sys2Proof.Machine.execWropDR ch op v s
  | .wropSL ch op v => Sys2Proof.Machine.execWropSL ch op v s
  | .wropSR ch op v => Sys2Proof.Machine.execWropSR ch op v s
  | .wropRR ch op v => Sys2Proof.Machine.execWropRR ch op v s
  | .wropTL ch op v => Sys2Proof.Machine.execWropTL ch op v s
  | .wropXOF ch op v => Sys2Proof.Machine.execWropXOF ch op v s

end Sys2Proof.Machine
end

