-- ==== Sys2Proof/Machine/Receive.lean ====
section
/-! DEFINITION. What a delivered word does: in the model, and in a hardware built from the spec (30_encoding.md R49,
R50; log 8). -/

namespace Sys2Proof.Machine

/-- A delivered word, decoded and executed. A reserved word is refused: "The model gives a reserved word no meaning: it
refuses it" (R50). -/
def executeWord (w : Word) (s : State) : Host.Outcome State Fault Refusal :=
  match decodeWord w with
  | .ok i => exec i s
  | .error e => .refused (.reservedWord w e)

/-- The state of a built hardware after a word: "A hardware built from this spec must leave every piece of state
unchanged and emit no frame when it receives" a reserved word (R50). Where the model gives the word a meaning the two
agree. -/
def receive (w : Word) (s : State) : State :=
  match executeWord w s with
  | .next t => t
  | .fault _ => s
  | .refused _ => s

end Sys2Proof.Machine
end

