-- ==== Sys2Proof/Machine/Step.lean ====
section
/-! DEFINITION. One step: the host delivers its next command word, the chip decodes it and executes it to completion
(00_scope.md R2, 20_memory.md R37, R38; log 7). -/

namespace Sys2Proof.Machine

/-- One command, delivered and executed. With no command delivered there is no step (R2, R141). -/
def step (s : State) : Host.Outcome State Fault Refusal :=
  match takeCommand s with
  | none => .refused .noCommand
  | some (w, s') => executeWord w s'

/-- The host delivers this word next: it stands before every word still pending (log 7). -/
def State.withFetchWord (s : State) (nbits w : Nat) : State := { s with pending := tableWord nbits w :: s.pending }

end Sys2Proof.Machine
end

