-- ==== Sys2Proof/Machine/HostCommands.lean ====
section
/-! DEFINITION. The host's side of the boundary: the pseudo-commands of 30_encoding.md R53, the text form of a command
(R52), and the host's velocity mapping (60_exceptions.md R124). None of it is behaviour of the hardware; the rest of the
host is out of scope (00_scope.md R5; log 18). -/

namespace Sys2Proof.Machine

/-- The pseudo-commands (R53). -/
inductive Pseudo where
  | keyon (ch : BitVec 8)
  | keyoff (ch : BitVec 8)
  | setfreq (ch : BitVec 8) (fnum block bo : Value)
  | nextn (n : Nat)
  | kill (ch : BitVec 8)
  | silence
  deriving DecidableEq, Repr

/-- `kill`'s writes to operator k (R53): "force SL=0, RR=15, KSL=0, TL=0x3f". -/
def killOp (ch : BitVec 8) (k : Fin 4) : List Instr :=
  [.wropSL ch k 0, .wropRR ch k 15, .wropKSL ch k 0, .wropTL ch k 0x3f]

/-- `silence`'s writes to operator k (R53): "TL=0x3f, fastest AR/DR, RR=15". -/
def silenceOp (ch : BitVec 8) (k : Fin 4) : List Instr :=
  [.wropTL ch k 0x3f, .wropAR ch k 15, .wropDR ch k 15, .wropRR ch k 15]

/-- `silence`'s commands for one channel. -/
def silenceChannel (ch : BitVec 8) : List Instr :=
  ([0, 1, 2, 3] : List (Fin 4)).flatMap (silenceOp ch) ++ [.wrchKON ch 0]

/-- The expansion of a pseudo-command on a chip of `n` channels (R53). -/
def Pseudo.expand (n : Nat) (p : Pseudo) : List Instr :=
  match p with
  | .keyon ch => [.wrchKON ch 1]
  | .keyoff ch => [.wrchKON ch 0]
  | .setfreq ch f b o => [.wrchFNUM ch f, .wrchBLOCK ch b, .wrchBO ch o]
  | .nextn k => List.replicate k .next
  | .kill ch => ([0, 1, 2, 3] : List (Fin 4)).flatMap (killOp ch) ++ [.wrchKON ch 0]
  | .silence => (List.range n).flatMap fun c => silenceChannel (BitVec.ofNat 8 c)

/-- A `wrch` line (R52). -/
def wrchLine (reg : String) (ch : BitVec 8) (v : Value) : String :=
  "wrch " ++ toString ch.toNat ++ ", " ++ reg ++ ", " ++ toString v.toInt

/-- A `wrop` line (R52). -/
def wropLine (reg : String) (ch : BitVec 8) (op : Fin 4) (v : Value) : String :=
  "wrop " ++ toString ch.toNat ++ ", " ++ toString op.val ++ ", " ++ reg ++ ", " ++ toString v.toInt

/-- The text form of a command, numbers in decimal (R52). -/
def asmLine (i : Instr) : String :=
  match i with
  | .nop => "nop"
  | .next => "next"
  | .wrtl ch op c m =>
    "wrtl " ++ toString ch.toNat ++ ", " ++ toString op.val ++ ", " ++ toString c.toInt ++ ", " ++ toString m.toInt
  | .wrchKON ch v => wrchLine "KON" ch v
  | .wrchBLOCK ch v => wrchLine "BLOCK" ch v
  | .wrchFNUM ch v => wrchLine "FNUM" ch v
  | .wrchALG ch v => wrchLine "ALG" ch v
  | .wrchLFO ch v => wrchLine "LFO" ch v
  | .wrchPANPOT ch v => wrchLine "PANPOT" ch v
  | .wrchCHPAN ch v => wrchLine "CHPAN" ch v
  | .wrchVOLUME ch v => wrchLine "VOLUME" ch v
  | .wrchEXPRESSION ch v => wrchLine "EXPRESSION" ch v
  | .wrchBO ch v => wrchLine "BO" ch v
  | .wrchVELOCITY ch v => wrchLine "VELOCITY" ch v
  | .wropEAM ch op v => wropLine "EAM" ch op v
  | .wropEVB ch op v => wropLine "EVB" ch op v
  | .wropDAM ch op v => wropLine "DAM" ch op v
  | .wropDVB ch op v => wropLine "DVB" ch op v
  | .wropDT ch op v => wropLine "DT" ch op v
  | .wropKSL ch op v => wropLine "KSL" ch op v
  | .wropKSR ch op v => wropLine "KSR" ch op v
  | .wropWS ch op v => wropLine "WS" ch op v
  | .wropMULT ch op v => wropLine "MULT" ch op v
  | .wropFB ch op v => wropLine "FB" ch op v
  | .wropAR ch op v => wropLine "AR" ch op v
  | .wropDR ch op v => wropLine "DR" ch op v
  | .wropSL ch op v => wropLine "SL" ch op v
  | .wropSR ch op v => wropLine "SR" ch op v
  | .wropRR ch op v => wropLine "RR" ch op v
  | .wropTL ch op v => wropLine "TL" ch op v
  | .wropXOF ch op v => wropLine "XOF" ch op v

/-- The host's velocity mapping of a carrier's programmed TL (R124, C6): `0x3f − ((0x3f − tl) · table[vel] >> 7)`, the
product formed before the shift. -/
def velocityTL (table : Nat → Int) (tl : Int) (vel : Nat) : Int := 0x3f - ((0x3f - tl) * table vel) >>> 7

end Sys2Proof.Machine
end

