-- ==== Sys2Proof/WellFormed.lean ====
section
/-! DEFINITION. Which commands a chip of `n` channels gives a meaning: the one check the operand types leave open is
`CH < N` (30_encoding.md R49). -/

namespace Sys2Proof

/-- The channel named, if any, exists on a chip of `n` channels. -/
def Instr.channelExists (n : Nat) (i : Instr) : Bool :=
  match i.channel with
  | none => true
  | some ch => decide (ch.toNat < n)

/-- A command is well-formed for a chip of `n` channels (R49: a word with `CH ≥ N` is reserved). -/
abbrev Instr.WellFormed (n : Nat) (i : Instr) : Prop := i.channelExists n = true

end Sys2Proof
end

