-- ==== Sys2Proof/Safety.lean ====
section
/-! DEFINITION. The terms claims are made in: the invariant of every reachable state (10_state.md R15), silence
(70_reset_and_hazards.md R131), runs and their observation (R141). There is no memory, so there is no memory form to
keep (20_memory.md R32; log 21). -/

namespace Sys2Proof.Machine

/-- R15 of one operator: `0 ≤ level ≤ 1`, and `stage = Off` implies `level = 0`. -/
structure Operator.Good (c : Config) (o : Operator) : Prop where
  level_nonneg : 0 ≤ valueS c o.level
  level_le_one : valueS c o.level ≤ 1
  off_level : o.stage = .off → valueS c o.level = 0

/-- R15 of the four operators of a channel. -/
def Channel.Good (c : Config) (ch : Channel) : Prop := ∀ k, (ch.op k).Good c

/-- The invariant of every reachable state: a channel count the chip can be built with (R6), and R15. -/
structure State.Inv (c : Config) (s : State) : Prop where
  some_channel : 1 ≤ s.channels.length
  channel_count : s.channels.length ≤ 256
  good : ∀ ch ∈ s.channels, ch.Good c

/-- Every operator of every channel is Off (R131). -/
def State.AllOff (s : State) : Prop := ∀ ch ∈ s.channels, ∀ k, (ch.op k).stage = .off

/-- The command keys a channel on: `WRITE_CHANNEL KON` with a nonzero value (R96, R131). -/
def keysOn (i : Instr) : Bool :=
  match i with
  | .wrchKON _ v => v != 0
  | _ => false

/-- The seventeen `WRITE_OPERATOR` commands on operator `op` of channel `ch` with value `v` (R64 to R80). -/
def operatorWrites (ch : BitVec 8) (op : Fin 4) (v : Value) : List Instr :=
  [.wropEAM ch op v, .wropEVB ch op v, .wropDAM ch op v, .wropDVB ch op v, .wropDT ch op v,
   .wropKSL ch op v, .wropKSR ch op v, .wropWS ch op v, .wropMULT ch op v, .wropFB ch op v,
   .wropAR ch op v, .wropDR ch op v, .wropSL ch op v, .wropSR ch op v, .wropRR ch op v,
   .wropTL ch op v, .wropXOF ch op v]

/-- The nine `WRITE_CHANNEL` commands without side effects: all but KON and ALG (20_memory.md R37). -/
def plainChannelWrites (ch : BitVec 8) (v : Value) : List Instr :=
  [.wrchBLOCK ch v, .wrchFNUM ch v, .wrchLFO ch v, .wrchPANPOT ch v, .wrchCHPAN ch v,
   .wrchVOLUME ch v, .wrchEXPRESSION ch v, .wrchBO ch v, .wrchVELOCITY ch v]

/-- The level is a value the arithmetic of the chip can hold, wherever the linear law moves it (log 3). -/
def Operator.Representable (c : Config) (o : Operator) : Prop := c.egStep = .linear → roundS c o.level = o.level

/-- Every level of the chip is a value its arithmetic can hold: trivial under `ideal`. -/
def State.Representable (c : Config) (s : State) : Prop := ∀ ch ∈ s.channels, ∀ k, (ch.op k).Representable c

/-- What no register write but KON and ALG, and nothing but a tick, may change (R61): the hidden state of a channel. -/
structure SameHidden (a b : Channel) : Prop where
  phase : ∀ k, (a.op k).phase = (b.op k).phase
  stage : ∀ k, (a.op k).stage = (b.op k).stage
  level : ∀ k, (a.op k).level = (b.op k).level
  fb1 : a.fb1 = b.fb1
  fb3 : a.fb3 = b.fb3
  lfoPhase : a.lfoPhase = b.lfoPhase

/-- The state of a channel after `silence` (R53, R126, R132): keyed off, each operator at TL 0x3f and the fastest
rates, and Off or in Release. -/
structure Channel.Silenced (ch : Channel) : Prop where
  kon : ch.regs.kon = 0
  tl : ∀ k, (ch.op k).regs.tl = 0x3f
  ar : ∀ k, (ch.op k).regs.ar = 15
  dr : ∀ k, (ch.op k).regs.dr = 15
  rr : ∀ k, (ch.op k).regs.rr = 15
  stage : ∀ k, (ch.op k).stage = .off ∨ (ch.op k).stage = .release

/-- The commands executed in order; the run stops at the first fault or refusal (R38, R141). -/
def execAll (is : List Instr) (s : State) : Host.Outcome State Fault Refusal :=
  match is with
  | [] => .next s
  | i :: rest =>
    match exec i s with
    | .next t => execAll rest t
    | .fault r => .fault r
    | .refused r => .refused r

/-- The words applied in order from a start state; a run with a reserved word has no final state (R141). -/
def runWords (ws : List Word) (s : State) : Host.Outcome State Fault Refusal :=
  match ws with
  | [] => .next s
  | w :: rest =>
    match executeWord w s with
    | .next t => runWords rest t
    | .fault r => .fault r
    | .refused r => .refused r

/-- The observation of a run (R141): the frames its own `NEXT` commands emitted, the final state, and its `ch_off`. -/
structure Observation where
  frames : List Frame
  final : State
  chOff : List Bool
  deriving DecidableEq, Repr

/-- What the run of the words `ws` from the start state `s` shows; a run with a reserved word shows nothing (R141). -/
def observe (ws : List Word) (s : State) : Option Observation :=
  match runWords ws s with
  | .next t => some { frames := t.frames.drop s.frames.length, final := t, chOff := t.chOff }
  | .fault _ => none
  | .refused _ => none

end Sys2Proof.Machine
end

