-- ==== Sys2Proof/Certificates/Slice0/Obligations.lean ====
section
/-! DEFINITION. The statements for the provers. Each formalises a rule of spec/ or follows from its sections; `chip` is
the configuration of the chip, any configuration R6 allows (log 2). -/

open Sys2Proof Sys2Proof.Machine

/-- Decoding the word of any command gives the command back. From 30_encoding.md section 1; 30_encoding.md section 2;
30_encoding.md section 3; 30_encoding.md section 5. -/
def Obligations.DecodeOfEncodeIsIdentity : Prop :=
  ∀ i : Instr, decodeWord (encode i) = .ok i

/-- A word that decodes is the only word of its command. From 30_encoding.md section 1; 30_encoding.md section 3. -/
def Obligations.EncodeOfDecodeIsIdentity : Prop :=
  ∀ (w : Word) (i : Instr), decodeWord w = .ok i → encode i = w

/-- The decoder reads exactly the rows of the opcode map. Rule R48. -/
def Obligations.DecoderAgreesWithOpcodeMap : Prop :=
  ∀ w : Word, spelledBy w = (match decodeWord w with
    | .ok i => some i.mnemonic
    | .error _ => none)

/-- Example words of the spec decode to their commands. From 95_test_vectors.md section 2.1; 40_operator.md section 6;
41_channel.md section 3; 42_chip.md. -/
def Obligations.ExampleWordsDecode : Prop :=
  decodeWord 0x0000000000000000 = .ok .nop ∧
  decodeWord 0x4000000000000000 = .ok .next ∧
  decodeWord 0x2001CF000000007F = .ok (.wropTL 1 3 0x7f) ∧
  decodeWord 0x20000300FFFFFFFF = .ok (.wropDVB 0 0 0xFFFFFFFF) ∧
  decodeWord 0x30004000FFFF0040 = .ok (.wrtl 0 1 0xFFFF 0x40) ∧
  decodeWord 0x1003000000000002 = .ok (.wrchKON 3 2) ∧
  decodeWord 0x1000030000000009 = .ok (.wrchALG 0 9) ∧
  decodeWord 0x1000010000000009 = .ok (.wrchBLOCK 0 9) ∧
  decodeWord 0x1000050000000028 = .ok (.wrchPANPOT 0 40) ∧
  decodeWord 0x5000000000000000 = .error .kind ∧
  decodeWord 0x10000B0000000000 = .error .registerCode ∧
  decodeWord 0x1000400000000001 = .error .unusedField

/-- A reserved word is refused by the model and ignored by a built hardware. Rule R50. -/
def Obligations.ReservedWordsAreRefusedAndIgnored : Prop :=
  (∀ (w : Word) (e : Reserved) (s : State), decodeWord w = .error e →
    executeWord w s = .refused (.reservedWord w e) ∧ receive w s = s) ∧
  (∀ (w : Word) (i : Instr) (c : BitVec 8) (s : State), decodeWord w = .ok i → i.channel = some c →
    s.channels.length ≤ c.toNat →
    executeWord w s = .refused (.reservedChannel c) ∧ receive w s = s)

/-- Every command on an existing channel completes. From 60_exceptions.md section 1; 70_reset_and_hazards.md section
4; 30_encoding.md section 4. -/
def Obligations.WellFormedCommandsComplete : Prop :=
  ∀ (i : Instr) (s : State),
    (i.WellFormed s.channels.length → ∃ t, exec i s = .next t ∧ t.channels.length = s.channels.length ∧
      t.pending = s.pending) ∧
    (¬ i.WellFormed s.channels.length → ∃ c, i.channel = some c ∧ exec i s = .refused (.reservedChannel c))

/-- A step delivers the next word and runs the command it decodes to. From 20_memory.md section 3; 00_scope.md section
1. The list of undelivered words, and the refusal of a step with none, are the model's choice (log 7, DESIGN CHOICE).
-/
def Obligations.StepRunsDecodedCommand : Prop :=
  (∀ (s : State) (w : Word) (rest : List Word) (i : Instr), s.pending = w :: rest → decodeWord w = .ok i →
    step s = exec i { s with pending := rest }) ∧
  (∀ s : State, s.pending = [] → step s = .refused .noCommand)

/-- The word placed by withFetchWord is the one the next step runs. From 20_memory.md section 3; 30_encoding.md
section 1. withFetchWord stands for the delivery of a program from outside, and decodeTableWord for the table's
numbering of bits: both are the model's choice (logs 7 and 22, DESIGN CHOICE). -/
def Obligations.FetchWordIsRunNext : Prop :=
  ∀ (s : State) (nbits w : Nat) (i : Instr), decodeTableWord nbits w = some i →
    step (s.withFetchWord nbits w) = exec i s

/-- Every step with a word pending completes, unless the word is reserved. From 60_exceptions.md section 1;
30_encoding.md section 3; 30_encoding.md section 4; 70_reset_and_hazards.md section 4. That the model refuses a
reserved word is the rule of R50; the names of the two refusals and the list of pending words are the model's (logs 7
and 8). -/
def Obligations.EveryStepCompletesUnlessReserved : Prop :=
  ∀ (s : State) (w : Word) (rest : List Word), s.pending = w :: rest →
    ((∃ t, step s = .next t) ↔ (spelledBy w).isSome = true ∧
      (kindField w = 1 ∨ kindField w = 2 ∨ kindField w = 3 → (chField w).toNat < s.channels.length)) ∧
    (spelledBy w = none → ∃ e, step s = .refused (.reservedWord w e)) ∧
    ((spelledBy w).isSome = true → (kindField w = 1 ∨ kindField w = 2 ∨ kindField w = 3) →
      s.channels.length ≤ (chField w).toNat → step s = .refused (.reservedChannel (chField w)))

/-- NOP changes no state and emits no frame. Rule R109. -/
def Obligations.NopChangesNothing : Prop :=
  (∀ s : State, exec .nop s = .next s) ∧ decodeWord 0 = .ok .nop ∧
  (∀ w : Word, kindField w = 0 → w ≠ 0 → ∃ e, decodeWord w = .error e)

/-- A masked value is v mod 2^n, a saturated value is v clamped to its range. From 00_scope.md section 5; 10_state.md
section 3. -/
def Obligations.StoredValueIsMaskedOrClamped : Prop :=
  (∀ (n : Nat) (v : Int), ((maskTo n v).toNat : Int) = v % 2 ^ n) ∧
  (∀ (n : Nat) (hi v : Int), 0 ≤ hi → hi < 2 ^ n →
    ((saturateTo n hi v).toNat : Int) = if v < 0 then 0 else if hi < v then hi else v)

/-- WRITE_CHANNEL FNUM, LFO, VOLUME, EXPRESSION, BO and VELOCITY mask. From 41_channel.md section 3; 10_state.md
section 3. The width of BO (BO_BITS = 2) rests on log 13 (PRESUMED: the spec takes these widths from general
knowledge). -/
def Obligations.MaskingChannelWritesStoreLowBits : Prop :=
  ∀ (s : State) (c : BitVec 8) (ch : Channel) (v : Value), s.channels[c.toNat]? = some ch →
    exec (.wrchFNUM c v) s = .next (s.setChannel c
      { ch with regs := { ch.regs with fnum := maskTo 10 v.toInt } }) ∧
    exec (.wrchLFO c v) s = .next (s.setChannel c
      { ch with regs := { ch.regs with lfo := maskTo 3 v.toInt } }) ∧
    exec (.wrchVOLUME c v) s = .next (s.setChannel c
      { ch with regs := { ch.regs with volume := maskTo 7 v.toInt } }) ∧
    exec (.wrchEXPRESSION c v) s = .next (s.setChannel c
      { ch with regs := { ch.regs with expression := maskTo 7 v.toInt } }) ∧
    exec (.wrchBO c v) s = .next (s.setChannel c
      { ch with regs := { ch.regs with bo := maskTo 2 v.toInt } }) ∧
    exec (.wrchVELOCITY c v) s = .next (s.setChannel c
      { ch with regs := { ch.regs with velocity := maskTo 7 v.toInt } })

/-- WRITE_CHANNEL BLOCK, PANPOT and CHPAN saturate. From 41_channel.md section 3; 10_state.md section 3. -/
def Obligations.SaturatingChannelWritesClamp : Prop :=
  ∀ (s : State) (c : BitVec 8) (ch : Channel) (v : Value), s.channels[c.toNat]? = some ch →
    exec (.wrchBLOCK c v) s = .next (s.setChannel c
      { ch with regs := { ch.regs with block := saturateTo 3 7 v.toInt } }) ∧
    exec (.wrchPANPOT c v) s = .next (s.setChannel c
      { ch with regs := { ch.regs with panpot := saturateTo 5 31 v.toInt } }) ∧
    exec (.wrchCHPAN c v) s = .next (s.setChannel c
      { ch with regs := { ch.regs with chpan := saturateTo 7 127 v.toInt } })

/-- WRITE_CHANNEL KON keys on, keys off, and resets a channel found off. Rule R96. -/
def Obligations.KonWriteKeysOnAndOff : Prop :=
  ∀ (s : State) (c : BitVec 8) (ch : Channel) (v : Value), s.channels[c.toNat]? = some ch →
    (v ≠ 0 → ch.regs.kon = 1 → exec (.wrchKON c v) s = .next s) ∧
    (v ≠ 0 → ch.regs.kon = 0 → exec (.wrchKON c v) s = .next (s.setChannel c
      { ch with
        regs := { ch.regs with kon := 1 }
        op0 := { ch.op0 with phase := 0, stage := .attack }
        op1 := { ch.op1 with phase := 0, stage := .attack }
        op2 := { ch.op2 with phase := 0, stage := .attack }
        op3 := { ch.op3 with phase := 0, stage := .attack } })) ∧
    (v = 0 → (∃ k, isCarrier ch.regs.alg k = true ∧ (ch.op k).stage ≠ .off) →
      exec (.wrchKON c v) s = .next (s.setChannel c
      { ch with
        regs := { ch.regs with kon := 0 }
        op0 := keyOffOp ch.op0
        op1 := keyOffOp ch.op1
        op2 := keyOffOp ch.op2
        op3 := keyOffOp ch.op3 })) ∧
    (v = 0 → (∀ k, isCarrier ch.regs.alg k = true → (ch.op k).stage = .off) →
      exec (.wrchKON c v) s = .next (s.setChannel c
      { ch with
        regs := { ch.regs with kon := 0 }
        op0 := { ch.op0 with phase := 0, stage := .off, level := .rat 0 }
        op1 := { ch.op1 with phase := 0, stage := .off, level := .rat 0 }
        op2 := { ch.op2 with phase := 0, stage := .off, level := .rat 0 }
        op3 := { ch.op3 with phase := 0, stage := .off, level := .rat 0 }
        fb1 := { prev := .rat 0, curr := .rat 0, out := .rat 0 }
        fb3 := { prev := .rat 0, curr := .rat 0, out := .rat 0 } }))

/-- WRITE_CHANNEL ALG resets the channel when the algorithm changes. Rule R99. -/
def Obligations.AlgorithmWriteResetsOnChange : Prop :=
  ∀ (s : State) (c : BitVec 8) (ch : Channel) (v : Value), s.channels[c.toNat]? = some ch →
    (maskTo 3 v.toInt = ch.regs.alg → exec (.wrchALG c v) s = .next s) ∧
    (maskTo 3 v.toInt ≠ ch.regs.alg → exec (.wrchALG c v) s = .next (s.setChannel c
      { ch with
        regs := { ch.regs with alg := maskTo 3 v.toInt }
        op0 := { ch.op0 with phase := 0, stage := .off, level := .rat 0 }
        op1 := { ch.op1 with phase := 0, stage := .off, level := .rat 0 }
        op2 := { ch.op2 with phase := 0, stage := .off, level := .rat 0 }
        op3 := { ch.op3 with phase := 0, stage := .off, level := .rat 0 }
        fb1 := { prev := .rat 0, curr := .rat 0, out := .rat 0 }
        fb3 := { prev := .rat 0, curr := .rat 0, out := .rat 0 } }))

/-- WRITE_OPERATOR EAM, EVB, KSR, XOF, DAM, DVB and KSL mask. From 40_operator.md section 6; 10_state.md section 4.
The width of DAM, DVB, KSL and KSR rests on log 13 (PRESUMED: the spec takes these widths from general knowledge). -/
def Obligations.OneAndTwoBitOperatorWritesMask : Prop :=
  ∀ (s : State) (c : BitVec 8) (k : Fin 4) (ch : Channel) (v : Value), s.channels[c.toNat]? = some ch →
    exec (.wropEAM c k v) s = .next (s.setChannel c
      (ch.setOp k { ch.op k with regs := { (ch.op k).regs with eam := maskTo 1 v.toInt } })) ∧
    exec (.wropEVB c k v) s = .next (s.setChannel c
      (ch.setOp k { ch.op k with regs := { (ch.op k).regs with evb := maskTo 1 v.toInt } })) ∧
    exec (.wropKSR c k v) s = .next (s.setChannel c
      (ch.setOp k { ch.op k with regs := { (ch.op k).regs with ksr := maskTo 1 v.toInt } })) ∧
    exec (.wropXOF c k v) s = .next (s.setChannel c
      (ch.setOp k { ch.op k with regs := { (ch.op k).regs with xof := maskTo 1 v.toInt } })) ∧
    exec (.wropDAM c k v) s = .next (s.setChannel c
      (ch.setOp k { ch.op k with regs := { (ch.op k).regs with dam := maskTo 2 v.toInt } })) ∧
    exec (.wropDVB c k v) s = .next (s.setChannel c
      (ch.setOp k { ch.op k with regs := { (ch.op k).regs with dvb := maskTo 2 v.toInt } })) ∧
    exec (.wropKSL c k v) s = .next (s.setChannel c
      (ch.setOp k { ch.op k with regs := { (ch.op k).regs with ksl := maskTo 2 v.toInt } }))

/-- WRITE_OPERATOR DT, WS, FB and TL mask. From 40_operator.md section 6; 10_state.md section 4. The width of DT and
FB rests on log 13 (PRESUMED: the spec takes these widths from general knowledge). -/
def Obligations.ThreeAndSixBitOperatorWritesMask : Prop :=
  ∀ (s : State) (c : BitVec 8) (k : Fin 4) (ch : Channel) (v : Value), s.channels[c.toNat]? = some ch →
    exec (.wropDT c k v) s = .next (s.setChannel c
      (ch.setOp k { ch.op k with regs := { (ch.op k).regs with dt := maskTo 3 v.toInt } })) ∧
    exec (.wropWS c k v) s = .next (s.setChannel c
      (ch.setOp k { ch.op k with regs := { (ch.op k).regs with ws := maskTo 3 v.toInt } })) ∧
    exec (.wropFB c k v) s = .next (s.setChannel c
      (ch.setOp k { ch.op k with regs := { (ch.op k).regs with fb := maskTo 3 v.toInt } })) ∧
    exec (.wropTL c k v) s = .next (s.setChannel c
      (ch.setOp k { ch.op k with regs := { (ch.op k).regs with tl := maskTo 6 v.toInt } }))

/-- WRITE_OPERATOR MULT, AR, DR, SL, SR and RR mask. From 40_operator.md section 6; 10_state.md section 4. The width
of MULT, SL and SR rests on log 13 (PRESUMED: the spec takes these widths from general knowledge). -/
def Obligations.FourBitOperatorWritesMask : Prop :=
  ∀ (s : State) (c : BitVec 8) (k : Fin 4) (ch : Channel) (v : Value), s.channels[c.toNat]? = some ch →
    exec (.wropMULT c k v) s = .next (s.setChannel c
      (ch.setOp k { ch.op k with regs := { (ch.op k).regs with mult := maskTo 4 v.toInt } })) ∧
    exec (.wropAR c k v) s = .next (s.setChannel c
      (ch.setOp k { ch.op k with regs := { (ch.op k).regs with ar := maskTo 4 v.toInt } })) ∧
    exec (.wropDR c k v) s = .next (s.setChannel c
      (ch.setOp k { ch.op k with regs := { (ch.op k).regs with dr := maskTo 4 v.toInt } })) ∧
    exec (.wropSL c k v) s = .next (s.setChannel c
      (ch.setOp k { ch.op k with regs := { (ch.op k).regs with sl := maskTo 4 v.toInt } })) ∧
    exec (.wropSR c k v) s = .next (s.setChannel c
      (ch.setOp k { ch.op k with regs := { (ch.op k).regs with sr := maskTo 4 v.toInt } })) ∧
    exec (.wropRR c k v) s = .next (s.setChannel c
      (ch.setOp k { ch.op k with regs := { (ch.op k).regs with rr := maskTo 4 v.toInt } }))

/-- WRITE_TL stores the carrier or the modulator TL by the algorithm in force. Rule R108. -/
def Obligations.WriteTlStoresByCarrierRole : Prop :=
  (∀ (s : State) (c : BitVec 8) (k : Fin 4) (ch : Channel) (ctl mtl : BitVec 16), s.channels[c.toNat]? = some ch →
    (isCarrier ch.regs.alg k = true → exec (.wrtl c k ctl mtl) s = .next (s.setChannel c
      (ch.setOp k { ch.op k with regs := { (ch.op k).regs with tl := maskTo 6 ctl.toInt } }))) ∧
    (isCarrier ch.regs.alg k = false → exec (.wrtl c k ctl mtl) s = .next (s.setChannel c
      (ch.setOp k { ch.op k with regs := { (ch.op k).regs with tl := maskTo 6 mtl.toInt } })))) ∧
  (∀ (s t : State) (c : BitVec 8) (v : Value) (j : Nat) (ch ch' : Channel), exec (.wrchALG c v) s = .next t →
    s.channels[j]? = some ch → t.channels[j]? = some ch' → ∀ k, (ch'.op k).regs.tl = (ch.op k).regs.tl) ∧
  (∀ k, isCarrier 2 k = true) ∧ (∀ k, isCarrier 3 k = true ↔ k = 3) ∧ (∀ k, isCarrier 4 k = true ↔ k = 3) ∧
  (∀ w : Word, kindField w = 3 → regField w ≠ 0 → ∃ e, decodeWord w = .error e) ∧
  decodeWord 0x3002400000100020 = .ok (.wrtl 2 1 0x10 0x20) ∧
  decodeWord 0x3002000000100020 = .ok (.wrtl 2 0 0x10 0x20)

/-- No register write but KON and ALG changes hidden state. From 40_operator.md section 4; 20_memory.md section 2. -/
def Obligations.PlainWritesKeepHiddenState : Prop :=
  ∀ (s t : State) (i : Instr) (c : BitVec 8) (k : Fin 4) (v : Value) (ctl mtl : BitVec 16),
    (i ∈ operatorWrites c k v ∨ i ∈ plainChannelWrites c v ∨ i = .wrtl c k ctl mtl) → exec i s = .next t →
    t.frames = s.frames ∧ t.pending = s.pending ∧ t.channels.length = s.channels.length ∧
    ∀ (j : Nat) (ch ch' : Channel), s.channels[j]? = some ch → t.channels[j]? = some ch' →
      SameHidden ch' ch ∧ (j ≠ c.toNat → ch' = ch)

/-- A WRITE_OPERATOR reaches only the registers of the operator named. From 20_memory.md section 1; 40_operator.md
section 6. -/
def Obligations.OperatorWritesReachOneOperator : Prop :=
  ∀ (s t : State) (i : Instr) (c : BitVec 8) (k : Fin 4) (v : Value) (ch ch' : Channel),
    i ∈ operatorWrites c k v → exec i s = .next t →
    s.channels[c.toNat]? = some ch → t.channels[c.toNat]? = some ch' →
    ch' = ch.setOp k { ch.op k with regs := (ch'.op k).regs } ∧
    (∀ j, j ≠ k → ch'.op j = ch.op j) ∧
    (∀ j : Nat, j ≠ c.toNat → t.channels[j]? = s.channels[j]?) ∧ t.frames = s.frames ∧ t.pending = s.pending

/-- Only WRITE_CHANNEL KON changes a KON register. Rule R12. -/
def Obligations.OnlyKonWriteChangesKon : Prop :=
  (∀ (i : Instr) (s t : State), (∀ c v, i ≠ .wrchKON c v) → exec i s = .next t →
    ∀ (j : Nat) (ch ch' : Channel), s.channels[j]? = some ch → t.channels[j]? = some ch' →
      ch'.regs.kon = ch.regs.kon) ∧
  (∀ (c : BitVec 8) (v : Value) (s t : State) (ch' : Channel), exec (.wrchKON c v) s = .next t →
    t.channels[c.toNat]? = some ch' → ch'.regs.kon = if v = 0 then 0 else 1)

/-- Repeating a command other than NEXT changes nothing more. From 20_memory.md section 2. -/
def Obligations.RegisterWritesAreIdempotent : Prop :=
  ∀ (i : Instr) (s t : State), i ≠ .next → exec i s = .next t → exec i t = .next t

/-- NEXT ticks every channel and appends the sum of their frames. From 42_chip.md; 41_channel.md section 1. -/
def Obligations.NextAdvancesEveryChannelAndEmitsTheSum : Prop :=
  ∀ s : State, exec .next s = .next
    { s with
      channels := s.channels.map (fun ch => (chNext chip ch).1)
      frames := s.frames ++ [
        { left := s.channels.foldl (fun a ch => addS chip a (chNext chip ch).2.left) (.rat 0)
          right := s.channels.foldl (fun a ch => addS chip a (chNext chip ch).2.right) (.rat 0) }] }

/-- NEXT writes no register. From 41_channel.md section 1; 42_chip.md. -/
def Obligations.NextWritesNoRegister : Prop :=
  ∀ (s t : State), exec .next s = .next t → t.channels.length = s.channels.length ∧ t.pending = s.pending ∧
    ∀ (j : Nat) (ch ch' : Channel), s.channels[j]? = some ch → t.channels[j]? = some ch' →
      ch'.regs = ch.regs ∧ ∀ k, (ch'.op k).regs = (ch.op k).regs

/-- A channel after any command depends only on that channel before it. From 60_exceptions.md section 3; 42_chip.md.
-/
def Obligations.ChannelsDoNotInteract : Prop :=
  ∀ (i : Instr) (s s' t t' : State) (j : Nat), s.channels[j]? = s'.channels[j]? →
    exec i s = .next t → exec i s' = .next t' → t.channels[j]? = t'.channels[j]?

/-- The LFO phase advances on every NEXT and by nothing else. Rule R82. -/
def Obligations.LfoAdvancesOnEveryTickOnly : Prop :=
  (∀ (s t : State), exec .next s = .next t → ∀ (j : Nat) (ch ch' : Channel), s.channels[j]? = some ch →
    t.channels[j]? = some ch' → ch'.lfoPhase = ch.lfoPhase + chip.lfoInc ch.regs.lfo) ∧
  (∀ (i : Instr) (s t : State), i ≠ .next → exec i s = .next t → ∀ (j : Nat) (ch ch' : Channel),
    s.channels[j]? = some ch → t.channels[j]? = some ch' → ch'.lfoPhase = ch.lfoPhase) ∧
  (∀ (c : Config) (ch : Channel), LegalConfig c →
    modIndex c (lfoStep c ch) = (ch.lfoPhase + c.lfoInc ch.regs.lfo).toNat / 2 ^ (64 - c.lfoBits) ∧
    modIndex c (lfoStep c ch) < 2 ^ c.lfoBits)

/-- A channel whose carriers are all Off returns (0, 0) and only its LFO moves. Rule R83. -/
def Obligations.SilentChannelExitsEarly : Prop :=
  ∀ (c : Config) (ch : Channel), (∀ k, isCarrier ch.regs.alg k = true → (ch.op k).stage = .off) →
    chNext c ch = ({ ch with lfoPhase := ch.lfoPhase + c.lfoInc ch.regs.lfo }, { left := .rat 0, right := .rat 0 })

/-- With every channel's carriers Off, NEXT emits exactly (0, 0). From 42_chip.md; 95_test_vectors.md section 1.1. -/
def Obligations.AllCarriersOffGivesZeroFrame : Prop :=
  ∀ s : State, (∀ ch ∈ s.channels, ch.isOff = true) →
    exec .next s = .next { s with channels := s.channels.map (lfoStep chip), frames := s.frames ++ [⟨.rat 0, .rat 0⟩] }

/-- With every operator Off, every step but a key-on keeps it so and emits only (0, 0). From 70_reset_and_hazards.md
section 1. -/
def Obligations.SilenceLastsUntilKeyOn : Prop :=
  ∀ s t : State, s.AllOff → step s = .next t →
    (∀ (w : Word) (rest : List Word) (i : Instr), s.pending = w :: rest → decodeWord w = .ok i → keysOn i = false) →
    t.AllOff ∧ (t.frames = s.frames ∨ t.frames = s.frames ++ [⟨.rat 0, .rat 0⟩])

/-- From construction every NEXT returns (0, 0) until a channel is keyed on. Rule R131. -/
def Obligations.ConstructionIsSilentUntilKeyOn : Prop :=
  (∀ n : Nat, ∀ ch ∈ (State.construct n).channels, ch.isOff = true) ∧
  ∀ (n : Nat) (ws : List Word) (t : State),
    (∀ w ∈ ws, ∀ i, decodeWord w = .ok i → keysOn i = false) → runWords ws (State.construct n) = .next t →
    t.AllOff ∧ t.frames = List.replicate (ws.countP fun w => w == encode .next) ⟨.rat 0, .rat 0⟩

/-- Only NEXT appends to the output stream, one frame; what a run shows. From 20_memory.md section 1;
70_reset_and_hazards.md section 5. -/
def Obligations.OutputStreamOnlyGrows : Prop :=
  (∀ (i : Instr) (s t : State), exec i s = .next t →
    (i = .next → ∃ f, t.frames = s.frames ++ [f]) ∧ (i ≠ .next → t.frames = s.frames)) ∧
  (∀ (ws : List Word) (s : State) (o : Observation), observe ws s = some o →
    runWords ws s = .next o.final ∧ o.final.frames = s.frames ++ o.frames ∧
    o.frames.length = (ws.countP fun w => w == encode .next) ∧ o.chOff = o.final.channels.map Channel.isOff) ∧
  ∀ (ws : List Word) (s : State), observe ws s = none ↔
    ∃ w ∈ ws, ∀ i, decodeWord w = .ok i → ¬ i.WellFormed s.channels.length

/-- Every step keeps levels in [0, 1], Off at level 0, and a legal channel count. From 10_state.md section 5;
00_scope.md section 4. -/
def Obligations.EnvelopeInvariantKeptByEveryStep : Prop :=
  ∀ s t : State, s.Inv chip → step s = .next t → t.Inv chip

/-- The envelope invariant holds at construction. From 70_reset_and_hazards.md section 1; 10_state.md section 5. -/
def Obligations.EnvelopeInvariantAtConstruction : Prop :=
  ∀ c : Config, State.reset.Inv c ∧ ∀ n, 1 ≤ n → n ≤ 256 → (State.construct n).Inv c

/-- Every step keeps every level a value of the chip's arithmetic (log 3). From 00_scope.md section 4; 40_operator.md
section 2. -/
def Obligations.LevelsStayRepresentable : Prop :=
  (∀ n, (State.construct n).Representable chip) ∧
  ∀ s t : State, s.Representable chip → step s = .next t → t.Representable chip

/-- Within one stage a level never falls in Attack and never rises elsewhere; no step enters Damp. From 10_state.md
section 5; 95_test_vectors.md section 1.1; 40_operator.md section 2. That nothing enters Damp is the spec's own
decision (R56, D25; log 14). -/
def Obligations.LevelIsMonotonicWithinAStageAndDampIsNotEntered : Prop :=
  (∀ s t : State, s.Inv chip → s.Representable chip → step s = .next t →
      ∀ (j : Nat) (ch ch' : Channel) (k : Fin 4), s.channels[j]? = some ch → t.channels[j]? = some ch' →
        (ch'.op k).stage = (ch.op k).stage →
        ((ch.op k).stage = .attack → valueS chip (ch.op k).level ≤ valueS chip (ch'.op k).level) ∧
        ((ch.op k).stage ≠ .attack → valueS chip (ch'.op k).level ≤ valueS chip (ch.op k).level)) ∧
  ∀ s t : State, step s = .next t → ∀ (j : Nat) (ch ch' : Channel) (k : Fin 4), s.channels[j]? = some ch →
    t.channels[j]? = some ch' → (ch'.op k).stage = .damp → (ch.op k).stage = .damp

/-- Construction gives the reset state of every channel (values the spec marks as its own choice, log 6). From
70_reset_and_hazards.md section 1; 00_scope.md section 4. -/
def Obligations.ConstructionGivesResetState : Prop :=
  State.reset = State.construct 16 ∧
  ∀ n : Nat, (State.construct n).channels.length = n ∧ (State.construct n).frames = [] ∧
    (State.construct n).pending = [] ∧ (State.construct n).chOff = List.replicate n true ∧
    ∀ ch ∈ (State.construct n).channels,
      ch.regs = { kon := 0, block := 0, fnum := 0, alg := 0, lfo := 0, panpot := 0, chpan := 0, volume := 0,
                  expression := 0, bo := 0, velocity := 0 } ∧
      ch.fb1 = ⟨.rat 0, .rat 0, .rat 0⟩ ∧ ch.fb3 = ⟨.rat 0, .rat 0, .rat 0⟩ ∧ ch.lfoPhase = 0 ∧
      ∀ k, (ch.op k).phase = 0 ∧ (ch.op k).stage = .off ∧ (ch.op k).level = .rat 0 ∧
        (ch.op k).regs = { eam := 0, evb := 0, dam := 0, dvb := 0, dt := 0, ksl := 0, ksr := 0, ws := 0, mult := 0,
                           fb := 0, ar := 0, dr := 0, sl := 0, sr := 0, rr := 0, tl := 0, xof := 0 }

/-- The carrier set of each of the eight algorithms. Rule R20. -/
def Obligations.CarrierSetsOfTheAlgorithms : Prop :=
  carriers 0 = [1] ∧ carriers 1 = [0, 1] ∧ carriers 2 = [0, 1, 2, 3] ∧ carriers 3 = [3] ∧ carriers 4 = [3] ∧
  carriers 5 = [1, 3] ∧ carriers 6 = [0, 3] ∧ carriers 7 = [0, 2, 3] ∧
  ∀ (a : BitVec 3) (k : Fin 4), isCarrier a k = true ↔ k ∈ carriers a

/-- isOff holds when every carrier is Off; modulator stages do not enter. Rule R22. -/
def Obligations.IsOffReadsTheCarrierStagesOnly : Prop :=
  (∀ ch : Channel, ch.isOff = true ↔ ∀ k, isCarrier ch.regs.alg k = true → (ch.op k).stage = .off) ∧
  ∀ a b : Channel, a.regs.alg = b.regs.alg →
    (∀ k, isCarrier a.regs.alg k = true → (a.op k).stage = (b.op k).stage) → a.isOff = b.isOff

/-- Key-off puts an operator in Release, unless it is Off. Rule R63. -/
def Obligations.KeyOffOfAnOperator : Prop :=
  ∀ o : Operator, (o.stage = .off → keyOffOp o = o) ∧ (o.stage ≠ .off → keyOffOp o = { o with stage := .release })

/-- ChReset zeroes the feedback lines and resets the operators, and nothing else. Rule R95. -/
def Obligations.ChannelResetZeroesHiddenStateOnly : Prop :=
  ∀ ch : Channel, (chReset ch).fb1 = ⟨.rat 0, .rat 0, .rat 0⟩ ∧ (chReset ch).fb3 = ⟨.rat 0, .rat 0, .rat 0⟩ ∧
    (∀ k, (chReset ch).op k = { ch.op k with phase := 0, stage := .off, level := .rat 0 }) ∧
    (chReset ch).regs = ch.regs ∧ (chReset ch).lfoPhase = ch.lfoPhase ∧ (chReset ch).isOff = true

/-- The pan index is CHPAN + (PANPOT − 15)·4 clamped to 0..127. Rule R28. -/
def Obligations.PanIndexSaturates : Prop :=
  ∀ r : ChannelRegs,
    panIndexInt r = clamp ((r.chpan.toNat : Int) + ((r.panpot.toNat : Int) - 15) * 4) 0 127 ∧
    0 ≤ panIndexInt r ∧ panIndexInt r ≤ 127 ∧ ((panIndex r).toNat : Int) = panIndexInt r ∧
    (r.panpot = 15 → panIndex r = r.chpan)

/-- The feedback coefficient is FB_COEF[FB], and 0 when FB = 0. From 10_state.md section 7; 00_scope.md section 4.
That the entry is rounded when read under binary64 is the model's reading of binary64 (log 4, DEDUCED). -/
def Obligations.FeedbackCoefficientIsZeroAtFbZero : Prop :=
  ∀ (c : Config) (o : OperatorRegs), LegalConfig c → fbCoefOf c o = roundS c (c.fbCoef o.fb) ∧
    (c.sampleArith = .ideal → fbCoefOf c o = c.fbCoef o.fb) ∧ (o.fb = 0 → fbCoefOf c o = .rat 0)

/-- The feedback blend coefficients, their sum 1 under ideal arithmetic, and a rate that rounds to 0. From 10_state.md
section 7; 00_scope.md section 4; 41_channel.md section 1. That REF_RATE, SAMPLE_RATE and each operation are rounded
under binary64, in the order written, is the model's reading of binary64 (log 4, DEDUCED). The quotient by a
SAMPLE_RATE that binary64 rounds to 0 is a free value bound by the corner cases of R57 and R93 (log 19, DESIGN
CHOICE). -/
def Obligations.BlendCoefficientsSumToOne : Prop :=
  ∀ c : Config, LegalConfig c →
    blendCurr c = minS c (.rat 1) (divRate c (exactS c .mul (.rat (1 / 2)) c.refRate)
      (mulS c (.rat (1 / 2)) (roundS c c.refRate))) ∧
    (∀ x a : Sample, divRate c x a = roundS c (if valueS c (roundS c c.sampleRate) = 0 then c.divByZero x
      else exactS c .div a (roundS c c.sampleRate))) ∧
    blendPrev c = subS c (.rat 1) (blendCurr c) ∧
    (c.sampleArith = .ideal →
      valueS c (blendCurr c) = min 1 (1 / 2 * valueS c c.refRate / valueS c c.sampleRate) ∧
      valueS c (blendPrev c) = 1 - valueS c (blendCurr c) ∧
      valueS c (blendCurr c) + valueS c (blendPrev c) = 1) ∧
    (valueS c (roundS c c.sampleRate) = 0 →
      (2 * valueS c c.sampleRate ≤ valueS c c.refRate → valueS c (blendCurr c) = 1) ∧
      (valueS c c.sampleRate = valueS c c.refRate → valueS c (blendCurr c) = 1 / 2))

/-- The base increment is the floor of the formula, saturated at 2^64 − 1; a zero FNUM freezes the phase. From
10_state.md section 7; 40_operator.md section 3. The quotient by a SAMPLE_RATE that binary64 rounds to 0 is a free
value bound by the corner cases of R57 and R93 (log 19, DESIGN CHOICE). -/
def Obligations.IncrementIsTheSaturatedFloor : Prop :=
  ∀ (c : Config) (r : ChannelRegs) (m : BitVec 4), LegalConfig c →
    incOf c r m ≤ 2 ^ 64 - 1 ∧
    (r.fnum = 0 ∨ valueS c (c.multFactor m) = 0 → incOf c r m = 0 ∧
      ∀ (mi : Nat) (x : Sample) (o : Operator), o.regs.mult = m → c.dtTerm o.regs.dt r.block r.fnum = 0 →
        o.regs.evb = 0 → (opNext c r mi x o).1.phase = o.phase) ∧
    (c.sampleArith = .ideal → (incOf c r m : Int) = min (2 ^ 64 - 1)
      ⌊(r.fnum.toNat : Real) * (2 : Real) ^ ((r.block.toNat : Int) + (r.bo.toNat : Int) - c.phaseRef) *
        valueS c (c.multFactor m) * valueS c c.phaseConst / valueS c c.sampleRate⌋)

/-- A tick advances each operator its algorithm names once: envelope step, then phase modulo 2^64. From 40_operator.md
section 3; 40_operator.md section 1; 41_channel.md section 1. -/
def Obligations.TickAdvancesEachEvaluatedOperatorOnce : Prop :=
  (∀ (c : Config) (r : ChannelRegs) (mi : Nat) (m : Sample) (o : Operator),
    (((opNext c r mi m o).1.phase.toNat : Int) = ((o.phase.toNat : Int) + max 0 ((incOf c r o.regs.mult : Int) +
        c.dtTerm o.regs.dt r.block r.fnum +
        (if o.regs.evb = 1 then c.vibTerm (incOf c r o.regs.mult) mi o.regs.dvb else 0))) % 2 ^ 64) ∧
    (opNext c r mi m o).1.regs = o.regs ∧
    (opNext c r mi m o).1.stage = (egStep c r o).stage ∧ (opNext c r mi m o).1.level = (egStep c r o).level ∧
    (∀ (mi' : Nat) (m' : Sample), (opNext c r mi m o).1.stage = (opNext c r mi' m' o).1.stage ∧
      (opNext c r mi m o).1.level = (opNext c r mi' m' o).1.level)) ∧
  ∀ (c : Config) (ch : Channel) (k : Fin 4),
    let moved := lfoStep c ch
    let mi := modIndex c moved
    let after := (chNext c ch).1.op k
    (ch.isOff = true → after = ch.op k) ∧
    (ch.isOff = false → after = (route c mi moved).ch.op k ∧
      (k = 0 ∨ k = 1 ∨ (ch.regs.alg ≠ 0 ∧ ch.regs.alg ≠ 1) → ∀ m : Sample,
        after = (opNext c ch.regs mi m (ch.op k)).1) ∧
      (k = 2 ∨ k = 3 → ch.regs.alg = 0 ∨ ch.regs.alg = 1 → after = ch.op k))

/-- The phase offset is trunc(m·2^64) modulo 2^64: an input of 1 is a whole period. From 40_operator.md section 3. -/
def Obligations.PhaseOffsetWrapsAtWholePeriods : Prop :=
  ∀ c : Config, LegalConfig c → c.sampleArith = .ideal → ∀ m m' : Sample,
    (0 ≤ valueS c m → ((phaseOffset c m).toNat : Int) = ⌊valueS c m * 2 ^ 64⌋ % 2 ^ 64) ∧
    (valueS c m ≤ 0 → ((phaseOffset c m).toNat : Int) = ⌈valueS c m * 2 ^ 64⌉ % 2 ^ 64) ∧
    (0 ≤ valueS c m → valueS c m' = valueS c m + 1 → phaseOffset c m' = phaseOffset c m) ∧
    (valueS c m ≤ 0 → valueS c m' = valueS c m - 1 → phaseOffset c m' = phaseOffset c m) ∧
    (|valueS c m| < 1 / 2 ^ 64 → phaseOffset c m = 0) ∧
    (valueS c m = 1 / 4 → phaseOffset c m = 0x4000000000000000) ∧
    (valueS c m = -1 / 4 → phaseOffset c m = 0xC000000000000000)

/-- The waveform index is the top W bits of the effective phase, and every index is reached. From 40_operator.md
section 3. -/
def Obligations.WaveIndexIsTheTopBits : Prop :=
  ∀ c : Config, LegalConfig c →
    (∀ pe : BitVec 64, waveIndex c pe = pe.toNat / 2 ^ (64 - c.waveBits) ∧ waveIndex c pe < 2 ^ c.waveBits) ∧
    (∀ i, i < 2 ^ c.waveBits → ∃ pe : BitVec 64, waveIndex c pe = i)

/-- An operator's output: waveform, tremolo, level and attenuation; in [−1, 1], and 0 in stage Off. From
40_operator.md section 1; 40_operator.md section 3; 10_state.md section 7; 00_scope.md section 4. That table entries
and each product are rounded under binary64, in the order written, is the model's reading of binary64 (log 4,
DEDUCED). -/
def Obligations.OperatorOutputIsWaveTimesAmplitude : Prop :=
  ∀ (c : Config) (r : ChannelRegs) (mi : Nat) (m : Sample) (o : Operator), LegalConfig c →
    let o' := (opNext c r mi m o).1
    let out := (opNext c r mi m o).2
    let wave := c.waveTable o.regs.ws (waveIndex c (o'.phase + phaseOffset c m))
    let trem := c.tremTerm mi o.regs.dam
    let ksl := c.kslCoef o.regs.ksl r.block r.fnum
    let tl := c.tlCoef o.regs.tl
    out = mulS c (if o.regs.eam = 1 then mulS c (roundS c wave) (roundS c trem) else roundS c wave)
      (mulS c o'.level (mulS c (roundS c ksl) (roundS c tl))) ∧
    (c.sampleArith = .ideal → valueS c out =
      valueS c wave * (if o.regs.eam = 1 then valueS c trem else 1) *
        (valueS c o'.level * (valueS c ksl * valueS c tl))) ∧
    (o.Good c → -1 ≤ valueS c out ∧ valueS c out ≤ 1 ∧
      (o.stage = .off → out = .rat 0 ∧
        o' = { o with phase := o.phase + BitVec.ofInt 64 (phaseDelta c r mi o.regs) }))

/-- The envelope step in each of the six stages, under the linear law and under every law. From 40_operator.md section
2; 10_state.md section 7. That the sum, the difference and SL_LEVEL[SL] are rounded under binary64 is the model's
reading of binary64 (log 4, DEDUCED). That R55's corner cases bind every law is read from R55 (log 24, DEDUCED).
RateIsTheCaseTable says what the rate is. -/
def Obligations.EnvelopeStepInEachStage : Prop :=
  ∀ (c : Config) (r : ChannelRegs) (o : Operator), LegalConfig c →
    let o' := egStep c r o
    let l := valueS c o.level
    let l' := valueS c o'.level
    let rate := valueS c (rateOf c r o)
    let up := valueS c (addS c o.level (rateOf c r o))
    let down := valueS c (subS c o.level (rateOf c r o))
    let t := valueS c (roundS c (c.slLevel o.regs.sl))
    o'.regs = o.regs ∧ o'.phase = o.phase ∧
    (o.stage = .off → o' = o) ∧
    (o.stage = .decay → l ≤ t → o' = { o with stage := .sustain }) ∧
    (o.stage = .sustain → o'.stage = .sustain ∧ (o.regs.xof = 0 → o' = o)) ∧
    (c.egStep = .linear →
      (o.stage = .attack → l' = min 1 up ∧
        (1 ≤ up → o'.stage = .decay) ∧ (up < 1 → o'.stage = .attack)) ∧
      (o.stage = .decay → t < l → l' = max t down ∧
        (down ≤ t → o'.stage = .sustain) ∧ (t < down → o'.stage = .decay)) ∧
      (o.stage = .sustain → o.regs.xof = 1 → l' = max 0 down) ∧
      (o.stage = .release ∨ o.stage = .damp → l' = max 0 down ∧
        (down ≤ 0 → o'.stage = .off) ∧ (0 < down → o'.stage = o.stage))) ∧
    (c.sampleArith = .ideal → up = l + rate ∧ down = l - rate ∧ t = valueS c (c.slLevel o.regs.sl)) ∧
    (o.stage = .attack → (o'.stage = .decay ↔ 1 ≤ l') ∧ (o'.stage = .attack ↔ l' < 1)) ∧
    (o.stage = .decay → (o'.stage = .sustain ↔ l' ≤ t) ∧ (o'.stage = .decay ↔ t < l')) ∧
    (o.stage = .release ∨ o.stage = .damp → (o'.stage = .off ↔ l' ≤ 0) ∧ (o'.stage = o.stage ↔ 0 < l')) ∧
    (o.Good c → o.Representable c →
      (o.stage = .attack → l ≤ l' ∧ l' ≤ 1) ∧
      (o.stage = .decay → t < l → t ≤ l' ∧ l' ≤ l) ∧
      (o.stage = .sustain ∨ o.stage = .release ∨ o.stage = .damp → 0 ≤ l' ∧ l' ≤ l)) ∧
    (o.Good c → o.Representable c → rate = 0 → l' = l ∧
      (o.stage = .attack → l < 1 → o'.stage = .attack) ∧
      (o.stage = .decay → t < l → o'.stage = .decay) ∧
      (o.stage = .release ∨ o.stage = .damp → 0 < l → o'.stage = o.stage)) ∧
    (o.Good c → o.Representable c → 1 ≤ rate →
      (o.stage = .attack → l' = 1 ∧ o'.stage = .decay) ∧
      (o.stage = .decay → t < l → l' = t ∧ o'.stage = .sustain) ∧
      (o.stage = .sustain → o.regs.xof = 1 → l' = 0) ∧
      (o.stage = .release ∨ o.stage = .damp → l' = 0 ∧ o'.stage = .off))

/-- The eight algorithms: which operators run, with which inputs, and their sum. From 41_channel.md section 1. That
MOD_MULT, each product and each sum are rounded under binary64 is the model's reading of binary64 (log 4, DEDUCED). -/
def Obligations.AlgorithmsEvaluateTheirOperators : Prop :=
  ∀ (c : Config) (mi : Nat) (ch : Channel),
    let run := fun (k : Fin 4) (m : Sample) => opNext c ch.regs mi m (ch.op k)
    let p0 := run 0 (fbIn c ch 0)
    let M := fun x => mulS c (roundS c c.modMult) x
    (ch.regs.alg = 0 →
      let p1 := run 1 (M p0.2)
      route c mi ch = ⟨{ ch with op0 := p0.1, op1 := p1.1 }, p1.2, p0.2, .rat 0⟩) ∧
    (ch.regs.alg = 1 →
      let p1 := run 1 (.rat 0)
      route c mi ch = ⟨{ ch with op0 := p0.1, op1 := p1.1 }, addS c p0.2 p1.2, p0.2, .rat 0⟩) ∧
    (ch.regs.alg = 2 →
      let p1 := run 1 (.rat 0)
      let p2 := run 2 (fbIn c ch 2)
      let p3 := run 3 (.rat 0)
      route c mi ch = ⟨{ ch with op0 := p0.1, op1 := p1.1, op2 := p2.1, op3 := p3.1 },
        addS c (addS c (addS c p0.2 p1.2) p2.2) p3.2, p0.2, p2.2⟩) ∧
    (ch.regs.alg = 3 →
      let p1 := run 1 (.rat 0)
      let p2 := run 2 (M p1.2)
      let p3 := run 3 (addS c (M p0.2) (M p2.2))
      route c mi ch = ⟨{ ch with op0 := p0.1, op1 := p1.1, op2 := p2.1, op3 := p3.1 }, p3.2, p0.2, p2.2⟩) ∧
    (ch.regs.alg = 4 →
      let p1 := run 1 (M p0.2)
      let p2 := run 2 (M p1.2)
      let p3 := run 3 (M p2.2)
      route c mi ch = ⟨{ ch with op0 := p0.1, op1 := p1.1, op2 := p2.1, op3 := p3.1 }, p3.2, p0.2, p2.2⟩) ∧
    (ch.regs.alg = 5 →
      let p1 := run 1 (M p0.2)
      let p2 := run 2 (fbIn c ch 2)
      let p3 := run 3 (M p2.2)
      route c mi ch = ⟨{ ch with op0 := p0.1, op1 := p1.1, op2 := p2.1, op3 := p3.1 },
        addS c p1.2 p3.2, p0.2, p2.2⟩) ∧
    (ch.regs.alg = 6 →
      let p1 := run 1 (.rat 0)
      let p2 := run 2 (M p1.2)
      let p3 := run 3 (M p2.2)
      route c mi ch = ⟨{ ch with op0 := p0.1, op1 := p1.1, op2 := p2.1, op3 := p3.1 },
        addS c p0.2 p3.2, p0.2, p2.2⟩) ∧
    (ch.regs.alg = 7 →
      let p1 := run 1 (.rat 0)
      let p2 := run 2 (M p1.2)
      let p3 := run 3 (.rat 0)
      route c mi ch = ⟨{ ch with op0 := p0.1, op1 := p1.1, op2 := p2.1, op3 := p3.1 },
        addS c (addS c p0.2 p2.2) p3.2, p0.2, p2.2⟩)

/-- Under ALG 0 and 1 a tick leaves operators 2 and 3 as they were. From 41_channel.md section 1. -/
def Obligations.UnnamedOperatorsAreFrozen : Prop :=
  ∀ (s t : State) (j : Nat) (ch ch' : Channel), exec .next s = .next t → s.channels[j]? = some ch →
    t.channels[j]? = some ch' → (ch.regs.alg = 0 ∨ ch.regs.alg = 1) → ch'.op2 = ch.op2 ∧ ch'.op3 = ch.op3

/-- When and how NEXT updates the two feedback lines. From 41_channel.md section 1. That the test for 0 is on the
rounded coefficient, and that each product and sum of the blend is rounded under binary64, is the model's reading of
binary64 (log 4, DEDUCED). -/
def Obligations.FeedbackLineUpdates : Prop :=
  (∀ (c : Config) (ch : Channel), LegalConfig c →
    (valueS c (fbCoefOf c ch.op0.regs) = 0 → fbIn c ch 0 = .rat 0) ∧
    (valueS c (fbCoefOf c ch.op0.regs) ≠ 0 → fbIn c ch 0 = ch.fb1.out) ∧
    (valueS c (fbCoefOf c ch.op2.regs) = 0 → fbIn c ch 2 = .rat 0) ∧
    (valueS c (fbCoefOf c ch.op2.regs) ≠ 0 → fbIn c ch 2 = ch.fb3.out)) ∧
  (∀ (c : Config) (g o : Sample) (l : FeedbackLine), lineNext c g o l =
    ⟨l.curr, mulS c o g, addS c (mulS c l.curr (blendPrev c)) (mulS c (mulS c o g) (blendCurr c))⟩) ∧
  (∀ s : State, exec .next s = .next (tick chip s)) ∧
  ∀ (c : Config) (s : State) (j : Nat) (ch ch' : Channel), LegalConfig c → s.channels[j]? = some ch →
    (tick c s).channels[j]? = some ch' →
    let moved := lfoStep c ch
    let r := route c (modIndex c moved) moved
    let g1 := fbCoefOf c ch.op0.regs
    let g3 := fbCoefOf c ch.op2.regs
    (ch.isOff = false → valueS c g1 ≠ 0 → ch'.fb1 = lineNext c g1 r.o0 ch.fb1) ∧
    (ch.isOff = true ∨ valueS c g1 = 0 → ch'.fb1 = ch.fb1) ∧
    (ch.isOff = false → valueS c g3 ≠ 0 → (ch.regs.alg = 2 ∨ ch.regs.alg = 5) →
      ch'.fb3 = lineNext c g3 r.o2 ch.fb3) ∧
    (ch.isOff = true ∨ valueS c g3 = 0 ∨ (ch.regs.alg ≠ 2 ∧ ch.regs.alg ≠ 5) → ch'.fb3 = ch.fb3)

/-- A channel's frame is its carrier sum times attenuation times each pan gain. From 41_channel.md section 1;
10_state.md section 7. That table entries and each product are rounded under binary64, in the order written, is the
model's reading of binary64 (log 4, DEDUCED). -/
def Obligations.ChannelFrameIsAttenuatedAndPanned : Prop :=
  ∀ (c : Config) (ch : Channel), LegalConfig c → ch.isOff = false →
    let moved := lfoStep c ch
    let res := (route c (modIndex c moved) moved).res
    let att := mulS c (mulS c (roundS c (c.attVolume ch.regs.volume)) (roundS c (c.attExpression ch.regs.expression)))
      (roundS c (c.attVelocity ch.regs.velocity))
    let pan := c.panTable (panIndex ch.regs)
    (chNext c ch).2 = { left := mulS c (mulS c res att) (roundS c pan.1)
                        right := mulS c (mulS c res att) (roundS c pan.2) } ∧
    (c.sampleArith = .ideal →
      valueS c (chNext c ch).2.left = valueS c res * (valueS c (c.attVolume ch.regs.volume) *
        valueS c (c.attExpression ch.regs.expression) * valueS c (c.attVelocity ch.regs.velocity)) * valueS c pan.1 ∧
      valueS c (chNext c ch).2.right = valueS c res * (valueS c (c.attVolume ch.regs.volume) *
        valueS c (c.attExpression ch.regs.expression) * valueS c (c.attVelocity ch.regs.velocity)) * valueS c pan.2)

/-- KON 0 then KON 1 restarts a sounding channel at phase 0 from its current levels. From 70_reset_and_hazards.md
section 3. -/
def Obligations.RetriggerRestartsFromCurrentLevel : Prop :=
  ∀ (s : State) (c : BitVec 8) (v : Value) (ch : Channel), s.channels[c.toNat]? = some ch → v ≠ 0 →
    ch.isOff = false →
    execAll [.wrchKON c 0, .wrchKON c v] s = .next (s.setChannel c
      { ch with
        regs := { ch.regs with kon := 1 }
        op0 := { ch.op0 with phase := 0, stage := .attack }
        op1 := { ch.op1 with phase := 0, stage := .attack }
        op2 := { ch.op2 with phase := 0, stage := .attack }
        op3 := { ch.op3 with phase := 0, stage := .attack } })

/-- After an algorithm change a keyed channel is off and ignores a key-on. From 70_reset_and_hazards.md section 3. -/
def Obligations.KeyedChannelIsDeafAfterAlgorithmChange : Prop :=
  ∀ (s t : State) (c : BitVec 8) (a v : Value) (ch : Channel), s.channels[c.toNat]? = some ch → ch.regs.kon = 1 →
    maskTo 3 a.toInt ≠ ch.regs.alg → v ≠ 0 → exec (.wrchALG c a) s = .next t →
    exec (.wrchKON c v) t = .next t ∧
    ∃ ch', t.channels[c.toNat]? = some ch' ∧ ch'.regs.kon = 1 ∧ ch'.isOff = true ∧ ∀ k, (ch'.op k).stage = .off

/-- After kill and one tick the channel is off. From 60_exceptions.md section 4; 95_test_vectors.md section 2.2. The
pseudo-commands are host-side definitions of the model (log 18); that a rate of at least 1 releases in one tick under
every law is read from R55 and R78 (log 24, DEDUCED). -/
def Obligations.KilledChannelIsOffAfterOneTick : Prop :=
  ∀ (s : State) (c : BitVec 8) (ch : Channel), s.channels[c.toNat]? = some ch →
    ∃ t, execAll (Pseudo.expand s.channels.length (.kill c)) s = .next t ∧ t.frames = s.frames ∧
      ∀ cfg : Config, LegalConfig cfg → ch.Good cfg →
        ∃ ch', (tick cfg t).channels[c.toNat]? = some ch' ∧ ch'.isOff = true

/-- silence completes, keys off every channel, sets TL 0x3f and AR = DR = RR = 15, and changes no other register. From
70_reset_and_hazards.md section 1; 30_encoding.md section 5. That 15 is the fastest rate is the spec's own reading
(R53, ruling K2, from general knowledge); the pseudo-commands are host-side definitions of the model (log 18). -/
def Obligations.SilenceReachesEveryChannel : Prop :=
  ∀ (c : Config) (s : State), s.Inv c →
    ∃ t, execAll (Pseudo.expand s.channels.length .silence) s = .next t ∧ t.Inv c ∧
    t.frames = s.frames ∧ t.pending = s.pending ∧ t.channels.length = s.channels.length ∧
    (∀ ch ∈ t.channels, ch.Silenced) ∧
    ∀ (j : Nat) (ch ch' : Channel), s.channels[j]? = some ch → t.channels[j]? = some ch' →
      ch'.regs = { ch.regs with kon := 0 } ∧
      ∀ k, (ch'.op k).regs = { (ch.op k).regs with tl := 0x3f, ar := 15, dr := 15, rr := 15 }

/-- After silence the next frame is exactly (0, 0). From 70_reset_and_hazards.md section 1; 60_exceptions.md section
4; 95_test_vectors.md section 1.1. That a rate of at least 1 releases in one tick under every law is read from R55,
R78 and R133 (log 24, DEDUCED). -/
def Obligations.SilencedChipEmitsZeroFrame : Prop :=
  ∀ (cfg : Config) (s : State), LegalConfig cfg → s.Inv cfg →
    (∀ ch ∈ s.channels, ch.Silenced) → (tick cfg s).frames = s.frames ++ [⟨.rat 0, .rat 0⟩]

/-- The rate of an operator by its stage. From 10_state.md section 7; 00_scope.md section 4. That the table entries
and the product are rounded under binary64 is the model's reading of binary64 (log 4, DEDUCED). -/
def Obligations.RateIsTheCaseTable : Prop :=
  ∀ (c : Config) (r : ChannelRegs) (o : Operator), LegalConfig c →
    let ksrf := c.ksrFactor r.block r.fnum o.regs.ksr
    let rate := fun (s : RateKind) (v : BitVec 4) => mulS c (roundS c (c.baseRate s v)) (roundS c ksrf)
    let real := fun (s : RateKind) (v : BitVec 4) => valueS c (c.baseRate s v) * valueS c ksrf
    (o.stage = .attack → rateOf c r o = rate .attackRate o.regs.ar) ∧
    (o.stage = .decay → rateOf c r o = rate .decayRate o.regs.dr) ∧
    (o.stage = .sustain → rateOf c r o = rate .sustainRate o.regs.sr) ∧
    (o.stage = .release → rateOf c r o = rate .releaseRate o.regs.rr) ∧
    (o.stage = .damp → rateOf c r o = roundS c c.dampRate) ∧
    (o.stage = .off → rateOf c r o = .rat 0) ∧
    (c.sampleArith = .ideal → valueS c (rateOf c r o) =
      match o.stage with
      | .attack => real .attackRate o.regs.ar
      | .decay => real .decayRate o.regs.dr
      | .sustain => real .sustainRate o.regs.sr
      | .release => real .releaseRate o.regs.rr
      | .damp => valueS c c.dampRate
      | .off => 0) ∧
    0 ≤ valueS c (rateOf c r o) ∧
    (o.stage = .release → o.regs.rr = 15 → 1 ≤ valueS c (rateOf c r o)) ∧
    (∀ (s : RateKind) (v : BitVec 4), valueS c (c.baseRate s v) = 0 → rate s v = .rat 0)
end

