-- ==== Sys2Proof/Laws/Arith.lean ====
section
/-! SUPPORT. Laws of the sample arithmetic: powers of two, rounding to nearest even, and rounding to binary64 as a
monotone, odd function that fixes 0 and 1 and leaves its own results alone. -/

namespace Sys2Proof.Machine

/-! ### Powers of two -/

theorem pow2_eq_zpow (e : Int) : pow2 e = (2 : Rat) ^ e := by
  cases e with
  | ofNat n => simp [pow2]
  | negSucc n => simp [pow2, zpow_negSucc]

theorem pow2_pos (e : Int) : 0 < pow2 e := by rw [pow2_eq_zpow]; positivity

theorem pow2_ne_zero (e : Int) : pow2 e ≠ 0 := (pow2_pos e).ne'

theorem pow2_add (a b : Int) : pow2 (a + b) = pow2 a * pow2 b := by
  simp only [pow2_eq_zpow]; exact zpow_add₀ (by norm_num) a b

theorem pow2_succ (a : Int) : pow2 (a + 1) = 2 * pow2 a := by
  rw [pow2_add, mul_comm]; simp [pow2_eq_zpow]

theorem pow2_le_iff {a b : Int} : pow2 a ≤ pow2 b ↔ a ≤ b := by
  simp only [pow2_eq_zpow]; exact zpow_le_zpow_iff_right₀ (by norm_num)

theorem pow2_lt_iff {a b : Int} : pow2 a < pow2 b ↔ a < b := by
  simp only [pow2_eq_zpow]; exact zpow_lt_zpow_iff_right₀ (by norm_num)

theorem pow2_natCast (n : Nat) : pow2 n = ((2 ^ n : Nat) : Rat) := rfl

/-- A power of two is a whole multiple of a smaller one. -/
theorem pow2_eq_int_mul {a b : Int} (h : a ≤ b) : ∃ n : Int, 0 < n ∧ pow2 b = n * pow2 a := by
  refine ⟨2 ^ (b - a).toNat, by positivity, ?_⟩
  have hb : b = ((b - a).toNat : Int) + a := by omega
  conv_lhs => rw [hb, pow2_add, pow2_natCast]
  push_cast; rfl

/-! ### The binade of a number -/

theorem floorLog2_bounds {q : Rat} (hq : q ≠ 0) : pow2 (floorLog2 q) ≤ |q| ∧ |q| < pow2 (floorLog2 q + 1) := by
  have hn : q.num.natAbs ≠ 0 := by simpa using hq
  have hd : q.den ≠ 0 := q.den_nz
  have habs : |q| = (q.num.natAbs : Rat) / q.den := by
    conv_lhs => rw [← Rat.num_div_den q, abs_div]
    simp [Nat.cast_natAbs]
  have n1 : ((2 ^ Nat.log2 q.num.natAbs : Nat) : Rat) ≤ q.num.natAbs := by
    exact_mod_cast Nat.log2_self_le hn
  have n2 : (q.num.natAbs : Rat) < ((2 ^ (Nat.log2 q.num.natAbs + 1) : Nat) : Rat) := by
    exact_mod_cast Nat.lt_log2_self
  have d1 : ((2 ^ Nat.log2 q.den : Nat) : Rat) ≤ q.den := by exact_mod_cast Nat.log2_self_le hd
  have d2 : (q.den : Rat) < ((2 ^ (Nat.log2 q.den + 1) : Nat) : Rat) := by exact_mod_cast Nat.lt_log2_self
  rw [← pow2_natCast] at n1 n2 d1 d2
  have dpos : (0 : Rat) < q.den := by exact_mod_cast Nat.pos_of_ne_zero hd
  set a : Int := (Nat.log2 q.num.natAbs : Int)
  set b : Int := (Nat.log2 q.den : Int)
  have n2' : (q.num.natAbs : Rat) < pow2 (a + 1) := by simpa [a] using n2
  have d2' : (q.den : Rat) < pow2 (b + 1) := by simpa [b] using d2
  have upper : |q| < pow2 (a - b + 1) := by
    rw [habs, div_lt_iff₀ dpos]
    calc (q.num.natAbs : Rat) < pow2 (a + 1) := n2'
      _ = pow2 (a - b + 1) * pow2 b := by rw [← pow2_add]; congr 1; ring
      _ ≤ pow2 (a - b + 1) * q.den := mul_le_mul_of_nonneg_left d1 (pow2_pos _).le
  have lower : pow2 (a - b - 1) ≤ |q| := by
    rw [habs, le_div_iff₀ dpos]
    calc pow2 (a - b - 1) * q.den ≤ pow2 (a - b - 1) * pow2 (b + 1) :=
          mul_le_mul_of_nonneg_left d2'.le (pow2_pos _).le
      _ = pow2 a := by rw [← pow2_add]; congr 1; ring
      _ ≤ q.num.natAbs := n1
  unfold floorLog2
  by_cases h : pow2 (a - b) ≤ |q|
  · simp only [a, b] at h upper ⊢
    rw [if_pos h]; exact ⟨h, upper⟩
  · simp only [a, b] at h lower ⊢
    rw [if_neg h]; exact ⟨lower, by simpa using h⟩

theorem floorLog2_mono {x y : Rat} (hx : x ≠ 0) (hxy : |x| ≤ |y|) : floorLog2 x ≤ floorLog2 y := by
  have hy : y ≠ 0 := by
    rintro rfl; exact hx (by simpa using hxy)
  have h := (floorLog2_bounds hx).1.trans_lt (hxy.trans_lt (floorLog2_bounds hy).2)
  have := pow2_lt_iff.mp h
  omega

theorem floorLog2_neg (q : Rat) : floorLog2 (-q) = floorLog2 q := by simp [floorLog2]

theorem ulpExponent_neg (q : Rat) : ulpExponent (-q) = ulpExponent q := by simp [ulpExponent, floorLog2_neg]

/-! ### Rounding to the nearest integer -/

theorem nearestEven_floor (q : Rat) : q.floor ≤ nearestEven q ∧ nearestEven q ≤ q.floor + 1 := by
  simp only [nearestEven]; split_ifs <;> omega

theorem nearestEven_intCast (n : Int) : nearestEven (n : Rat) = n := by
  simp [nearestEven]

theorem nearestEven_zero : nearestEven 0 = 0 := by exact_mod_cast nearestEven_intCast 0

theorem floor_eq (q : Rat) : q.floor = ⌊q⌋ := rfl

theorem nearestEven_mono {x y : Rat} (h : x ≤ y) : nearestEven x ≤ nearestEven y := by
  have hf : x.floor ≤ y.floor := by rw [floor_eq, floor_eq]; exact Int.floor_mono h
  rcases hf.lt_or_eq with hlt | heq
  · have := (nearestEven_floor x).2; have := (nearestEven_floor y).1; omega
  · simp only [nearestEven, heq]
    split_ifs <;> first | omega | (exfalso; linarith)

theorem nearestEven_neg (q : Rat) : nearestEven (-q) = -nearestEven q := by
  by_cases hz : (q.floor : Rat) = q
  · rw [← hz, ← Int.cast_neg, nearestEven_intCast, nearestEven_intCast]
  · have h1 : (q.floor : Rat) ≤ q := Int.floor_le q
    have h2 : q < q.floor + 1 := Int.lt_floor_add_one q
    have hlt : (q.floor : Rat) < q := lt_of_le_of_ne h1 hz
    have hf : (-q).floor = -q.floor - 1 := by
      rw [floor_eq (-q), Int.floor_eq_iff]; push_cast
      constructor <;> linarith
    simp only [nearestEven, hf]
    push_cast
    split_ifs <;> first | omega | (exfalso; linarith)

theorem nearestEven_nonneg {q : Rat} (h : 0 ≤ q) : 0 ≤ nearestEven q := by
  simpa [nearestEven_zero] using nearestEven_mono h

/-! ### Rounding to binary64 -/

/-- The rounded value before the range is looked at. -/
def roundFinite (q : Rat) : Rat := (nearestEven (q / pow2 (ulpExponent q)) : Rat) * pow2 (ulpExponent q)

theorem roundBinary64_eq (inf q : Rat) : roundBinary64 inf q =
    if q = 0 then 0 else if |roundFinite q| < pow2 1024 then roundFinite q else if 0 < q then inf else -inf := rfl

theorem roundFinite_zero : roundFinite 0 = 0 := by simp [roundFinite, nearestEven_zero]

theorem roundFinite_neg (q : Rat) : roundFinite (-q) = -roundFinite q := by
  simp [roundFinite, ulpExponent_neg, neg_div, nearestEven_neg]

theorem roundFinite_nonneg {q : Rat} (h : 0 ≤ q) : 0 ≤ roundFinite q :=
  mul_nonneg (by exact_mod_cast nearestEven_nonneg (div_nonneg h (pow2_pos _).le)) (pow2_pos _).le

/-- A whole multiple of q's last place bounds q's rounded value as it bounds q. -/
theorem roundFinite_le {q : Rat} {n : Int} (h : q ≤ n * pow2 (ulpExponent q)) :
    roundFinite q ≤ n * pow2 (ulpExponent q) := by
  refine mul_le_mul_of_nonneg_right ?_ (pow2_pos _).le
  have h' : q / pow2 (ulpExponent q) ≤ (n : Rat) := by rwa [div_le_iff₀ (pow2_pos _)]
  have := nearestEven_mono h'
  rw [nearestEven_intCast] at this; exact_mod_cast this

theorem le_roundFinite {q : Rat} {n : Int} (h : n * pow2 (ulpExponent q) ≤ q) :
    n * pow2 (ulpExponent q) ≤ roundFinite q := by
  refine mul_le_mul_of_nonneg_right ?_ (pow2_pos _).le
  have h' : (n : Rat) ≤ q / pow2 (ulpExponent q) := by rwa [le_div_iff₀ (pow2_pos _)]
  have := nearestEven_mono h'
  rw [nearestEven_intCast] at this; exact_mod_cast this

theorem roundFinite_mono_pos {x y : Rat} (hx : 0 < x) (h : x ≤ y) : roundFinite x ≤ roundFinite y := by
  have hy : 0 < y := hx.trans_le h
  have hlog : floorLog2 x ≤ floorLog2 y :=
    floorLog2_mono hx.ne' (by rwa [abs_of_pos hx, abs_of_pos hy])
  have hle : ulpExponent x ≤ ulpExponent y := by unfold ulpExponent; omega
  rcases hle.lt_or_eq with hlt | heq
  · -- different last places: a power of two lies between the rounded values
    have hb : ulpExponent x ≤ floorLog2 y ∧ ulpExponent y ≤ floorLog2 y ∧ floorLog2 x + 1 ≤ floorLog2 y := by
      unfold ulpExponent at *; omega
    obtain ⟨n, -, hn⟩ := pow2_eq_int_mul hb.1
    obtain ⟨m, -, hm⟩ := pow2_eq_int_mul hb.2.1
    have hxb : x ≤ pow2 (floorLog2 y) := by
      have := (floorLog2_bounds hx.ne').2
      rw [abs_of_pos hx] at this
      exact this.le.trans (pow2_le_iff.mpr hb.2.2)
    have hyb : pow2 (floorLog2 y) ≤ y := by
      simpa [abs_of_pos hy] using (floorLog2_bounds hy.ne').1
    calc roundFinite x ≤ n * pow2 (ulpExponent x) := roundFinite_le (hn ▸ hxb)
      _ = m * pow2 (ulpExponent y) := by rw [← hn, hm]
      _ ≤ roundFinite y := le_roundFinite (hm ▸ hyb)
  · unfold roundFinite
    rw [heq]
    refine mul_le_mul_of_nonneg_right ?_ (pow2_pos _).le
    exact_mod_cast nearestEven_mono (div_le_div_of_nonneg_right h (pow2_pos _).le)

theorem roundBinary64_zero (inf : Rat) : roundBinary64 inf 0 = 0 := by simp [roundBinary64_eq]

theorem roundBinary64_neg (inf q : Rat) : roundBinary64 inf (-q) = -roundBinary64 inf q := by
  simp only [roundBinary64_eq, roundFinite_neg, abs_neg, neg_eq_zero]
  rcases lt_trichotomy q 0 with h | rfl | h
  · rw [if_neg h.ne, if_neg h.ne, if_pos (by linarith : 0 < -q), if_neg h.not_gt]
    split_ifs <;> simp
  · simp
  · rw [if_neg h.ne', if_neg h.ne', if_neg (by linarith : ¬ 0 < -q), if_pos h]
    split_ifs <;> simp

theorem roundBinary64_nonneg {inf q : Rat} (hi : pow2 1024 ≤ inf) (h : 0 ≤ q) : 0 ≤ roundBinary64 inf q := by
  have := (pow2_pos 1024).le.trans hi
  have := roundFinite_nonneg h
  rw [roundBinary64_eq]
  split_ifs with h0 _ hp
  · exact le_rfl
  · assumption
  · assumption
  · exact absurd (lt_of_le_of_ne h (Ne.symm h0)) hp

theorem roundBinary64_mono_pos {inf x y : Rat} (hi : pow2 1024 ≤ inf) (hx : 0 < x) (h : x ≤ y) :
    roundBinary64 inf x ≤ roundBinary64 inf y := by
  have hy : 0 < y := hx.trans_le h
  have hm := roundFinite_mono_pos hx h
  have ax := abs_of_nonneg (roundFinite_nonneg hx.le)
  have ay := abs_of_nonneg (roundFinite_nonneg hy.le)
  simp only [roundBinary64_eq, if_neg hx.ne', if_neg hy.ne', if_pos hx, if_pos hy, ax, ay]
  split_ifs <;> linarith

theorem roundBinary64_mono {inf x y : Rat} (hi : pow2 1024 ≤ inf) (h : x ≤ y) :
    roundBinary64 inf x ≤ roundBinary64 inf y := by
  rcases lt_or_ge 0 x with hx | hx
  · exact roundBinary64_mono_pos hi hx h
  · rcases le_or_gt 0 y with hy | hy
    · have h1 : roundBinary64 inf x ≤ 0 := by
        have := roundBinary64_nonneg (q := -x) hi (by linarith)
        rw [roundBinary64_neg] at this; linarith
      exact h1.trans (roundBinary64_nonneg hi hy)
    · have := roundBinary64_mono_pos (x := -y) (y := -x) hi (by linarith) (by linarith)
      rw [roundBinary64_neg, roundBinary64_neg] at this; linarith

/-- The rounded value is a whole multiple of its own last place. -/
theorem roundFinite_multiple {q : Rat} (hq : q ≠ 0) (hr : roundFinite q ≠ 0) :
    ∃ n : Int, roundFinite q = n * pow2 (ulpExponent (roundFinite q)) := by
  set u := ulpExponent q with hu
  set n := nearestEven (q / pow2 u) with hn
  have hrn : roundFinite q = n * pow2 u := rfl
  by_cases hle : ulpExponent (roundFinite q) ≤ u
  · obtain ⟨m, -, hm⟩ := pow2_eq_int_mul hle
    exact ⟨n * m, by push_cast; rw [mul_assoc, ← hm]; exact hrn⟩
  · -- only a carry into the next binade can do this, and then the value is that power of two
    have hbig : |q| ≤ pow2 (floorLog2 q + 1) := (floorLog2_bounds hq).2.le
    have hle1 : |roundFinite q| ≤ pow2 (max (floorLog2 q + 1) u) := by
      obtain ⟨m, -, hm⟩ := pow2_eq_int_mul (le_max_right (floorLog2 q + 1) u)
      have hqm : |q| ≤ m * pow2 u := by
        rw [← hm]; exact hbig.trans (pow2_le_iff.mpr (le_max_left _ _))
      rw [hm, abs_le]
      constructor
      · have := le_roundFinite (q := q) (n := -m) (by push_cast; have := neg_abs_le q; linarith)
        push_cast at this; linarith
      · exact roundFinite_le ((le_abs_self q).trans hqm)
    have hlog : floorLog2 (roundFinite q) ≤ max (floorLog2 q + 1) u :=
      pow2_le_iff.mp ((floorLog2_bounds hr).1.trans hle1)
    have hk : floorLog2 (roundFinite q) = floorLog2 q + 1 := by unfold ulpExponent at *; omega
    have hmax : max (floorLog2 q + 1) u = floorLog2 q + 1 := by unfold ulpExponent at *; omega
    have habs : |roundFinite q| = pow2 (floorLog2 (roundFinite q)) :=
      le_antisymm (by rw [hk, ← hmax]; exact hle1) (floorLog2_bounds hr).1
    obtain ⟨m, -, hm⟩ := pow2_eq_int_mul
      (show ulpExponent (roundFinite q) ≤ floorLog2 (roundFinite q) by unfold ulpExponent at *; omega)
    rcases abs_choice (roundFinite q) with h | h
    · exact ⟨m, by rw [← hm, ← habs, h]⟩
    · exact ⟨-m, by push_cast; rw [neg_mul, ← hm, ← habs, h, neg_neg]⟩

theorem roundFinite_of_multiple {r : Rat} {n : Int} (h : r = n * pow2 (ulpExponent r)) : roundFinite r = r := by
  have : r / pow2 (ulpExponent r) = (n : Rat) := by rw [div_eq_iff (pow2_ne_zero _)]; exact h
  rw [roundFinite, this, nearestEven_intCast]; exact h.symm

theorem roundFinite_idem (q : Rat) : roundFinite (roundFinite q) = roundFinite q := by
  by_cases hr : roundFinite q = 0
  · rw [hr]; exact roundFinite_zero
  · have hq : q ≠ 0 := by
      rintro rfl; exact hr roundFinite_zero
    obtain ⟨n, hn⟩ := roundFinite_multiple hq hr
    exact roundFinite_of_multiple hn

/-- The overflow magnitude is beyond the range, so rounding leaves it alone. -/
theorem roundBinary64_of_big {inf q : Rat} (h : pow2 1024 ≤ q) : roundBinary64 inf q = inf := by
  have hq : 0 < q := (pow2_pos _).trans_le h
  have hlog : (1024 : Int) ≤ floorLog2 q := by
    have := h.trans_lt (by simpa [abs_of_pos hq] using (floorLog2_bounds hq.ne').2)
    have := pow2_lt_iff.mp this; omega
  obtain ⟨n, -, hn⟩ := pow2_eq_int_mul (show ulpExponent q ≤ floorLog2 q by unfold ulpExponent at *; omega)
  have hge : pow2 1024 ≤ roundFinite q :=
    calc pow2 1024 ≤ pow2 (floorLog2 q) := pow2_le_iff.mpr hlog
      _ = n * pow2 (ulpExponent q) := hn
      _ ≤ roundFinite q := le_roundFinite (hn ▸ by simpa [abs_of_pos hq] using (floorLog2_bounds hq.ne').1)
  rw [roundBinary64_eq, if_neg hq.ne', if_neg (not_lt.mpr (hge.trans (le_abs_self _))), if_pos hq]

theorem roundBinary64_idem {inf : Rat} (hi : pow2 1024 ≤ inf) (q : Rat) :
    roundBinary64 inf (roundBinary64 inf q) = roundBinary64 inf q := by
  rw [roundBinary64_eq inf q]
  split_ifs with h0 hlt hp
  · exact roundBinary64_zero inf
  · rw [roundBinary64_eq, roundFinite_idem, if_pos hlt]
    split_ifs with hz
    · exact hz.symm
    · rfl
  · exact roundBinary64_of_big hi
  · rw [roundBinary64_neg, roundBinary64_of_big hi]

theorem roundBinary64_one (inf : Rat) : roundBinary64 inf 1 = 1 := by
  have h0 : floorLog2 1 = 0 := by decide +kernel
  have hf : roundFinite 1 = 1 := by
    obtain ⟨n, -, hn⟩ := pow2_eq_int_mul (show (-52 : Int) ≤ 0 by norm_num)
    have hu : ulpExponent 1 = -52 := by simp [ulpExponent, h0]
    refine roundFinite_of_multiple (n := n) ?_
    rw [hu, ← hn]; rfl
  rw [roundBinary64_eq, hf, if_neg one_ne_zero, if_pos]
  rw [abs_one]
  exact (pow2_lt_iff (a := 0) (b := 1024)).mpr (by norm_num)

/-! ### The rounding of a configuration -/

@[simp] theorem roundRat_zero (c : Config) : roundRat c 0 = 0 := by
  unfold roundRat; cases c.sampleArith <;> simp [roundBinary64_zero]

@[simp] theorem roundRat_one (c : Config) : roundRat c 1 = 1 := by
  unfold roundRat; cases c.sampleArith <;> simp [roundBinary64_one]

theorem roundRat_neg (c : Config) (q : Rat) : roundRat c (-q) = -roundRat c q := by
  unfold roundRat; cases c.sampleArith <;> simp [roundBinary64_neg]

theorem roundRat_idem {c : Config} (hi : pow2 1024 ≤ c.infinity64) (q : Rat) :
    roundRat c (roundRat c q) = roundRat c q := by
  unfold roundRat; cases c.sampleArith
  · rfl
  · exact roundBinary64_idem hi q

@[simp] theorem roundS_zero (c : Config) : roundS c (.rat 0) = .rat 0 := by simp [roundS]

@[simp] theorem roundS_one (c : Config) : roundS c (.rat 1) = .rat 1 := by simp [roundS]

theorem roundS_ideal {c : Config} (h : c.sampleArith = .ideal) (x : Sample) : roundS c x = x := by
  cases x <;> simp [roundS, roundRat, h]

@[simp] theorem addS_zero_zero (c : Config) : addS c (.rat 0) (.rat 0) = .rat 0 := by
  simp [addS, exactS, ArithOp.onRat]

end Sys2Proof.Machine
end

