-- ==== Sys2Proof/Laws/State.lean ====
section
/-! SUPPORT. What each named update of a channel or an operator does to each field. -/

namespace Sys2Proof.Machine

/-! ### Reading an operator -/

@[simp] theorem Channel.op_zero (ch : Channel) : ch.op 0 = ch.op0 := rfl
@[simp] theorem Channel.op_one (ch : Channel) : ch.op 1 = ch.op1 := rfl
@[simp] theorem Channel.op_two (ch : Channel) : ch.op 2 = ch.op2 := rfl
@[simp] theorem Channel.op_three (ch : Channel) : ch.op 3 = ch.op3 := rfl

/-- A fact about every operator index is four facts. -/
theorem forall_op {p : Fin 4 → Prop} : (∀ k, p k) ↔ p 0 ∧ p 1 ∧ p 2 ∧ p 3 :=
  ⟨fun h => ⟨h 0, h 1, h 2, h 3⟩, fun h k => by fin_cases k <;> simp_all⟩

/-! ### setOp -/

@[simp] theorem Channel.setOp_regs (ch : Channel) (k : Fin 4) (o : Operator) : (ch.setOp k o).regs = ch.regs := by
  fin_cases k <;> rfl
@[simp] theorem Channel.setOp_fb1 (ch : Channel) (k : Fin 4) (o : Operator) : (ch.setOp k o).fb1 = ch.fb1 := by
  fin_cases k <;> rfl
@[simp] theorem Channel.setOp_fb3 (ch : Channel) (k : Fin 4) (o : Operator) : (ch.setOp k o).fb3 = ch.fb3 := by
  fin_cases k <;> rfl
@[simp] theorem Channel.setOp_lfoPhase (ch : Channel) (k : Fin 4) (o : Operator) :
    (ch.setOp k o).lfoPhase = ch.lfoPhase := by
  fin_cases k <;> rfl
@[simp] theorem Channel.setOp_op_same (ch : Channel) (k : Fin 4) (o : Operator) : (ch.setOp k o).op k = o := by
  fin_cases k <;> rfl
theorem Channel.setOp_op_other (ch : Channel) {k j : Fin 4} (o : Operator) (h : j ≠ k) :
    (ch.setOp k o).op j = ch.op j := by
  fin_cases k <;> fin_cases j <;> first | rfl | exact absurd rfl h
theorem Channel.setOp_op (ch : Channel) (k j : Fin 4) (o : Operator) :
    (ch.setOp k o).op j = if j = k then o else ch.op j := by
  fin_cases k <;> fin_cases j <;> rfl
@[simp] theorem Channel.setOp_setOp (ch : Channel) (k : Fin 4) (o o' : Operator) :
    (ch.setOp k o).setOp k o' = ch.setOp k o' := by
  fin_cases k <;> rfl
@[simp] theorem Channel.setOp_self (ch : Channel) (k : Fin 4) : ch.setOp k (ch.op k) = ch := by
  fin_cases k <;> rfl

/-! ### mapOps, setKonBit -/

@[simp] theorem Channel.mapOps_regs (ch : Channel) (f : Operator → Operator) : (ch.mapOps f).regs = ch.regs := rfl
@[simp] theorem Channel.mapOps_fb1 (ch : Channel) (f : Operator → Operator) : (ch.mapOps f).fb1 = ch.fb1 := rfl
@[simp] theorem Channel.mapOps_fb3 (ch : Channel) (f : Operator → Operator) : (ch.mapOps f).fb3 = ch.fb3 := rfl
@[simp] theorem Channel.mapOps_lfoPhase (ch : Channel) (f : Operator → Operator) :
    (ch.mapOps f).lfoPhase = ch.lfoPhase := rfl
@[simp] theorem Channel.mapOps_op (ch : Channel) (f : Operator → Operator) (k : Fin 4) :
    (ch.mapOps f).op k = f (ch.op k) := by
  fin_cases k <;> rfl

@[simp] theorem Channel.setKonBit_regs (ch : Channel) (b : BitVec 1) :
    (ch.setKonBit b).regs = { ch.regs with kon := b } := rfl
@[simp] theorem Channel.setKonBit_op (ch : Channel) (b : BitVec 1) (k : Fin 4) : (ch.setKonBit b).op k = ch.op k := by
  fin_cases k <;> rfl
@[simp] theorem Channel.setKonBit_fb1 (ch : Channel) (b : BitVec 1) : (ch.setKonBit b).fb1 = ch.fb1 := rfl
@[simp] theorem Channel.setKonBit_fb3 (ch : Channel) (b : BitVec 1) : (ch.setKonBit b).fb3 = ch.fb3 := rfl
@[simp] theorem Channel.setKonBit_lfoPhase (ch : Channel) (b : BitVec 1) :
    (ch.setKonBit b).lfoPhase = ch.lfoPhase := rfl

/-! ### Key operations and resets -/

@[simp] theorem keyOnOp_regs (o : Operator) : (keyOnOp o).regs = o.regs := rfl
@[simp] theorem keyOnOp_phase (o : Operator) : (keyOnOp o).phase = 0 := rfl
@[simp] theorem keyOnOp_stage (o : Operator) : (keyOnOp o).stage = .attack := rfl
@[simp] theorem keyOnOp_level (o : Operator) : (keyOnOp o).level = o.level := rfl

@[simp] theorem keyOffOp_regs (o : Operator) : (keyOffOp o).regs = o.regs := by unfold keyOffOp; split_ifs <;> rfl
@[simp] theorem keyOffOp_phase (o : Operator) : (keyOffOp o).phase = o.phase := by unfold keyOffOp; split_ifs <;> rfl
@[simp] theorem keyOffOp_level (o : Operator) : (keyOffOp o).level = o.level := by unfold keyOffOp; split_ifs <;> rfl
theorem keyOffOp_stage (o : Operator) : (keyOffOp o).stage = if o.stage = .off then .off else .release := by
  unfold keyOffOp; split_ifs with h <;> simp [h]
@[simp] theorem keyOffOp_stage_off (o : Operator) : (keyOffOp o).stage = .off ↔ o.stage = .off := by
  rw [keyOffOp_stage]; split_ifs with h <;> simp [h]

@[simp] theorem resetOp_regs (o : Operator) : (resetOp o).regs = o.regs := rfl
@[simp] theorem resetOp_phase (o : Operator) : (resetOp o).phase = 0 := rfl
@[simp] theorem resetOp_stage (o : Operator) : (resetOp o).stage = .off := rfl
@[simp] theorem resetOp_level (o : Operator) : (resetOp o).level = .rat 0 := rfl

@[simp] theorem chReset_regs (ch : Channel) : (chReset ch).regs = ch.regs := rfl
@[simp] theorem chReset_fb1 (ch : Channel) : (chReset ch).fb1 = FeedbackLine.zero := rfl
@[simp] theorem chReset_fb3 (ch : Channel) : (chReset ch).fb3 = FeedbackLine.zero := rfl
@[simp] theorem chReset_lfoPhase (ch : Channel) : (chReset ch).lfoPhase = ch.lfoPhase := rfl
@[simp] theorem chReset_op (ch : Channel) (k : Fin 4) : (chReset ch).op k = resetOp (ch.op k) := by
  fin_cases k <;> rfl

/-! ### Feedback lines and the LFO -/

@[simp] theorem Channel.setLine_regs (ch : Channel) (k : Fin 4) (l : FeedbackLine) : (ch.setLine k l).regs = ch.regs := by
  unfold Channel.setLine; split_ifs <;> rfl
@[simp] theorem Channel.setLine_op (ch : Channel) (k j : Fin 4) (l : FeedbackLine) :
    (ch.setLine k l).op j = ch.op j := by
  unfold Channel.setLine; split_ifs <;> (fin_cases j <;> rfl)
@[simp] theorem Channel.setLine_lfoPhase (ch : Channel) (k : Fin 4) (l : FeedbackLine) :
    (ch.setLine k l).lfoPhase = ch.lfoPhase := by
  unfold Channel.setLine; split_ifs <;> rfl

@[simp] theorem lfoStep_regs (c : Config) (ch : Channel) : (lfoStep c ch).regs = ch.regs := rfl
@[simp] theorem lfoStep_op (c : Config) (ch : Channel) (k : Fin 4) : (lfoStep c ch).op k = ch.op k := by
  fin_cases k <;> rfl
@[simp] theorem lfoStep_fb1 (c : Config) (ch : Channel) : (lfoStep c ch).fb1 = ch.fb1 := rfl
@[simp] theorem lfoStep_fb3 (c : Config) (ch : Channel) : (lfoStep c ch).fb3 = ch.fb3 := rfl
@[simp] theorem lfoStep_lfoPhase (c : Config) (ch : Channel) :
    (lfoStep c ch).lfoPhase = ch.lfoPhase + c.lfoInc ch.regs.lfo := rfl

/-! ### isOff -/

theorem Channel.isOff_iff (ch : Channel) :
    ch.isOff = true ↔ ∀ k, isCarrier ch.regs.alg k = true → (ch.op k).stage = .off := by
  simp [Channel.isOff, isCarrier]

/-- `isOff` depends on the algorithm and the stages alone. -/
theorem Channel.isOff_congr {a b : Channel} (hr : a.regs.alg = b.regs.alg)
    (hs : ∀ k, ((a.op k).stage = .off ↔ (b.op k).stage = .off)) : a.isOff = b.isOff := by
  rw [Bool.eq_iff_iff, Channel.isOff_iff, Channel.isOff_iff, hr]
  exact forall_congr' fun k => imp_congr_right fun _ => hs k

@[simp] theorem lfoStep_isOff (c : Config) (ch : Channel) : (lfoStep c ch).isOff = ch.isOff :=
  Channel.isOff_congr rfl fun k => by simp

@[simp] theorem chReset_isOff (ch : Channel) : (chReset ch).isOff = true := by
  simp [Channel.isOff_iff]

end Sys2Proof.Machine
end

