-- ==== Sys2Proof/Laws/Ops.lean ====
section
/-! SUPPORT. What a command on a channel, a command, and a step can do: one law each, cited instead of unfolding. -/

namespace Sys2Proof.Machine

/-! ### Commands on a channel -/

@[simp] theorem setChannel_channels (s : State) (c : BitVec 8) (ch : Channel) :
    (s.setChannel c ch).channels = s.channels.set c.toNat ch := rfl
@[simp] theorem setChannel_frames (s : State) (c : BitVec 8) (ch : Channel) :
    (s.setChannel c ch).frames = s.frames := rfl
@[simp] theorem setChannel_pending (s : State) (c : BitVec 8) (ch : Channel) :
    (s.setChannel c ch).pending = s.pending := rfl
@[simp] theorem setChannel_setChannel (s : State) (c : BitVec 8) (a b : Channel) :
    (s.setChannel c a).setChannel c b = s.setChannel c b := by simp [State.setChannel]

theorem setChannel_self {s : State} {c : BitVec 8} {ch : Channel} (h : s.channels[c.toNat]? = some ch) :
    s.setChannel c ch = s := by
  have : s.channels.set c.toNat ch = s.channels := by
    apply List.ext_getElem?
    intro j
    have hlt : c.toNat < s.channels.length := (List.getElem?_eq_some_iff.mp h).1
    rw [List.getElem?_set]
    split_ifs with h1
    · rw [← h1, h]
    · rfl
  simp [State.setChannel, this]

/-- The channels after a replacement: the new one at its number, every other as it was. -/
theorem setChannel_getElem? {s : State} {c : BitVec 8} {old : Channel} (h : s.channels[c.toNat]? = some old)
    (new : Channel) (j : Nat) :
    (s.setChannel c new).channels[j]? = if c.toNat = j then some new else s.channels[j]? := by
  have hlt : c.toNat < s.channels.length := (List.getElem?_eq_some_iff.mp h).1
  rw [setChannel_channels, List.getElem?_set]
  split_ifs <;> rfl

theorem onChannel_some {c : BitVec 8} {f : Channel → Channel} {s : State} {ch : Channel}
    (h : s.channels[c.toNat]? = some ch) :
    onChannel c f s = .next (s.setChannel c (f ch)) := by
  simp [onChannel, h]

theorem onChannel_none {c : BitVec 8} {f : Channel → Channel} {s : State} (h : s.channels.length ≤ c.toNat) :
    onChannel c f s = .refused (.reservedChannel c) := by
  simp [onChannel, List.getElem?_eq_none h]

/-- Everything a command on a channel can do when it answers a next state. -/
theorem onChannel_next {c : BitVec 8} {f : Channel → Channel} {s t : State} (h : onChannel c f s = .next t) :
    ∃ ch, s.channels[c.toNat]? = some ch ∧ t = s.setChannel c (f ch) := by
  unfold onChannel at h
  split at h
  · next ch hch => exact ⟨ch, hch, by cases h; rfl⟩
  · cases h

/-! ### Commands -/

/-- What a command that names a channel does to that channel; `NOP` and `NEXT` name none. -/
def channelEdit (i : Instr) (ch : Channel) : Channel :=
  match i with
  | .nop => ch
  | .next => ch
  | .wrtl _ k c m => ch.setOp k { ch.op k with regs := { (ch.op k).regs with tl := selectTL ch k c m } }
  | .wrchKON _ v => setKon v.toInt ch
  | .wrchBLOCK _ v => { ch with regs := { ch.regs with block := saturateTo 3 7 v.toInt } }
  | .wrchFNUM _ v => { ch with regs := { ch.regs with fnum := maskTo 10 v.toInt } }
  | .wrchALG _ v => setAlg v.toInt ch
  | .wrchLFO _ v => { ch with regs := { ch.regs with lfo := maskTo 3 v.toInt } }
  | .wrchPANPOT _ v => { ch with regs := { ch.regs with panpot := saturateTo 5 31 v.toInt } }
  | .wrchCHPAN _ v => { ch with regs := { ch.regs with chpan := saturateTo 7 127 v.toInt } }
  | .wrchVOLUME _ v => { ch with regs := { ch.regs with volume := maskTo 7 v.toInt } }
  | .wrchEXPRESSION _ v => { ch with regs := { ch.regs with expression := maskTo 7 v.toInt } }
  | .wrchBO _ v => { ch with regs := { ch.regs with bo := maskTo Config.boBits v.toInt } }
  | .wrchVELOCITY _ v => { ch with regs := { ch.regs with velocity := maskTo 7 v.toInt } }
  | .wropEAM _ k v => ch.setOp k { ch.op k with regs := { (ch.op k).regs with eam := maskTo 1 v.toInt } }
  | .wropEVB _ k v => ch.setOp k { ch.op k with regs := { (ch.op k).regs with evb := maskTo 1 v.toInt } }
  | .wropDAM _ k v => ch.setOp k { ch.op k with regs := { (ch.op k).regs with dam := maskTo 2 v.toInt } }
  | .wropDVB _ k v => ch.setOp k { ch.op k with regs := { (ch.op k).regs with dvb := maskTo 2 v.toInt } }
  | .wropDT _ k v => ch.setOp k { ch.op k with regs := { (ch.op k).regs with dt := maskTo 3 v.toInt } }
  | .wropKSL _ k v => ch.setOp k { ch.op k with regs := { (ch.op k).regs with ksl := maskTo 2 v.toInt } }
  | .wropKSR _ k v => ch.setOp k { ch.op k with regs := { (ch.op k).regs with ksr := maskTo 1 v.toInt } }
  | .wropWS _ k v => ch.setOp k { ch.op k with regs := { (ch.op k).regs with ws := maskTo 3 v.toInt } }
  | .wropMULT _ k v => ch.setOp k { ch.op k with regs := { (ch.op k).regs with mult := maskTo 4 v.toInt } }
  | .wropFB _ k v => ch.setOp k { ch.op k with regs := { (ch.op k).regs with fb := maskTo 3 v.toInt } }
  | .wropAR _ k v => ch.setOp k { ch.op k with regs := { (ch.op k).regs with ar := maskTo 4 v.toInt } }
  | .wropDR _ k v => ch.setOp k { ch.op k with regs := { (ch.op k).regs with dr := maskTo 4 v.toInt } }
  | .wropSL _ k v => ch.setOp k { ch.op k with regs := { (ch.op k).regs with sl := maskTo 4 v.toInt } }
  | .wropSR _ k v => ch.setOp k { ch.op k with regs := { (ch.op k).regs with sr := maskTo 4 v.toInt } }
  | .wropRR _ k v => ch.setOp k { ch.op k with regs := { (ch.op k).regs with rr := maskTo 4 v.toInt } }
  | .wropTL _ k v => ch.setOp k { ch.op k with regs := { (ch.op k).regs with tl := maskTo 6 v.toInt } }
  | .wropXOF _ k v => ch.setOp k { ch.op k with regs := { (ch.op k).regs with xof := maskTo 1 v.toInt } }

theorem exec_eq_onChannel {i : Instr} {c : BitVec 8} (h : i.channel = some c) (s : State) :
    exec i s = onChannel c (channelEdit i) s := by
  cases i <;> simp only [Instr.channel, reduceCtorEq, Option.some.injEq] at h <;> subst h <;> rfl

theorem channel_eq_none {i : Instr} (h : i.channel = none) : i = .nop ∨ i = .next := by
  cases i <;> simp_all [Instr.channel]

/-- Everything a command can do when it answers a next state. -/
theorem exec_next {i : Instr} {s t : State} (h : exec i s = .next t) :
    (i = .nop ∧ t = s) ∨ (i = .next ∧ t = tick chip s) ∨
    ∃ c ch, i.channel = some c ∧ s.channels[c.toNat]? = some ch ∧
      t = s.setChannel c (channelEdit i ch) := by
  cases hc : i.channel with
  | none =>
    rcases channel_eq_none hc with rfl | rfl
    · exact .inl ⟨rfl, by cases h; rfl⟩
    · exact .inr (.inl ⟨rfl, by cases h; rfl⟩)
  | some c =>
    rw [exec_eq_onChannel hc] at h
    obtain ⟨ch, hch, ht⟩ := onChannel_next h
    exact .inr (.inr ⟨c, ch, rfl, hch, ht⟩)

/-! ### Words and steps -/

theorem executeWord_ok {w : Word} {i : Instr} (h : decodeWord w = .ok i) (s : State) : executeWord w s = exec i s := by
  simp [executeWord, h]

theorem executeWord_error {w : Word} {e : Reserved} (h : decodeWord w = .error e) (s : State) :
    executeWord w s = .refused (.reservedWord w e) := by
  simp [executeWord, h]

theorem executeWord_next {w : Word} {s t : State} (h : executeWord w s = .next t) :
    ∃ i, decodeWord w = .ok i ∧ exec i s = .next t := by
  unfold executeWord at h
  split at h
  · next i hi => exact ⟨i, hi, h⟩
  · cases h

theorem step_nil {s : State} (h : s.pending = []) : step s = .refused .noCommand := by
  simp [step, takeCommand, h]

theorem step_cons {s : State} {w : Word} {rest : List Word} (h : s.pending = w :: rest) :
    step s = executeWord w { s with pending := rest } := by
  simp [step, takeCommand, h]

/-- Everything a step can do when it answers a next state. -/
theorem step_next {s t : State} (h : step s = .next t) :
    ∃ w rest i, s.pending = w :: rest ∧ decodeWord w = .ok i ∧ exec i { s with pending := rest } = .next t := by
  cases hp : s.pending with
  | nil => rw [step_nil hp] at h; cases h
  | cons w rest =>
    rw [step_cons hp] at h
    obtain ⟨i, hi, he⟩ := executeWord_next h
    exact ⟨w, rest, i, rfl, hi, he⟩

end Sys2Proof.Machine
end

