-- ==== Sys2Proof/Laws/Values.lean ====
section
/-! SUPPORT. What each operation on sample-domain values does to the reals they stand for, under a legal configuration. -/

namespace Sys2Proof.Machine

@[simp] theorem valueS_rat (c : Config) (q : Rat) : valueS c (.rat q) = q := rfl

theorem valueS_zero (c : Config) : valueS c (.rat 0) = 0 := by simp
theorem valueS_one (c : Config) : valueS c (.rat 1) = 1 := by simp

variable {c : Config}

/-! ### Comparisons -/

theorem leS_iff (h : LegalNames c) (a b : Sample) : leS c a b = true ↔ valueS c a ≤ valueS c b := by
  cases a <;> cases b <;> simp only [leS, h.atMost, decide_eq_true_eq, valueS_rat, Rat.cast_le]

theorem leS_false_iff (h : LegalNames c) (a b : Sample) : leS c a b = false ↔ valueS c b < valueS c a := by
  rw [← Bool.not_eq_true, leS_iff h, not_le]

theorem isZeroS_iff (h : LegalNames c) (a : Sample) : isZeroS c a = true ↔ valueS c a = 0 := by
  rw [isZeroS, Bool.and_eq_true, leS_iff h, leS_iff h, valueS_zero]
  exact le_antisymm_iff.symm

theorem valueS_minS (h : LegalNames c) (a b : Sample) : valueS c (minS c a b) = min (valueS c a) (valueS c b) := by
  unfold minS
  split_ifs with hab
  · exact (min_eq_left ((leS_iff h a b).mp hab)).symm
  · rw [Bool.not_eq_true, leS_false_iff h] at hab
    exact (min_eq_right hab.le).symm

theorem valueS_maxS (h : LegalNames c) (a b : Sample) : valueS c (maxS c a b) = max (valueS c a) (valueS c b) := by
  unfold maxS
  split_ifs with hab
  · exact (max_eq_left ((leS_iff h b a).mp hab)).symm
  · rw [Bool.not_eq_true, leS_false_iff h] at hab
    exact (max_eq_right hab.le).symm

/-! ### Exact operations and integers -/

theorem valueS_exactS (h : LegalNames c) (op : ArithOp) (a b : Sample) (hb : op = .div → valueS c b ≠ 0) :
    valueS c (exactS c op a b) = ArithOp.onReal op (valueS c a) (valueS c b) := by
  cases a <;> cases b <;> simp only [exactS, h.exact op _ _ hb]
  cases op <;> simp [ArithOp.onRat, ArithOp.onReal]

/-- A rational result is written as a rational. -/
theorem exactS_rat (h : LegalNames c) {op : ArithOp} {a b : Sample} {q : Rat} (hv : valueS c (exactS c op a b) = q) :
    exactS c op a b = .rat q := by
  cases a <;> cases b <;> simp only [exactS] at hv ⊢ <;> first | exact h.rational _ _ _ _ hv | skip
  rw [valueS_rat] at hv
  rw [Rat.cast_injective hv]

theorem floorS_eq (h : LegalNames c) (x : Sample) : floorS c x = ⌊valueS c x⌋ := by
  cases x with
  | rat q => simp [floorS, floor_eq]
  | named n => exact h.floorOf n

theorem truncS_eq (h : LegalNames c) (x : Sample) :
    truncS c x = if 0 ≤ valueS c x then ⌊valueS c x⌋ else ⌈valueS c x⌉ := by
  cases x with
  | named n => exact h.truncOf n
  | rat q =>
    simp only [truncS, valueS_rat, Rat.cast_nonneg, Rat.floor_cast, Rat.ceil_cast]
    split_ifs with hq
    · rw [← floor_eq, Rat.floor_def]; exact Int.tdiv_eq_ediv_of_nonneg (Rat.num_nonneg.mpr hq)
    · have hneg : 0 ≤ -q := by linarith
      have ht : Int.tdiv (-q).num (-q).den = ⌊-q⌋ := by
        rw [← floor_eq, Rat.floor_def]; exact Int.tdiv_eq_ediv_of_nonneg (Rat.num_nonneg.mpr hneg)
      rw [Int.floor_neg, Rat.num_neg_eq_neg_num, Rat.neg_den, Int.neg_tdiv] at ht
      omega

/-! ### Rounding -/

/-- Rounding lies on the same side of every rounded rational as the value lies of the rational. -/
theorem roundS_bounds (hc : LegalConfig c) (x : Sample) (q : Rat) :
    ((q : Real) ≤ valueS c x → (roundRat c q : Real) ≤ valueS c (roundS c x)) ∧
    (valueS c x ≤ q → valueS c (roundS c x) ≤ roundRat c q) := by
  cases ha : c.sampleArith with
  | ideal => rw [roundS_ideal ha]; simp only [roundRat, ha]; exact ⟨id, id⟩
  | binary64 =>
    cases x with
    | rat p =>
      simp only [roundS, roundRat, ha, valueS_rat, Rat.cast_le]
      exact ⟨fun h => roundBinary64_mono hc.infinity64 h, fun h => roundBinary64_mono hc.infinity64 h⟩
    | named n =>
      simp only [roundS, roundRat, ha, valueS_rat, Rat.cast_le]
      exact hc.names.nearest64 ha n q

theorem valueS_roundS_ideal (h : c.sampleArith = .ideal) (x : Sample) : valueS c (roundS c x) = valueS c x := by
  rw [roundS_ideal h]

theorem roundS_nonneg (hc : LegalConfig c) {x : Sample} (h : 0 ≤ valueS c x) : 0 ≤ valueS c (roundS c x) := by
  simpa using (roundS_bounds hc x 0).1 (by simpa using h)

theorem roundS_nonpos (hc : LegalConfig c) {x : Sample} (h : valueS c x ≤ 0) : valueS c (roundS c x) ≤ 0 := by
  simpa using (roundS_bounds hc x 0).2 (by simpa using h)

theorem roundS_le_one (hc : LegalConfig c) {x : Sample} (h : valueS c x ≤ 1) : valueS c (roundS c x) ≤ 1 := by
  simpa using (roundS_bounds hc x 1).2 (by simpa using h)

theorem one_le_roundS (hc : LegalConfig c) {x : Sample} (h : 1 ≤ valueS c x) : 1 ≤ valueS c (roundS c x) := by
  simpa using (roundS_bounds hc x 1).1 (by simpa using h)

theorem neg_one_le_roundS (hc : LegalConfig c) {x : Sample} (h : -1 ≤ valueS c x) : -1 ≤ valueS c (roundS c x) := by
  simpa [roundRat_neg] using (roundS_bounds hc x (-1)).1 (by simpa using h)

/-- Rounding keeps [−1, 1]. -/
theorem roundS_abs_le_one (hc : LegalConfig c) {x : Sample} (h : |valueS c x| ≤ 1) : |valueS c (roundS c x)| ≤ 1 :=
  abs_le.mpr ⟨neg_one_le_roundS hc (abs_le.mp h).1, roundS_le_one hc (abs_le.mp h).2⟩

/-- Rounding keeps [0, 1]. -/
theorem roundS_unit (hc : LegalConfig c) {x : Sample} (h : InUnit c x) : InUnit c (roundS c x) :=
  ⟨roundS_nonneg hc h.1, roundS_le_one hc h.2⟩

theorem roundS_idem (hc : LegalConfig c) (x : Sample) : roundS c (roundS c x) = roundS c x := by
  cases ha : c.sampleArith with
  | ideal => rw [roundS_ideal ha]
  | binary64 =>
    cases x with
    | rat q => simp only [roundS]; rw [roundRat_idem hc.infinity64]
    | named n =>
      simp only [roundS, ha, roundRat]
      rw [hc.names.binary64 ha n]

/-- A value of the chip's arithmetic bounds a rounded result as it bounds the exact one, from below. -/
theorem le_roundS (hc : LegalConfig c) {l x : Sample} (hl : roundS c l = l) (h : valueS c l ≤ valueS c x) :
    valueS c l ≤ valueS c (roundS c x) := by
  cases ha : c.sampleArith with
  | ideal => rwa [roundS_ideal ha]
  | binary64 =>
    cases l with
    | named n => simp [roundS, ha] at hl
    | rat q =>
      have hq : roundRat c q = q := by simpa [roundS] using hl
      simpa [hq] using (roundS_bounds hc x q).1 (by simpa using h)

/-- The same from above. -/
theorem roundS_le (hc : LegalConfig c) {l x : Sample} (hl : roundS c l = l) (h : valueS c x ≤ valueS c l) :
    valueS c (roundS c x) ≤ valueS c l := by
  cases ha : c.sampleArith with
  | ideal => rwa [roundS_ideal ha]
  | binary64 =>
    cases l with
    | named n => simp [roundS, ha] at hl
    | rat q =>
      have hq : roundRat c q = q := by simpa [roundS] using hl
      simpa [hq] using (roundS_bounds hc x q).2 (by simpa using h)

/-! ### Products, sums, quotients -/

theorem valueS_exact_add (h : LegalNames c) (a b : Sample) :
    valueS c (exactS c .add a b) = valueS c a + valueS c b := valueS_exactS h .add a b (by simp)
theorem valueS_exact_sub (h : LegalNames c) (a b : Sample) :
    valueS c (exactS c .sub a b) = valueS c a - valueS c b := valueS_exactS h .sub a b (by simp)
theorem valueS_exact_mul (h : LegalNames c) (a b : Sample) :
    valueS c (exactS c .mul a b) = valueS c a * valueS c b := valueS_exactS h .mul a b (by simp)

theorem mulS_of_zero (hc : LegalConfig c) {a b : Sample} (h : valueS c a = 0 ∨ valueS c b = 0) :
    mulS c a b = .rat 0 := by
  have hv : valueS c (exactS c .mul a b) = ((0 : Rat) : Real) := by
    rw [valueS_exact_mul hc.names]; simpa using h
  rw [mulS, exactS_rat hc.names hv, roundS_zero]

theorem mulS_unit (hc : LegalConfig c) {a b : Sample} (ha : InUnit c a) (hb : InUnit c b) : InUnit c (mulS c a b) := by
  refine roundS_unit hc ?_
  rw [InUnit, valueS_exact_mul hc.names]
  exact ⟨mul_nonneg ha.1 hb.1, mul_le_one₀ ha.2 hb.1 hb.2⟩

theorem mulS_abs_le_one (hc : LegalConfig c) {a b : Sample} (ha : |valueS c a| ≤ 1) (hb : |valueS c b| ≤ 1) :
    |valueS c (mulS c a b)| ≤ 1 := by
  refine roundS_abs_le_one hc ?_
  rw [valueS_exact_mul hc.names, abs_mul]
  exact mul_le_one₀ ha (abs_nonneg _) hb

theorem mulS_nonneg (hc : LegalConfig c) {a b : Sample} (ha : 0 ≤ valueS c a) (hb : 0 ≤ valueS c b) :
    0 ≤ valueS c (mulS c a b) := by
  refine roundS_nonneg hc ?_
  rw [valueS_exact_mul hc.names]; exact mul_nonneg ha hb

theorem one_le_mulS (hc : LegalConfig c) {a b : Sample} (ha : 1 ≤ valueS c a) (hb : 1 ≤ valueS c b) :
    1 ≤ valueS c (mulS c a b) := by
  refine one_le_roundS hc ?_
  rw [valueS_exact_mul hc.names]; exact one_le_mul_of_one_le_of_one_le ha hb

theorem valueS_addS_ideal (hc : LegalConfig c) (h : c.sampleArith = .ideal) (a b : Sample) :
    valueS c (addS c a b) = valueS c a + valueS c b := by
  rw [addS, valueS_roundS_ideal h, valueS_exact_add hc.names]
theorem valueS_subS_ideal (hc : LegalConfig c) (h : c.sampleArith = .ideal) (a b : Sample) :
    valueS c (subS c a b) = valueS c a - valueS c b := by
  rw [subS, valueS_roundS_ideal h, valueS_exact_sub hc.names]
theorem valueS_mulS_ideal (hc : LegalConfig c) (h : c.sampleArith = .ideal) (a b : Sample) :
    valueS c (mulS c a b) = valueS c a * valueS c b := by
  rw [mulS, valueS_roundS_ideal h, valueS_exact_mul hc.names]

/-- A rate that does not round to 0 divides. -/
theorem divRate_of_ne (hc : LegalConfig c) (hr : valueS c (roundS c c.sampleRate) ≠ 0) (x a : Sample) :
    divRate c x a = roundS c (exactS c .div a (roundS c c.sampleRate)) := by
  have hz : isZeroS c (roundS c c.sampleRate) = false := by rw [← Bool.not_eq_true, isZeroS_iff hc.names]; exact hr
  simp [divRate, hz]

/-- A rate that rounds to 0 gives the free value. -/
theorem divRate_of_eq (hc : LegalConfig c) (hr : valueS c (roundS c c.sampleRate) = 0) (x a : Sample) :
    divRate c x a = roundS c (c.divByZero x) := by
  simp [divRate, (isZeroS_iff hc.names _).mpr hr]

theorem valueS_divRate_ideal (hc : LegalConfig c) (h : c.sampleArith = .ideal) (x a : Sample) :
    valueS c (divRate c x a) = valueS c a / valueS c c.sampleRate := by
  have hr : valueS c (roundS c c.sampleRate) ≠ 0 := by rw [roundS_ideal h]; exact hc.sampleRate.ne'
  rw [divRate_of_ne hc hr, valueS_roundS_ideal h, valueS_exactS hc.names _ _ _ (fun _ => hr), roundS_ideal h]
  rfl

/-- A dividend of 0 gives 0, whatever the rate rounds to. -/
theorem valueS_divRate_zero (hc : LegalConfig c) {x a : Sample} (hx : valueS c x = 0) (ha : valueS c a = 0) :
    valueS c (divRate c x a) = 0 := by
  by_cases hr : valueS c (roundS c c.sampleRate) = 0
  · rw [divRate_of_eq hc hr]
    have := hc.divByZero.zero x hx
    exact le_antisymm (roundS_nonpos hc this.le) (roundS_nonneg hc this.ge)
  · rw [divRate_of_ne hc hr]
    have : valueS c (exactS c .div a (roundS c c.sampleRate)) = 0 := by
      rw [valueS_exactS hc.names _ _ _ (fun _ => hr)]; simp [ArithOp.onReal, ha]
    exact le_antisymm (roundS_nonpos hc this.le) (roundS_nonneg hc this.ge)

end Sys2Proof.Machine
end

