-- ==== Sys2Proof/Laws/Tick.lean ====
section
/-! SUPPORT. What each part of a tick can write, and the bounds of what it computes. -/

namespace Sys2Proof.Machine

/-! ### The operator's tick -/

@[simp] theorem egStepAt_regs (c : Config) (r : Sample) (o : Operator) : (egStepAt c r o).regs = o.regs := by
  unfold egStepAt; split <;> first | rfl | (split_ifs <;> rfl)
@[simp] theorem egStepAt_phase (c : Config) (r : Sample) (o : Operator) : (egStepAt c r o).phase = o.phase := by
  unfold egStepAt; split <;> first | rfl | (split_ifs <;> rfl)
@[simp] theorem egStep_regs (c : Config) (r : ChannelRegs) (o : Operator) : (egStep c r o).regs = o.regs :=
  egStepAt_regs ..
@[simp] theorem egStep_phase (c : Config) (r : ChannelRegs) (o : Operator) : (egStep c r o).phase = o.phase :=
  egStepAt_phase ..

@[simp] theorem phaseStep_regs (c : Config) (r : ChannelRegs) (mi : Nat) (o : Operator) :
    (phaseStep c r mi o).regs = o.regs := rfl
@[simp] theorem phaseStep_stage (c : Config) (r : ChannelRegs) (mi : Nat) (o : Operator) :
    (phaseStep c r mi o).stage = o.stage := rfl
@[simp] theorem phaseStep_level (c : Config) (r : ChannelRegs) (mi : Nat) (o : Operator) :
    (phaseStep c r mi o).level = o.level := rfl
@[simp] theorem phaseStep_phase (c : Config) (r : ChannelRegs) (mi : Nat) (o : Operator) :
    (phaseStep c r mi o).phase = o.phase + BitVec.ofInt 64 (phaseDelta c r mi o.regs) := rfl

section
variable (c : Config) (r : ChannelRegs) (mi : Nat) (m : Sample) (o : Operator)

@[simp] theorem opNext_regs : (opNext c r mi m o).1.regs = o.regs := by simp [opNext]
@[simp] theorem opNext_stage : (opNext c r mi m o).1.stage = (egStep c r o).stage := rfl
@[simp] theorem opNext_level : (opNext c r mi m o).1.level = (egStep c r o).level := rfl
theorem opNext_phase : (opNext c r mi m o).1.phase = o.phase + BitVec.ofInt 64 (phaseDelta c r mi o.regs) := by
  simp [opNext]
/-- The modulator input changes the output only: the operator after the tick is the same whatever it is (R58). -/
theorem opNext_fst_input (m' : Sample) : (opNext c r mi m o).1 = (opNext c r mi m' o).1 := rfl

end

/-! ### The channel's tick: registers, LFO and frame -/

section
variable (c : Config) (mi : Nat) (ch : Channel) (k : Fin 4) (m : Sample)

@[simp] theorem evalOp_regs : (evalOp c mi ch k m).1.regs = ch.regs := by simp [evalOp]
@[simp] theorem evalOp_fb1 : (evalOp c mi ch k m).1.fb1 = ch.fb1 := by simp [evalOp]
@[simp] theorem evalOp_fb3 : (evalOp c mi ch k m).1.fb3 = ch.fb3 := by simp [evalOp]
@[simp] theorem evalOp_lfoPhase : (evalOp c mi ch k m).1.lfoPhase = ch.lfoPhase := by simp [evalOp]
theorem evalOp_op (j : Fin 4) :
    (evalOp c mi ch k m).1.op j = if j = k then (opNext c ch.regs mi m (ch.op k)).1 else ch.op j := by
  simp [evalOp, Channel.setOp_op]

@[simp] theorem fbUpdate_regs (o : Sample) : (fbUpdate c k o ch).regs = ch.regs := by
  unfold fbUpdate; simp only; split_ifs <;> simp
@[simp] theorem fbUpdate_op (o : Sample) (j : Fin 4) : (fbUpdate c k o ch).op j = ch.op j := by
  unfold fbUpdate; simp only; split_ifs <;> simp
@[simp] theorem fbUpdate_lfoPhase (o : Sample) : (fbUpdate c k o ch).lfoPhase = ch.lfoPhase := by
  unfold fbUpdate; simp only; split_ifs <;> simp

end

/-- What a route leaves alone: registers, LFO phase and feedback lines. -/
structure SameRest (a b : Channel) : Prop where
  regs : a.regs = b.regs
  lfoPhase : a.lfoPhase = b.lfoPhase
  fb1 : a.fb1 = b.fb1
  fb3 : a.fb3 = b.fb3

theorem route_rest (c : Config) (mi : Nat) (ch : Channel) : SameRest (route c mi ch).ch ch := by
  unfold route
  split <;> constructor <;>
    simp [routeAlg0, routeAlg1, routeAlg2, routeAlg3, routeAlg4, routeAlg5, routeAlg6, routeAlg7]

/-- An operator after a route: ticked, or not evaluated and left as it was (R84). -/
theorem route_op (c : Config) (mi : Nat) (ch : Channel) (k : Fin 4) :
    (route c mi ch).ch.op k = ch.op k ∨ ∃ m, (route c mi ch).ch.op k = (opNext c ch.regs mi m (ch.op k)).1 := by
  unfold route
  split <;> revert k <;> rw [forall_op] <;>
    simp only [routeAlg0, routeAlg1, routeAlg2, routeAlg3, routeAlg4, routeAlg5, routeAlg6, routeAlg7, evalOp_op,
      evalOp_regs, reduceIte, Fin.reduceEq, true_or] <;>
    refine ⟨?_, ?_, ?_, ?_⟩ <;> first | trivial | exact .inr ⟨_, rfl⟩

@[simp] theorem fbUpdates_regs (c : Config) (t : Routed) : (fbUpdates c t).regs = t.ch.regs := by
  unfold fbUpdates; simp only; split_ifs <;> simp
@[simp] theorem fbUpdates_op (c : Config) (t : Routed) (k : Fin 4) : (fbUpdates c t).op k = t.ch.op k := by
  unfold fbUpdates; simp only; split_ifs <;> simp
@[simp] theorem fbUpdates_lfoPhase (c : Config) (t : Routed) : (fbUpdates c t).lfoPhase = t.ch.lfoPhase := by
  unfold fbUpdates; simp only; split_ifs <;> simp

theorem chNext_off {c : Config} {ch : Channel} (h : ch.isOff = true) :
    chNext c ch = (lfoStep c ch, { left := .rat 0, right := .rat 0 }) := by
  simp [chNext, h]

theorem chNext_on {c : Config} {ch : Channel} (h : ch.isOff = false) :
    chNext c ch = (fbUpdates c (route c (modIndex c (lfoStep c ch)) (lfoStep c ch)),
      frameOf c ch.regs (route c (modIndex c (lfoStep c ch)) (lfoStep c ch)).res) := by
  have hr := (route_rest c (modIndex c (lfoStep c ch)) (lfoStep c ch)).regs
  simp [chNext, h, hr]

/-- An operator after its channel's tick: ticked with some modulation index and input, or left as it was. -/
theorem chNext_op (c : Config) (ch : Channel) (k : Fin 4) :
    (chNext c ch).1.op k = ch.op k ∨ ∃ mi m, (chNext c ch).1.op k = (opNext c ch.regs mi m (ch.op k)).1 := by
  cases h : ch.isOff
  · rw [chNext_on h]
    rcases route_op c (modIndex c (lfoStep c ch)) (lfoStep c ch) k with h1 | ⟨m, h1⟩
    · exact .inl (by simpa using h1)
    · exact .inr ⟨_, m, by simpa using h1⟩
  · rw [chNext_off h]; exact .inl (by simp)

/-- The operators after a tick of a channel that is not off are those its route leaves (R81). -/
theorem chNext_op_on {c : Config} {ch : Channel} (h : ch.isOff = false) (k : Fin 4) :
    (chNext c ch).1.op k = (route c (modIndex c (lfoStep c ch)) (lfoStep c ch)).ch.op k := by
  rw [chNext_on h]; simp

/-- No envelope step enters Damp (R56). -/
theorem egStepAt_damp {c : Config} {r : Sample} {o : Operator} (h : (egStepAt c r o).stage = .damp) :
    o.stage = .damp := by
  unfold egStepAt at h
  split at h <;> simp_all <;> (try split_ifs at h)
  simp_all

/-! ### Bounds -/

theorem kslTl_unit {c : Config} (hc : LegalConfig c) (r : ChannelRegs) (o : OperatorRegs) : InUnit c (kslTl c r o) :=
  mulS_unit hc (roundS_unit hc (hc.kslCoef _ _ _)) (roundS_unit hc (hc.tlCoef _))

theorem scaledRate_nonneg {c : Config} (hc : LegalConfig c) (r : ChannelRegs) (o : OperatorRegs) (s : RateKind)
    (v : BitVec 4) : 0 ≤ valueS c (scaledRate c r o s v) :=
  mulS_nonneg hc (roundS_nonneg hc (hc.baseRate s v))
    (zero_le_one.trans (one_le_roundS hc (hc.ksrFactor _ _ _)))

theorem rateOf_nonneg {c : Config} (hc : LegalConfig c) (r : ChannelRegs) (o : Operator) :
    0 ≤ valueS c (rateOf c r o) := by
  unfold rateOf
  split
  · exact scaledRate_nonneg hc ..
  · exact scaledRate_nonneg hc ..
  · exact scaledRate_nonneg hc ..
  · exact scaledRate_nonneg hc ..
  · exact roundS_nonneg hc hc.dampRate.le
  · simp

/-- RR = 15 gives a rate of at least 1 in Release (R6, R24). -/
theorem one_le_releaseRate {c : Config} (hc : LegalConfig c) (r : ChannelRegs) {o : Operator} (hs : o.stage = .release)
    (hr : o.regs.rr = 15) : 1 ≤ valueS c (rateOf c r o) := by
  simp only [rateOf, hs, scaledRate, hr]
  exact one_le_mulS hc (one_le_roundS hc hc.releaseRate) (one_le_roundS hc (hc.ksrFactor _ _ _))

theorem decayTarget_unit {c : Config} (hc : LegalConfig c) (o : OperatorRegs) : InUnit c (decayTarget c o) :=
  roundS_unit hc (hc.slLevel _)

/-- Everything a move of the level toward a target ahead of it can do, under every law: the moves of R55. The level is
a value of the chip's arithmetic where the linear law moves it, and the target always is. -/
theorem moveLevel_legal {c : Config} (hc : LegalConfig c) {st : Stage} {l r t : Sample} (ha : Ahead c st l t)
    (hl : c.egStep = .linear → roundS c l = l) (ht : roundS c t = t) (hr : 0 ≤ valueS c r) :
    LegalMove c st l r t (moveLevel c st l r t) := by
  have he := hc.egStep
  unfold moveLevel
  split
  · next hlin =>
    have hl := hl hlin
    by_cases hst : st = .attack
    · have up := valueS_exact_add hc.names l r
      simp only [Ahead, hst, if_true] at ha
      refine ⟨?_, ?_, fun h0 => ?_, fun h1 h2 h3 => ?_⟩ <;>
        simp only [Ahead, hst, if_true, valueS_minS hc.names]
      · exact le_min ha (le_roundS hc hl (by linarith))
      · exact min_le_left _ _
      · have heq : valueS c (addS c l r) = valueS c l :=
          le_antisymm (roundS_le hc hl (by linarith)) (le_roundS hc hl (by linarith))
        rw [heq]; exact min_eq_right ha
      · exact min_eq_left (le_roundS hc ht (by linarith [h1.1, h2.2]))
    · have down := valueS_exact_sub hc.names l r
      simp only [Ahead, hst, if_false] at ha
      refine ⟨?_, ?_, fun h0 => ?_, fun h1 h2 h3 => ?_⟩ <;>
        simp only [Ahead, hst, if_false, valueS_maxS hc.names]
      · exact max_le ha (roundS_le hc hl (by linarith))
      · exact le_max_left _ _
      · have heq : valueS c (subS c l r) = valueS c l :=
          le_antisymm (roundS_le hc hl (by linarith)) (le_roundS hc hl (by linarith))
        rw [heq]; exact max_eq_right ha
      · exact max_eq_left (roundS_le hc ht (by linarith [h1.2, h2.1]))
  · next f hf => rw [hf] at he; exact he st l r t ha

/-- A move in Attack stays within [0, 1]. -/
theorem moveLevel_attack {c : Config} (hc : LegalConfig c) {l r : Sample} (hl : InUnit c l) (hr : 0 ≤ valueS c r) :
    InUnit c (moveLevel c .attack l r (.rat 1)) := by
  have he := hc.egStep
  unfold moveLevel
  split
  · rw [if_pos rfl, InUnit, valueS_minS hc.names, valueS_one]
    refine ⟨le_min zero_le_one (roundS_nonneg hc ?_), min_le_left _ _⟩
    rw [valueS_exact_add hc.names]; exact add_nonneg hl.1 hr
  · next f hf =>
    rw [hf] at he
    have h := he .attack l r (.rat 1) (by simpa [Ahead] using hl.2)
    exact ⟨hl.1.trans (by simpa [Ahead] using h.onward), by simpa [Ahead] using h.short⟩

/-- A move in any other stage stays within [t, 1]. -/
theorem moveLevel_down {c : Config} (hc : LegalConfig c) {st : Stage} (hst : st ≠ .attack) {l r t : Sample}
    (ht : valueS c t ≤ valueS c l) (h1 : valueS c l ≤ 1) (hr : 0 ≤ valueS c r) :
    valueS c t ≤ valueS c (moveLevel c st l r t) ∧ valueS c (moveLevel c st l r t) ≤ 1 := by
  have he := hc.egStep
  unfold moveLevel
  split
  · rw [if_neg hst, valueS_maxS hc.names]
    refine ⟨le_max_left _ _, max_le (ht.trans h1) (roundS_le_one hc ?_)⟩
    rw [valueS_exact_sub hc.names]; linarith
  · next f hf =>
    rw [hf] at he
    have h := he st l r t (by simpa [Ahead, hst] using ht)
    have hle : valueS c (f st l r t) ≤ valueS c l := by simpa [Ahead, hst] using h.onward
    exact ⟨by simpa [Ahead, hst] using h.short, hle.trans h1⟩

/-- A Release at a rate of at least 1 reaches 0 in one tick, from any level in [0, 1] (R78, R133). -/
theorem moveLevel_release {c : Config} (hc : LegalConfig c) {l r : Sample} (hl : InUnit c l) (hr : 1 ≤ valueS c r) :
    valueS c (moveLevel c .release l r (.rat 0)) = 0 := by
  have he := hc.egStep
  unfold moveLevel
  split
  · rw [if_neg (by decide), valueS_maxS hc.names, valueS_zero]
    refine max_eq_left (roundS_nonpos hc ?_)
    rw [valueS_exact_sub hc.names]; linarith [hl.2]
  · next f hf =>
    rw [hf] at he
    have h := (he .release l r (.rat 0) (by simpa [Ahead] using hl.1)).cross hl (by simp [InUnit]) hr
    simpa using h

/-- A waveform sample lies in [−1, 1], with tremolo or without. -/
theorem abs_waveSample_le_one {c : Config} (hc : LegalConfig c) (mi : Nat) (o : OperatorRegs) (pe : BitVec 64) :
    |valueS c (waveSample c mi o pe)| ≤ 1 := by
  have hw : waveIndex c pe < 2 ^ c.waveBits := by
    have := hc.waveBits
    rw [waveIndex, Nat.shiftRight_eq_div_pow, Nat.div_lt_iff_lt_mul (by positivity), ← pow_add,
      show c.waveBits + (64 - c.waveBits) = 64 by omega]
    exact pe.isLt
  have h1 := roundS_abs_le_one hc (abs_le.mpr (hc.waveTable o.ws _ hw))
  have ht := roundS_unit hc (hc.tremTerm mi o.dam)
  simp only [waveSample]
  split_ifs
  · exact mulS_abs_le_one hc h1 (by rw [abs_of_nonneg ht.1]; exact ht.2)
  · exact h1

end Sys2Proof.Machine
end

