-- ==== Sys2Proof/Laws/Commands.lean ====
section
/-! SUPPORT. What a command does to each channel of the chip, and that its parts keep an operator within R15. -/

namespace Sys2Proof.Machine

/-! ### One channel of the chip after a command -/

theorem chNext_regs (c : Config) (ch : Channel) : (chNext c ch).1.regs = ch.regs := by
  cases h : ch.isOff
  · rw [chNext_on h]; simp [(route_rest _ _ _).regs]
  · rw [chNext_off h]; rfl

theorem chNext_op_regs (c : Config) (ch : Channel) (k : Fin 4) : ((chNext c ch).1.op k).regs = (ch.op k).regs := by
  rcases chNext_op c ch k with h | ⟨mi, m, h⟩ <;> rw [h]; simp

theorem chNext_lfoPhase (c : Config) (ch : Channel) :
    (chNext c ch).1.lfoPhase = ch.lfoPhase + c.lfoInc ch.regs.lfo := by
  cases h : ch.isOff
  · rw [chNext_on h]; simp [(route_rest _ _ _).lfoPhase]
  · rw [chNext_off h]; rfl

/-- A channel after a tick is its own tick. -/
theorem tick_getElem? {c : Config} {s : State} {j : Nat} {ch ch' : Channel} (h : s.channels[j]? = some ch)
    (h' : (tick c s).channels[j]? = some ch') : ch' = (chNext c ch).1 := by
  simp [tick, h] at h'; exact h'.symm

/-- A channel after a command that names channel c: edited if it is c, as it was otherwise. -/
theorem exec_getElem? {i : Instr} {c : BitVec 8} (hc : i.channel = some c) {s t : State} (he : exec i s = .next t)
    {j : Nat} {ch ch' : Channel} (h : s.channels[j]? = some ch) (h' : t.channels[j]? = some ch') :
    (j = c.toNat ∧ ch' = channelEdit i ch) ∨ (j ≠ c.toNat ∧ ch' = ch) := by
  rw [exec_eq_onChannel hc] at he
  obtain ⟨ch0, h0, rfl⟩ := onChannel_next he
  rw [setChannel_getElem? h0] at h'
  split_ifs at h' with hj
  · subst hj; rw [h0] at h; cases h; cases h'; exact .inl ⟨rfl, rfl⟩
  · rw [h] at h'; cases h'; exact .inr ⟨fun e => hj e.symm, rfl⟩

theorem mem_setChannel {s : State} {c : BitVec 8} {old new x : Channel} (h : s.channels[c.toNat]? = some old)
    (hx : x ∈ (s.setChannel c new).channels) : x = new ∨ x ∈ s.channels := by
  rw [List.mem_iff_getElem?] at hx
  obtain ⟨j, hj⟩ := hx
  rw [setChannel_getElem? h] at hj
  split_ifs at hj
  · left; cases hj; rfl
  · right; exact List.mem_of_getElem? hj

/-- A sequence of commands that name one channel edits that channel in order. -/
theorem execAll_channel (c : BitVec 8) : ∀ (is : List Instr) (s : State) (ch : Channel),
    (∀ i ∈ is, i.channel = some c) → s.channels[c.toNat]? = some ch →
    execAll is s = .next (s.setChannel c (is.foldl (fun x i => channelEdit i x) ch)) := by
  intro is
  induction is with
  | nil => intro s ch _ h; simp [execAll, setChannel_self h]
  | cons i is ih =>
    intro s ch hi h
    simp only [execAll]
    rw [exec_eq_onChannel (hi i (by simp)), onChannel_some h]
    simp only
    rw [ih _ (channelEdit i ch) (fun i hh => hi i (by simp [hh])) (by rw [setChannel_getElem? h, if_pos rfl]),
      setChannel_setChannel]
    rfl

theorem execAll_append (a b : List Instr) (s : State) : execAll (a ++ b) s =
    (match execAll a s with
    | .next t => execAll b t
    | .fault r => .fault r
    | .refused r => .refused r) := by
  induction a generalizing s with
  | nil => rfl
  | cons i a ih =>
    simp only [List.cons_append, execAll]
    cases exec i s <;> simp [ih]

/-! ### KON and ALG -/

@[simp] theorem keyOff_isOff (ch : Channel) : ((ch.setKonBit 0).mapOps keyOffOp).isOff = ch.isOff :=
  Channel.isOff_congr rfl (by simp)

/-- Key-off of a channel that is not off, and of one that is (R96). -/
theorem setKon_zero (ch : Channel) : setKon 0 ch =
    if ch.isOff then chReset ((ch.setKonBit 0).mapOps keyOffOp) else (ch.setKonBit 0).mapOps keyOffOp := by
  simp only [setKon, keyOff_isOff]; simp

theorem setKon_op_regs (v : Int) (ch : Channel) (k : Fin 4) : ((setKon v ch).op k).regs = (ch.op k).regs := by
  simp only [setKon]; split_ifs <;> simp

theorem withRegs_op (ch : Channel) (r : ChannelRegs) (k : Fin 4) : ({ ch with regs := r } : Channel).op k = ch.op k := by
  fin_cases k <;> rfl

theorem setAlg_op_regs (v : Int) (ch : Channel) (k : Fin 4) : ((setAlg v ch).op k).regs = (ch.op k).regs := by
  simp only [setAlg]; rw [withRegs_op]; split_ifs <;> simp

/-! ### silence -/

/-- The four operators edited in turn are the four operators mapped. -/
theorem foldl_setOp (f : Operator → Operator) (ch : Channel) :
    ([0, 1, 2, 3] : List (Fin 4)).foldl (fun x k => x.setOp k (f (x.op k))) ch = ch.mapOps f := rfl

/-- What `silence` writes to the registers of an operator (R53, R132). -/
def silenceRegs (o : Operator) : Operator :=
  { o with regs := { o.regs with tl := 0x3f, ar := 15, dr := 15, rr := 15 } }

theorem foldl_silenceOp (c : BitVec 8) (k : Fin 4) (ch : Channel) :
    (silenceOp c k).foldl (fun x i => channelEdit i x) ch = ch.setOp k (silenceRegs (ch.op k)) := by
  have h1 : maskTo 6 (0x3f : Value).toInt = 0x3f := by decide
  have h2 : maskTo 4 (15 : Value).toInt = 15 := by decide
  simp only [silenceOp, List.foldl_cons, List.foldl_nil, channelEdit, h1, h2, Channel.setOp_op_same,
    Channel.setOp_setOp, silenceRegs]

/-- `silence`'s commands for one channel: its operators' registers written, then a key-off. -/
theorem foldl_silenceChannel (c : BitVec 8) (ch : Channel) :
    (silenceChannel c).foldl (fun x i => channelEdit i x) ch = setKon 0 (ch.mapOps silenceRegs) := by
  rw [silenceChannel, List.foldl_append, List.foldl_flatMap]
  simp only [foldl_silenceOp, foldl_setOp]
  rfl

/-! ### R15 of an operator -/

theorem resetOp_good (c : Config) (o : Operator) : (resetOp o).Good c :=
  ⟨by simp, by simp, fun _ => by simp⟩

theorem keyOffOp_good {c : Config} {o : Operator} (h : o.Good c) : (keyOffOp o).Good c := by
  unfold keyOffOp
  split_ifs with hs
  · exact h
  · exact ⟨h.1, h.2, by simp⟩

theorem setOp_good {c : Config} {ch : Channel} (h : ch.Good c) (k : Fin 4) (r : OperatorRegs) :
    (ch.setOp k { ch.op k with regs := r }).Good c := by
  intro j
  rw [Channel.setOp_op]
  split_ifs with hj
  · exact ⟨(h k).1, (h k).2, (h k).3⟩
  · exact h j

theorem withRegs_good {c : Config} {ch : Channel} (h : ch.Good c) (r : ChannelRegs) :
    Channel.Good c { ch with regs := r } := by
  intro j; rw [withRegs_op]; exact h j

/-- Every envelope step at a rate that is not negative keeps R15. -/
theorem egStepAt_good {c : Config} (hc : LegalConfig c) {r : Sample} (hr : 0 ≤ valueS c r) {o : Operator}
    (h : o.Good c) : (egStepAt c r o).Good c := by
  unfold egStepAt
  obtain ⟨h0, h1, h2⟩ := h
  have hz : ∀ l : Sample, 0 ≤ valueS c l → ∀ st : Stage, st ≠ .off →
      (if leS c l (.rat 0) = true then Stage.off else st) = .off → valueS c l = 0 := by
    intro l hl st hst hoff
    split_ifs at hoff with hx
    · exact le_antisymm (by simpa using (leS_iff hc.names _ _).mp hx) hl
    · exact absurd hoff hst
  split
  · exact ⟨h0, h1, h2⟩
  · have := moveLevel_attack hc ⟨h0, h1⟩ hr
    refine ⟨this.1, this.2, ?_⟩
    intro hs; simp only at hs; split_ifs at hs
  · simp only
    have ht := decayTarget_unit hc o.regs
    have hst : ∀ b : Bool, (if b = true then Stage.sustain else .decay) ≠ .off := by decide
    by_cases ha : leS c o.level (decayTarget c o.regs) = true
    · simp only [if_pos ha]
      exact ⟨h0, h1, fun h => absurd h (hst true)⟩
    · simp only [if_neg ha]
      have hle := ((leS_false_iff hc.names _ _).mp (Bool.not_eq_true _ ▸ ha)).le
      have := moveLevel_down hc (st := .decay) (by decide) hle h1 hr
      exact ⟨ht.1.trans this.1, this.2, fun h => absurd h (hst _)⟩
  · next hs =>
    split_ifs
    · have := moveLevel_down hc (st := .sustain) (t := .rat 0) (by decide) (by simpa using h0) h1 hr
      exact ⟨by simpa using this.1, this.2, by simp [hs]⟩
    · exact ⟨h0, h1, h2⟩
  · have := moveLevel_down hc (st := .release) (t := .rat 0) (by decide) (by simpa using h0) h1 hr
    have hn : 0 ≤ valueS c (moveLevel c .release o.level r (.rat 0)) := by simpa using this.1
    exact ⟨hn, this.2, hz _ hn _ (by decide)⟩
  · have := moveLevel_down hc (st := .damp) (t := .rat 0) (by decide) (by simpa using h0) h1 hr
    have hn : 0 ≤ valueS c (moveLevel c .damp o.level r (.rat 0)) := by simpa using this.1
    exact ⟨hn, this.2, hz _ hn _ (by decide)⟩

end Sys2Proof.Machine
end

