-- ==== Sys2Proof/Laws/Decode.lean ====
section
/-! SUPPORT. Laws of the word layout: each field of a laid-out word is what was laid out, and a word is its fields. -/

namespace Sys2Proof

theorem fieldAt_getLsbD {n p i : Nat} (x : BitVec n) (hi : i < 64) :
    (fieldAt p x).getLsbD i = if p ≤ i ∧ i < p + n then x.getLsbD (i - p) else false := by
  simp only [fieldAt, BitVec.getLsbD_shiftLeft, BitVec.getLsbD_setWidth]
  by_cases h1 : p ≤ i
  · by_cases h2 : i < p + n
    · simp [h1, h2, hi, show i - p < 64 by omega]
    · simp [h1, h2, BitVec.getLsbD_of_ge x (i - p) (by omega)]
  · simp [h1, show i < p by omega]

/-- A field read back where it was placed. -/
theorem extract_fieldAt {n p : Nat} (x : BitVec n) (h : p + n ≤ 64) : (fieldAt p x).extractLsb' p n = x := by
  apply BitVec.eq_of_getLsbD_eq
  intro i hi
  rw [BitVec.getLsbD_extractLsb', fieldAt_getLsbD x (by omega)]
  simp [hi]

/-- Nothing of a field elsewhere. -/
theorem extract_fieldAt_disjoint {n p q m : Nat} (x : BitVec n) (h : p + n ≤ q ∨ q + m ≤ p) (hq : q + m ≤ 64) :
    (fieldAt p x).extractLsb' q m = 0#m := by
  apply BitVec.eq_of_getLsbD_eq
  intro i hi
  rw [BitVec.getLsbD_extractLsb', fieldAt_getLsbD x (by omega), if_neg (by omega)]
  simp

section
variable (kind rsv0 : BitVec 4) (ch : BitVec 8) (op : BitVec 2) (rsv1 : BitVec 1) (reg : BitVec 5) (rsv2 : BitVec 8)
  (value : Value)

@[simp] theorem kindField_wordOfFields : kindField (wordOfFields kind rsv0 ch op rsv1 reg rsv2 value) = kind := by
  simp (disch := omega) only [kindField, wordOfFields, BitVec.extractLsb'_or, extract_fieldAt,
    extract_fieldAt_disjoint, BitVec.or_zero]

@[simp] theorem rsv0Field_wordOfFields : rsv0Field (wordOfFields kind rsv0 ch op rsv1 reg rsv2 value) = rsv0 := by
  simp (disch := omega) only [rsv0Field, wordOfFields, BitVec.extractLsb'_or, extract_fieldAt,
    extract_fieldAt_disjoint, BitVec.or_zero, BitVec.zero_or]

@[simp] theorem chField_wordOfFields : chField (wordOfFields kind rsv0 ch op rsv1 reg rsv2 value) = ch := by
  simp (disch := omega) only [chField, wordOfFields, BitVec.extractLsb'_or, extract_fieldAt,
    extract_fieldAt_disjoint, BitVec.or_zero, BitVec.zero_or]

@[simp] theorem opField_wordOfFields : opField (wordOfFields kind rsv0 ch op rsv1 reg rsv2 value) = op := by
  simp (disch := omega) only [opField, wordOfFields, BitVec.extractLsb'_or, extract_fieldAt,
    extract_fieldAt_disjoint, BitVec.or_zero, BitVec.zero_or]

@[simp] theorem rsv1Field_wordOfFields : rsv1Field (wordOfFields kind rsv0 ch op rsv1 reg rsv2 value) = rsv1 := by
  simp (disch := omega) only [rsv1Field, wordOfFields, BitVec.extractLsb'_or, extract_fieldAt,
    extract_fieldAt_disjoint, BitVec.or_zero, BitVec.zero_or]

@[simp] theorem regField_wordOfFields : regField (wordOfFields kind rsv0 ch op rsv1 reg rsv2 value) = reg := by
  simp (disch := omega) only [regField, wordOfFields, BitVec.extractLsb'_or, extract_fieldAt,
    extract_fieldAt_disjoint, BitVec.or_zero, BitVec.zero_or]

@[simp] theorem rsv2Field_wordOfFields : rsv2Field (wordOfFields kind rsv0 ch op rsv1 reg rsv2 value) = rsv2 := by
  simp (disch := omega) only [rsv2Field, wordOfFields, BitVec.extractLsb'_or, extract_fieldAt,
    extract_fieldAt_disjoint, BitVec.or_zero, BitVec.zero_or]

@[simp] theorem valueField_wordOfFields : valueField (wordOfFields kind rsv0 ch op rsv1 reg rsv2 value) = value := by
  simp (disch := omega) only [valueField, wordOfFields, BitVec.extractLsb'_or, extract_fieldAt,
    extract_fieldAt_disjoint, BitVec.or_zero, BitVec.zero_or]

/-- A laid-out word, bit by bit. -/
theorem wordOfFields_getLsbD {i : Nat} (hi : i < 64) :
    (wordOfFields kind rsv0 ch op rsv1 reg rsv2 value).getLsbD i =
      if i < 32 then value.getLsbD i else if i < 40 then rsv2.getLsbD (i - 32)
      else if i < 45 then reg.getLsbD (i - 40) else if i < 46 then rsv1.getLsbD (i - 45)
      else if i < 48 then op.getLsbD (i - 46) else if i < 56 then ch.getLsbD (i - 48)
      else if i < 60 then rsv0.getLsbD (i - 56) else kind.getLsbD (i - 60) := by
  simp only [wordOfFields, BitVec.getLsbD_or, fieldAt_getLsbD _ hi]
  have hs : i < 32 ∨ (32 ≤ i ∧ i < 40) ∨ (40 ≤ i ∧ i < 45) ∨ i = 45 ∨ (46 ≤ i ∧ i < 48) ∨ (48 ≤ i ∧ i < 56) ∨
      (56 ≤ i ∧ i < 60) ∨ 60 ≤ i := by omega
  rcases hs with h | h | h | h | h | h | h | h <;>
    simp (disch := omega) only [if_pos, if_neg, Bool.or_false, Bool.false_or, Nat.sub_zero]

end

/-- A word is its fields (R43). -/
theorem wordOfFields_fields (w : Word) :
    wordOfFields (kindField w) (rsv0Field w) (chField w) (opField w) (rsv1Field w) (regField w) (rsv2Field w)
      (valueField w) = w := by
  apply BitVec.eq_of_getLsbD_eq
  intro i hi
  rw [wordOfFields_getLsbD _ _ _ _ _ _ _ _ hi]
  simp only [kindField, rsv0Field, chField, opField, rsv1Field, regField, rsv2Field, valueField,
    BitVec.getLsbD_extractLsb']
  have hs : i < 32 ∨ (32 ≤ i ∧ i < 40) ∨ (40 ≤ i ∧ i < 45) ∨ i = 45 ∨ (46 ≤ i ∧ i < 48) ∨ (48 ≤ i ∧ i < 56) ∨
      (56 ≤ i ∧ i < 60) ∨ 60 ≤ i := by omega
  rcases hs with h | h | h | h | h | h | h | h <;>
    simp (disch := omega) only [if_pos, if_neg, decide_eq_true, Bool.true_and, Nat.add_sub_of_le, Nat.zero_add]

/-- Two words with the same fields are the same word. -/
theorem word_eq_of_fields {w v : Word} (hk : kindField w = kindField v) (h0 : rsv0Field w = rsv0Field v)
    (hc : chField w = chField v) (ho : opField w = opField v) (h1 : rsv1Field w = rsv1Field v)
    (hr : regField w = regField v) (h2 : rsv2Field w = rsv2Field v) (hv : valueField w = valueField v) : w = v := by
  rw [← wordOfFields_fields w, ← wordOfFields_fields v, hk, h0, hc, ho, h1, hr, h2, hv]

/-- Masking acts field by field. -/
theorem wordOfFields_and (k k' a a' : BitVec 4) (c c' : BitVec 8) (o o' : BitVec 2) (b b' : BitVec 1)
    (r r' : BitVec 5) (d d' : BitVec 8) (v v' : Value) :
    wordOfFields k a c o b r d v &&& wordOfFields k' a' c' o' b' r' d' v' =
      wordOfFields (k &&& k') (a &&& a') (c &&& c') (o &&& o') (b &&& b') (r &&& r') (d &&& d') (v &&& v') := by
  apply BitVec.eq_of_getLsbD_eq
  intro i hi
  simp only [BitVec.getLsbD_and, wordOfFields_getLsbD _ _ _ _ _ _ _ _ hi]
  split_ifs <;> rfl

/-! ### Operators and the two values of WRITE_TL -/

@[simp] theorem ofFin_toFin (x : BitVec 2) : BitVec.ofFin (w := 2) x.toFin = x := rfl

@[simp] theorem wrtlValue_carrier (c m : BitVec 16) : (wrtlValue c m).extractLsb' 16 16 = c := by
  apply BitVec.eq_of_getLsbD_eq
  intro i hi
  simp [wrtlValue, hi, show 16 + i < 32 by omega]

@[simp] theorem wrtlValue_modulator (c m : BitVec 16) : (wrtlValue c m).extractLsb' 0 16 = m := by
  apply BitVec.eq_of_getLsbD_eq
  intro i hi
  simp [wrtlValue, hi, show i < 32 by omega]

theorem wrtlValue_halves (v : Value) : wrtlValue (v.extractLsb' 16 16) (v.extractLsb' 0 16) = v := by
  apply BitVec.eq_of_getLsbD_eq
  intro i hi
  by_cases h : i < 16
  · simp [wrtlValue, h, show i < 32 by omega]
  · simp [wrtlValue, h, hi, show i - 16 < 16 by omega, show 16 + (i - 16) = i by omega]

theorem carrierTLField_eq (w : Word) : carrierTLField w = (valueField w).extractLsb' 16 16 := by
  apply BitVec.eq_of_getLsbD_eq
  intro i hi
  simp [carrierTLField, valueField, hi]

theorem modulatorTLField_eq (w : Word) : modulatorTLField w = (valueField w).extractLsb' 0 16 := by
  apply BitVec.eq_of_getLsbD_eq
  intro i hi
  simp [modulatorTLField, valueField, hi]

end Sys2Proof
end

