-- ==== Sys2Proof/Laws/Params.lean ====
section
/-! SUPPORT. There are enough names: for every countable set of reals there are legal names that name each of them, so
every real configuration, and every real its runs reach, can be written (log 1); and there is a legal record with the
sine of every length, under each SAMPLE_ARITH. -/

namespace Sys2Proof.Machine

/-! ### Every real has a nearest binary64 value -/

/-- A value of binary64 is a whole multiple of 2^−1074, or stands for one beyond the range. -/
theorem roundBinary64_grid (inf q : Rat) :
    roundBinary64 inf q = inf ∨ roundBinary64 inf q = -inf ∨
      ∃ n : Int, roundBinary64 inf q = n * pow2 (-1074) := by
  rw [roundBinary64_eq]
  split_ifs
  · exact .inr (.inr ⟨0, by simp⟩)
  · obtain ⟨m, -, hm⟩ := pow2_eq_int_mul (show (-1074 : Int) ≤ ulpExponent q from le_max_right _ _)
    exact .inr (.inr ⟨nearestEven (q / pow2 (ulpExponent q)) * m, by
      rw [roundFinite]; conv_lhs => arg 2; rw [hm]
      push_cast; ring⟩)
  · exact .inl rfl
  · exact .inr (.inl rfl)

/-- Only finitely many binary64 values lie between two rationals. -/
theorem finite_grid (inf lo hi : Rat) :
    {v : Rat | (∃ q, v = roundBinary64 inf q) ∧ lo ≤ v ∧ v ≤ hi}.Finite := by
  have hp := pow2_pos (-1074)
  refine (((Set.finite_Icc ⌊lo / pow2 (-1074)⌋ ⌈hi / pow2 (-1074)⌉).image
    fun n : Int => (n : Rat) * pow2 (-1074)).union (Set.toFinite {inf, -inf})).subset ?_
  rintro v ⟨⟨q, rfl⟩, h1, h2⟩
  rcases roundBinary64_grid inf q with h | h | ⟨n, h⟩
  · right; simp [h]
  · right; simp [h]
  · left
    rw [h] at h1 h2
    refine ⟨n, ⟨?_, ?_⟩, h.symm⟩
    · have : lo / pow2 (-1074) ≤ n := (div_le_iff₀ hp).mpr h1
      exact Int.floor_le_iff.mpr (by linarith)
    · have : (n : Rat) ≤ hi / pow2 (-1074) := (le_div_iff₀ hp).mpr h2
      exact Int.le_ceil_iff.mpr (by linarith)

theorem exists_nearest64 {inf : Rat} (hi : pow2 1024 ≤ inf) (x : Real) :
    ∃ r : Rat, roundBinary64 inf r = r ∧
      ∀ q : Rat, ((q : Real) ≤ x → roundBinary64 inf q ≤ r) ∧ (x ≤ q → r ≤ roundBinary64 inf q) := by
  let lo : Rat := ⌊x⌋
  let top : Rat := ⌈x⌉
  have hlo : (lo : Real) ≤ x := by simpa [lo] using Int.floor_le x
  have htop : x ≤ (top : Real) := by simpa [top] using Int.le_ceil x
  let S : Set Rat := {v | ∃ q : Rat, lo ≤ q ∧ (q : Real) ≤ x ∧ v = roundBinary64 inf q}
  have hS : S.Finite := by
    refine (finite_grid inf (roundBinary64 inf lo) (roundBinary64 inf top)).subset ?_
    rintro v ⟨q, h1, h2, rfl⟩
    exact ⟨⟨q, rfl⟩, roundBinary64_mono hi h1, roundBinary64_mono hi (by exact_mod_cast h2.trans htop)⟩
  obtain ⟨r, ⟨p, hp1, hp2, rfl⟩, hmax⟩ := hS.exists_maximalFor id S ⟨_, lo, le_rfl, hlo, rfl⟩
  have hmax' : ∀ v ∈ S, v ≤ roundBinary64 inf p := fun v hv => by
    rcases le_total v (roundBinary64 inf p) with h | h
    · exact h
    · exact hmax hv h
  refine ⟨roundBinary64 inf p, roundBinary64_idem hi p, fun q => ⟨fun hq => ?_, fun hq => ?_⟩⟩
  · rcases le_total lo q with h | h
    · exact hmax' _ ⟨q, h, hq, rfl⟩
    · exact (roundBinary64_mono hi h).trans (hmax' _ ⟨lo, le_rfl, hlo, rfl⟩)
  · exact roundBinary64_mono hi (by exact_mod_cast hp2.trans hq)

/-! ### Names for every countable field of reals -/

/-- The legal names of the elements of a countable field of reals. -/
theorem exists_names_of_field (c : Config) (hi : pow2 1024 ≤ c.infinity64) (F : Subfield Real)
    (hF : (F : Set Real).Countable) :
    ∃ names : RealNames, LegalNames { c with names := names } ∧ ∀ x ∈ F, ∃ n, names.value n = x := by
  classical
  obtain ⟨f, hf⟩ := hF.exists_eq_range ⟨0, F.zero_mem⟩
  have hmem : ∀ x, x ∈ F ↔ ∃ n, f n = x := fun x => by rw [← SetLike.mem_coe, hf, Set.mem_range]
  let val : Sample → Real := fun s => match s with
    | .rat q => q
    | .named n => f n
  have hval : ∀ s, val s ∈ F := by
    intro s
    cases s with
    | rat q => exact SubfieldClass.ratCast_mem F q
    | named n => exact (hmem _).mpr ⟨n, rfl⟩
  have hop : ∀ op a b, ArithOp.onReal op (val a) (val b) ∈ F := by
    intro op a b
    cases op
    · exact F.add_mem (hval a) (hval b)
    · exact F.sub_mem (hval a) (hval b)
    · exact F.mul_mem (hval a) (hval b)
    · exact F.div_mem (hval a) (hval b)
  -- a real of F, written as a rational where it is one
  have hname : ∀ x ∈ F, ∃ s, val s = x ∧ ∀ q : Rat, x = q → s = .rat q := by
    intro x hx
    by_cases hq : ∃ q : Rat, x = q
    · obtain ⟨q, rfl⟩ := hq
      exact ⟨.rat q, rfl, fun p hp => by rw [Rat.cast_injective hp]⟩
    · obtain ⟨n, hn⟩ := (hmem x).mp hx
      exact ⟨.named n, hn, fun q h => absurd ⟨q, h⟩ hq⟩
  choose name hname1 hname2 using hname
  choose near hnear1 hnear2 using fun n => exists_nearest64 hi (f n)
  let names : RealNames :=
    { value := f
      exact := fun op a b => name _ (hop op a b)
      atMost := fun a b => decide (val a ≤ val b)
      floorOf := fun n => ⌊f n⌋
      truncOf := fun n => if 0 ≤ f n then ⌊f n⌋ else ⌈f n⌉
      nearest64 := near }
  have hv : ∀ s, valueS { c with names := names } s = val s := by intro s; cases s <;> rfl
  refine ⟨names, ⟨fun op a b _ => ?_, fun op a b q h => ?_, fun a b => ?_, fun n => rfl, fun n => rfl,
    fun _ n => hnear1 n, fun _ n q => hnear2 n q⟩, fun x hx => (hmem x).mp hx⟩
  · rw [hv, hv, hv]; exact hname1 _ _
  · rw [hv] at h
    exact hname2 _ (hop op a b) q ((hname1 _ _).symm.trans h)
  · rw [hv, hv]; simp [names]

/-- The legal names of the elements of a countable set of reals, and of all that is computed from them. -/
theorem exists_names (c : Config) (hi : pow2 1024 ≤ c.infinity64) {S : Set Real} (hS : S.Countable) :
    ∃ names : RealNames, LegalNames { c with names := names } ∧ ∀ x ∈ S, ∃ n, names.value n = x := by
  have hF : ((Subfield.closure S : Subfield Real) : Set Real).Countable := by
    rw [← Set.countable_coe_iff, ← Cardinal.mk_le_aleph0_iff]
    exact (Subfield.cardinalMk_closure_le_max S).trans (max_le (Cardinal.mk_le_aleph0_iff.mpr hS.to_subtype) le_rfl)
  obtain ⟨names, h1, h2⟩ := exists_names_of_field c hi (Subfield.closure S) hF
  exact ⟨names, h1, fun x hx => h2 x (Subfield.subset_closure hx)⟩

/-- There is a legal record with a sine of each length, under each arithmetic. -/
theorem exists_legalConfig {w : Nat} (hw : 1 ≤ w ∧ w ≤ 32) (a : SampleArith) :
    ∃ c, LegalConfig c ∧ c.waveBits = w ∧ c.sampleArith = a := by
  let sine : Nat → Real := fun i => Real.sin (2 * Real.pi * i / 2 ^ w)
  let base : Config := { plainConfig with sampleArith := a }
  obtain ⟨names, hn, hs⟩ := exists_names base le_rfl (Set.countable_range sine)
  choose name hname using fun i => hs (sine i) ⟨i, rfl⟩
  let c : Config := { base with names := names, waveBits := w, waveTable := fun _ i => .named (name i) }
  have hv : ∀ q : Rat, valueS c (.rat q) = q := fun _ => rfl
  have hsin : ∀ i, valueS c (.named (name i)) = sine i := fun i => hname i
  refine ⟨c, ?_, rfl, rfl⟩
  exact
    { sampleRate := by simp [c, base, plainConfig]
      waveBits := hw
      waveTable := fun _ i _ => by
        simp only [c]; rw [hsin]; exact ⟨Real.neg_one_le_sin _, Real.sin_le_one _⟩
      sine := fun i _ => hsin i
      phaseConst := by simp [c, base, plainConfig]
      multFactor := fun _ => by simp [c, base, plainConfig]
      dtTerm := fun _ _ => rfl
      tremTerm := fun _ _ => by simp [c, base, plainConfig, InUnit]
      lfoBits := plainConfig_legal.lfoBits
      tlCoef := fun _ => by simp [c, base, plainConfig, InUnit]
      kslCoef := fun _ _ _ => by simp [c, base, plainConfig, InUnit]
      fbCoef := rfl
      baseRate := fun _ _ => by simp [c, base, plainConfig]
      releaseRate := by simp [c, base, plainConfig]
      ksrFactor := fun _ _ _ => by simp [c, base, plainConfig]
      slLevel := fun _ => by simp [c, base, plainConfig, InUnit]
      dampRate := by simp [c, base, plainConfig]
      egStep := trivial
      refRate := by simp [c, base, plainConfig]
      attVolume := fun _ => by simp [c, base, plainConfig]
      attExpression := fun _ => by simp [c, base, plainConfig]
      attVelocity := fun _ => by simp [c, base, plainConfig]
      panTable := fun _ => by simp [c, base, plainConfig]
      infinity64 := le_rfl
      divByZero := ⟨fun _ h => h, fun x h => by simp [c, base, plainConfig] at h ⊢; linarith,
        fun x h => by simpa [c, base, plainConfig] using h⟩
      names :=
        { exact := hn.exact, rational := hn.rational, atMost := hn.atMost, floorOf := hn.floorOf
          truncOf := hn.truncOf, binary64 := hn.binary64, nearest64 := hn.nearest64 } }

end Sys2Proof.Machine
end

