-- ==== Sys2Proof/Laws/PerInstr.lean ====
section
/-! SUPPORT. Families of statements over the commands as encoded terms, one lemma per constructor. -/

namespace Sys2Proof.Laws

open Sys2Proof

/-- The command's word matches the row of R48 that bears its name. -/
def OpcodeRows.Statement (i : Instr) : Prop :=
  ∃ row ∈ opcodeRows, row.mnemonic = i.mnemonic ∧ encode i &&& row.mask = row.pattern

theorem OpcodeRows.and_all (n : Nat) (x : BitVec n) : x &&& BitVec.allOnes n = x := by simp

/-- A `WRITE_CHANNEL` word under its mask. -/
theorem OpcodeRows.wrch (reg : BitVec 5) (ch : BitVec 8) (v : Value) :
    wrchWord reg ch v &&& 0xFF00FFFF00000000 = wrchWord reg 0 0 := by
  have hm : (0xFF00FFFF00000000 : Word) = wordOfFields 15 15 0 3 1 31 255 0 := by decide
  rw [hm]
  simp only [wrchWord, commandWord, wordOfFields_and]
  congr 1 <;> first | exact OpcodeRows.and_all _ _ | simp

/-- A `WRITE_OPERATOR` or `WRITE_TL` word under its mask. -/
theorem OpcodeRows.wrop (kind : BitVec 4) (reg : BitVec 5) (ch : BitVec 8) (op : BitVec 2) (v : Value) :
    commandWord kind ch op reg v &&& 0xFF003FFF00000000 = commandWord kind 0 0 reg 0 := by
  have hm : (0xFF003FFF00000000 : Word) = wordOfFields 15 15 0 0 1 31 255 0 := by decide
  rw [hm]
  simp only [commandWord, wordOfFields_and]
  congr 1 <;> first | exact OpcodeRows.and_all _ _ | simp

theorem OpcodeRows.nop : OpcodeRows.Statement .nop :=
  ⟨⟨"nop", 0, 0xFFFFFFFFFFFFFFFF⟩, by decide, rfl, by decide⟩

theorem OpcodeRows.next : OpcodeRows.Statement .next :=
  ⟨⟨"next", 0x4000000000000000, 0xFFFFFFFFFFFFFFFF⟩, by decide, rfl, by decide⟩

theorem OpcodeRows.wrtl (ch : BitVec 8) (op : Fin 4) (c m : BitVec 16) : OpcodeRows.Statement (.wrtl ch op c m) :=
  ⟨⟨"wrtl", 0x3000000000000000, 0xFF003FFF00000000⟩, by decide, rfl, (OpcodeRows.wrop 3 0 ch _ _).trans (by decide)⟩

theorem OpcodeRows.wrchKON (ch : BitVec 8) (v : Value) : OpcodeRows.Statement (.wrchKON ch v) :=
  ⟨⟨"wrch.KON", 0x1000000000000000, 0xFF00FFFF00000000⟩, by decide, rfl, (OpcodeRows.wrch 0 ch v).trans (by decide)⟩

theorem OpcodeRows.wrchBLOCK (ch : BitVec 8) (v : Value) : OpcodeRows.Statement (.wrchBLOCK ch v) :=
  ⟨⟨"wrch.BLOCK", 0x1000010000000000, 0xFF00FFFF00000000⟩, by decide, rfl, (OpcodeRows.wrch 1 ch v).trans (by decide)⟩

theorem OpcodeRows.wrchFNUM (ch : BitVec 8) (v : Value) : OpcodeRows.Statement (.wrchFNUM ch v) :=
  ⟨⟨"wrch.FNUM", 0x1000020000000000, 0xFF00FFFF00000000⟩, by decide, rfl, (OpcodeRows.wrch 2 ch v).trans (by decide)⟩

theorem OpcodeRows.wrchALG (ch : BitVec 8) (v : Value) : OpcodeRows.Statement (.wrchALG ch v) :=
  ⟨⟨"wrch.ALG", 0x1000030000000000, 0xFF00FFFF00000000⟩, by decide, rfl, (OpcodeRows.wrch 3 ch v).trans (by decide)⟩

theorem OpcodeRows.wrchLFO (ch : BitVec 8) (v : Value) : OpcodeRows.Statement (.wrchLFO ch v) :=
  ⟨⟨"wrch.LFO", 0x1000040000000000, 0xFF00FFFF00000000⟩, by decide, rfl, (OpcodeRows.wrch 4 ch v).trans (by decide)⟩

theorem OpcodeRows.wrchPANPOT (ch : BitVec 8) (v : Value) : OpcodeRows.Statement (.wrchPANPOT ch v) :=
  ⟨⟨"wrch.PANPOT", 0x1000050000000000, 0xFF00FFFF00000000⟩, by decide, rfl, (OpcodeRows.wrch 5 ch v).trans (by decide)⟩

theorem OpcodeRows.wrchCHPAN (ch : BitVec 8) (v : Value) : OpcodeRows.Statement (.wrchCHPAN ch v) :=
  ⟨⟨"wrch.CHPAN", 0x1000060000000000, 0xFF00FFFF00000000⟩, by decide, rfl, (OpcodeRows.wrch 6 ch v).trans (by decide)⟩

theorem OpcodeRows.wrchVOLUME (ch : BitVec 8) (v : Value) : OpcodeRows.Statement (.wrchVOLUME ch v) :=
  ⟨⟨"wrch.VOLUME", 0x1000070000000000, 0xFF00FFFF00000000⟩, by decide, rfl, (OpcodeRows.wrch 7 ch v).trans (by decide)⟩

theorem OpcodeRows.wrchEXPRESSION (ch : BitVec 8) (v : Value) : OpcodeRows.Statement (.wrchEXPRESSION ch v) :=
  ⟨⟨"wrch.EXPRESSION", 0x1000080000000000, 0xFF00FFFF00000000⟩, by decide, rfl, (OpcodeRows.wrch 8 ch v).trans (by decide)⟩

theorem OpcodeRows.wrchBO (ch : BitVec 8) (v : Value) : OpcodeRows.Statement (.wrchBO ch v) :=
  ⟨⟨"wrch.BO", 0x1000090000000000, 0xFF00FFFF00000000⟩, by decide, rfl, (OpcodeRows.wrch 9 ch v).trans (by decide)⟩

theorem OpcodeRows.wrchVELOCITY (ch : BitVec 8) (v : Value) : OpcodeRows.Statement (.wrchVELOCITY ch v) :=
  ⟨⟨"wrch.VELOCITY", 0x10000A0000000000, 0xFF00FFFF00000000⟩, by decide, rfl, (OpcodeRows.wrch 10 ch v).trans (by decide)⟩

theorem OpcodeRows.wropEAM (ch : BitVec 8) (op : Fin 4) (v : Value) : OpcodeRows.Statement (.wropEAM ch op v) :=
  ⟨⟨"wrop.EAM", 0x2000000000000000, 0xFF003FFF00000000⟩, by decide, rfl, (OpcodeRows.wrop 2 0 ch _ v).trans (by decide)⟩

theorem OpcodeRows.wropEVB (ch : BitVec 8) (op : Fin 4) (v : Value) : OpcodeRows.Statement (.wropEVB ch op v) :=
  ⟨⟨"wrop.EVB", 0x2000010000000000, 0xFF003FFF00000000⟩, by decide, rfl, (OpcodeRows.wrop 2 1 ch _ v).trans (by decide)⟩

theorem OpcodeRows.wropDAM (ch : BitVec 8) (op : Fin 4) (v : Value) : OpcodeRows.Statement (.wropDAM ch op v) :=
  ⟨⟨"wrop.DAM", 0x2000020000000000, 0xFF003FFF00000000⟩, by decide, rfl, (OpcodeRows.wrop 2 2 ch _ v).trans (by decide)⟩

theorem OpcodeRows.wropDVB (ch : BitVec 8) (op : Fin 4) (v : Value) : OpcodeRows.Statement (.wropDVB ch op v) :=
  ⟨⟨"wrop.DVB", 0x2000030000000000, 0xFF003FFF00000000⟩, by decide, rfl, (OpcodeRows.wrop 2 3 ch _ v).trans (by decide)⟩

theorem OpcodeRows.wropDT (ch : BitVec 8) (op : Fin 4) (v : Value) : OpcodeRows.Statement (.wropDT ch op v) :=
  ⟨⟨"wrop.DT", 0x2000040000000000, 0xFF003FFF00000000⟩, by decide, rfl, (OpcodeRows.wrop 2 4 ch _ v).trans (by decide)⟩

theorem OpcodeRows.wropKSL (ch : BitVec 8) (op : Fin 4) (v : Value) : OpcodeRows.Statement (.wropKSL ch op v) :=
  ⟨⟨"wrop.KSL", 0x2000050000000000, 0xFF003FFF00000000⟩, by decide, rfl, (OpcodeRows.wrop 2 5 ch _ v).trans (by decide)⟩

theorem OpcodeRows.wropKSR (ch : BitVec 8) (op : Fin 4) (v : Value) : OpcodeRows.Statement (.wropKSR ch op v) :=
  ⟨⟨"wrop.KSR", 0x2000060000000000, 0xFF003FFF00000000⟩, by decide, rfl, (OpcodeRows.wrop 2 6 ch _ v).trans (by decide)⟩

theorem OpcodeRows.wropWS (ch : BitVec 8) (op : Fin 4) (v : Value) : OpcodeRows.Statement (.wropWS ch op v) :=
  ⟨⟨"wrop.WS", 0x2000070000000000, 0xFF003FFF00000000⟩, by decide, rfl, (OpcodeRows.wrop 2 7 ch _ v).trans (by decide)⟩

theorem OpcodeRows.wropMULT (ch : BitVec 8) (op : Fin 4) (v : Value) : OpcodeRows.Statement (.wropMULT ch op v) :=
  ⟨⟨"wrop.MULT", 0x2000080000000000, 0xFF003FFF00000000⟩, by decide, rfl, (OpcodeRows.wrop 2 8 ch _ v).trans (by decide)⟩

theorem OpcodeRows.wropFB (ch : BitVec 8) (op : Fin 4) (v : Value) : OpcodeRows.Statement (.wropFB ch op v) :=
  ⟨⟨"wrop.FB", 0x2000090000000000, 0xFF003FFF00000000⟩, by decide, rfl, (OpcodeRows.wrop 2 9 ch _ v).trans (by decide)⟩

theorem OpcodeRows.wropAR (ch : BitVec 8) (op : Fin 4) (v : Value) : OpcodeRows.Statement (.wropAR ch op v) :=
  ⟨⟨"wrop.AR", 0x20000A0000000000, 0xFF003FFF00000000⟩, by decide, rfl, (OpcodeRows.wrop 2 10 ch _ v).trans (by decide)⟩

theorem OpcodeRows.wropDR (ch : BitVec 8) (op : Fin 4) (v : Value) : OpcodeRows.Statement (.wropDR ch op v) :=
  ⟨⟨"wrop.DR", 0x20000B0000000000, 0xFF003FFF00000000⟩, by decide, rfl, (OpcodeRows.wrop 2 11 ch _ v).trans (by decide)⟩

theorem OpcodeRows.wropSL (ch : BitVec 8) (op : Fin 4) (v : Value) : OpcodeRows.Statement (.wropSL ch op v) :=
  ⟨⟨"wrop.SL", 0x20000C0000000000, 0xFF003FFF00000000⟩, by decide, rfl, (OpcodeRows.wrop 2 12 ch _ v).trans (by decide)⟩

theorem OpcodeRows.wropSR (ch : BitVec 8) (op : Fin 4) (v : Value) : OpcodeRows.Statement (.wropSR ch op v) :=
  ⟨⟨"wrop.SR", 0x20000D0000000000, 0xFF003FFF00000000⟩, by decide, rfl, (OpcodeRows.wrop 2 13 ch _ v).trans (by decide)⟩

theorem OpcodeRows.wropRR (ch : BitVec 8) (op : Fin 4) (v : Value) : OpcodeRows.Statement (.wropRR ch op v) :=
  ⟨⟨"wrop.RR", 0x20000E0000000000, 0xFF003FFF00000000⟩, by decide, rfl, (OpcodeRows.wrop 2 14 ch _ v).trans (by decide)⟩

theorem OpcodeRows.wropTL (ch : BitVec 8) (op : Fin 4) (v : Value) : OpcodeRows.Statement (.wropTL ch op v) :=
  ⟨⟨"wrop.TL", 0x20000F0000000000, 0xFF003FFF00000000⟩, by decide, rfl, (OpcodeRows.wrop 2 15 ch _ v).trans (by decide)⟩

theorem OpcodeRows.wropXOF (ch : BitVec 8) (op : Fin 4) (v : Value) : OpcodeRows.Statement (.wropXOF ch op v) :=
  ⟨⟨"wrop.XOF", 0x2000100000000000, 0xFF003FFF00000000⟩, by decide, rfl, (OpcodeRows.wrop 2 16 ch _ v).trans (by decide)⟩

end Sys2Proof.Laws
end

