-- ==== Sys2Proof/Tests/Slice0.lean ====
section
/-! SUPPORT. Tests on the words and vectors of 95_test_vectors.md, under its configuration T0, and for every obligation
with hypotheses a witness that meets them all. -/

namespace Sys2Proof.Tests

open Sys2Proof Sys2Proof.Machine

/-! ### The test configuration and small states -/

/-- T0 of 95_test_vectors.md section 0. -/
def t0 : Config :=
  { sampleRate := .rat 44100, waveBits := 2
    waveTable := fun _ i => match i with
      | 1 => .rat 1
      | 3 => .rat (-1)
      | _ => .rat 0
    phaseRef := 0, phaseConst := .rat (2 ^ 52 * 44100)
    multFactor := fun m => if m = 0 then .rat (1 / 2) else .rat m.toNat
    dtTerm := fun _ _ _ => 0, vibTerm := fun _ _ _ => 0, tremTerm := fun _ _ => .rat 1
    lfoInc := fun l => BitVec.ofNat 64 (l.toNat * 2 ^ 60), lfoBits := 4
    tlCoef := fun t => .rat ((63 - t.toNat) / 63), kslCoef := fun _ _ _ => .rat 1
    fbCoef := fun f => .rat (f.toNat / 8), baseRate := fun _ r => .rat (r.toNat / 15)
    ksrFactor := fun _ _ _ => .rat 1, slLevel := fun s => .rat ((15 - s.toNat) / 15)
    dampRate := .rat 1, egStep := .linear, modMult := .rat (1 / 4), refRate := .rat 44100
    attVolume := fun v => .rat (v.toNat / 127), attExpression := fun v => .rat (v.toNat / 127)
    attVelocity := fun v => .rat (v.toNat / 127)
    panTable := fun i => (.rat (1 - i.toNat / 128), .rat (i.toNat / 128))
    sampleArith := .ideal, infinity64 := pow2 1024
    divByZero := fun x => .rat (plainRat x / 44100), names := plainConfig.names }

/-- A rational in the domains of R6 is compared as a rational. -/
theorem inUnit_rat {c : Config} {q : Rat} (h : 0 ≤ q ∧ q ≤ 1) : InUnit c (.rat q) := by
  simpa [InUnit] using (show (0 : Real) ≤ q ∧ (q : Real) ≤ 1 by exact_mod_cast h)

/-- The value of a sample under the plain names. -/
theorem valueS_plain {c : Config} (h : c.names = plainConfig.names) (x : Sample) : valueS c x = (plainRat x : Rat) := by
  cases x with
  | rat q => rfl
  | named n => simp [valueS, h, plainConfig, plainRat]

/-- The exact quotient by the rate meets what the rules say of a quotient (R57, R93). -/
theorem exactQuotient_legal {c : Config} {q : Rat} (hn : c.names = plainConfig.names) (hr : c.sampleRate = .rat q)
    (hq : 0 < q) (hd : c.divByZero = fun x => .rat (plainRat x / q)) : LegalQuotient c := by
  have hq' : (0 : Real) < q := by exact_mod_cast hq
  have hv : ∀ x, valueS c (c.divByZero x) = valueS c x / q := fun x => by
    rw [hd, valueS_rat, valueS_plain hn x, Rat.cast_div]
  have hs : valueS c c.sampleRate = q := by rw [hr, valueS_rat]
  refine ⟨fun x h => by rw [hv, h, zero_div], fun x h => ?_, fun x h => ?_⟩
  · rw [hv, div_eq_div_iff hq'.ne' two_ne_zero, mul_comm, h, hs, one_mul]
  · rw [hv, one_le_div hq', ← hs]; exact h

theorem nonneg_rat {c : Config} {q : Rat} (h : 0 ≤ q) : 0 ≤ valueS c (.rat q) := by simpa using h

theorem t0_names : LegalNames t0 :=
  { exact := plainNames_legal.exact, rational := plainNames_legal.rational, atMost := plainNames_legal.atMost
    floorOf := plainNames_legal.floorOf, truncOf := plainNames_legal.truncOf
    binary64 := fun h => by cases h
    nearest64 := fun h => by cases h }

/-- The table of T0 is a sine of four samples: 0, 1, 0, −1. -/
theorem t0_sine (i : Nat) (hi : i < 4) :
    valueS t0 (t0.waveTable 0 i) = Real.sin (2 * Real.pi * i / 2 ^ 2) := by
  have h : i = 0 ∨ i = 1 ∨ i = 2 ∨ i = 3 := by omega
  rcases h with rfl | rfl | rfl | rfl
  · simp [t0]
  · rw [show 2 * Real.pi * ((1 : Nat) : Real) / 2 ^ 2 = Real.pi / 2 by push_cast; ring]; simp [t0]
  · rw [show 2 * Real.pi * ((2 : Nat) : Real) / 2 ^ 2 = Real.pi by push_cast; ring]; simp [t0]
  · rw [show 2 * Real.pi * ((3 : Nat) : Real) / 2 ^ 2 = Real.pi / 2 + Real.pi by push_cast; ring, Real.sin_add_pi]
    simp [t0]

/-- T0 meets every domain of R6, as section 0 says. -/
theorem t0_legal : LegalConfig t0 where
  sampleRate := by simp [t0]
  waveBits := by decide
  waveTable := by
    intro _ i _
    simp only [t0]
    split <;> simp
  sine := t0_sine
  phaseConst := by simp [t0]
  multFactor := fun m => by
    simp only [t0]
    split_ifs
    · simp
    · exact nonneg_rat (by positivity)
  dtTerm := fun _ _ => rfl
  tremTerm := fun _ _ => inUnit_rat (by decide)
  lfoBits := ⟨by decide, by decide⟩
  tlCoef := fun t => inUnit_rat (by revert t; decide +kernel)
  kslCoef := fun _ _ _ => inUnit_rat (by decide)
  fbCoef := by simp [t0]
  baseRate := fun _ r => nonneg_rat (by positivity)
  releaseRate := by simp [t0]
  ksrFactor := fun _ _ _ => by simp [t0]
  slLevel := fun s => inUnit_rat (by revert s; decide +kernel)
  dampRate := by simp [t0]
  egStep := trivial
  refRate := by simp [t0]
  attVolume := fun v => nonneg_rat (by positivity)
  attExpression := fun v => nonneg_rat (by positivity)
  attVelocity := fun v => nonneg_rat (by positivity)
  panTable := fun i => ⟨nonneg_rat (by revert i; decide +kernel), nonneg_rat (by positivity)⟩
  infinity64 := le_rfl
  divByZero := exactQuotient_legal rfl rfl (by norm_num) rfl
  names := t0_names

/-- A table of 1024 samples of the exact sine, irrational at 1/8 of a period, belongs to a legal configuration under
each arithmetic (R6, R7, D48). -/
theorem test_exact_sine_is_legal (a : SampleArith) :
    ∃ c, LegalConfig c ∧ c.sampleArith = a ∧ valueS c (c.waveTable 0 128) = Real.sqrt 2 / 2 := by
  obtain ⟨c, hc, hw, ha⟩ := exists_legalConfig (w := 10) (by decide) a
  refine ⟨c, hc, ha, ?_⟩
  rw [hc.sine 128 (by rw [hw]; norm_num), hw, ← Real.sin_pi_div_four]
  congr 1; push_cast; ring

/-- T0 under `binary64` with a rate and a reference rate so small that binary64 rounds both to 0. -/
def slow (ref : Rat) : Config :=
  { t0 with
    sampleArith := .binary64, sampleRate := .rat (pow2 (-1080)), refRate := .rat ref
    divByZero := fun x => .rat (plainRat x / pow2 (-1080)) }

theorem slow_names (ref : Rat) : LegalNames (slow ref) :=
  { exact := plainNames_legal.exact, rational := plainNames_legal.rational, atMost := plainNames_legal.atMost
    floorOf := plainNames_legal.floorOf, truncOf := plainNames_legal.truncOf
    binary64 := fun _ _ => roundBinary64_zero _
    nearest64 := fun _ n q => by
      have h0 : roundBinary64 (slow ref).infinity64 0 = 0 := roundBinary64_zero _
      have hz : (slow ref).names.nearest64 n = 0 := rfl
      rw [hz, show (slow ref).names.value n = ((0 : Rat) : Real) by simp [slow, t0, plainConfig], Rat.cast_le,
        Rat.cast_le]
      exact ⟨fun h => h0 ▸ roundBinary64_mono le_rfl h, fun h => h0 ▸ roundBinary64_mono le_rfl h⟩ }

theorem slow_legal {ref : Rat} (h : 0 < ref) : LegalConfig (slow ref) :=
  { waveBits := t0_legal.waveBits, waveTable := t0_legal.waveTable
    sine := t0_legal.sine, phaseConst := t0_legal.phaseConst, multFactor := t0_legal.multFactor
    dtTerm := t0_legal.dtTerm, tremTerm := t0_legal.tremTerm, lfoBits := t0_legal.lfoBits
    tlCoef := t0_legal.tlCoef, kslCoef := t0_legal.kslCoef, fbCoef := t0_legal.fbCoef
    baseRate := t0_legal.baseRate, releaseRate := t0_legal.releaseRate, ksrFactor := t0_legal.ksrFactor
    slLevel := t0_legal.slLevel, dampRate := t0_legal.dampRate, egStep := trivial
    attVolume := t0_legal.attVolume, attExpression := t0_legal.attExpression, attVelocity := t0_legal.attVelocity
    panTable := t0_legal.panTable, infinity64 := le_rfl
    sampleRate := by simpa [slow] using pow2_pos (-1080)
    refRate := by simpa [slow] using h
    divByZero := exactQuotient_legal rfl rfl (pow2_pos _) rfl
    names := slow_names ref }

/-- binary64 rounds that rate to 0. -/
theorem slow_rate (ref : Rat) : roundS (slow ref) (slow ref).sampleRate = .rat 0 := by
  simp only [slow, roundS, roundRat]
  congr 1
  decide +kernel

/-- A law that holds the level below a rate of 1 and jumps to the target from there on. -/
def jumpLaw : EgLaw := .replacement fun _ level r t => if leS t0 (.rat 1) r then t else level

/-- T0 with that law in place of the linear one: a replacement R55 allows. -/
theorem jumpLaw_legal : LegalConfig { t0 with egStep := jumpLaw } :=
  { sampleRate := t0_legal.sampleRate, waveBits := t0_legal.waveBits, waveTable := t0_legal.waveTable
    sine := t0_legal.sine, phaseConst := t0_legal.phaseConst, multFactor := t0_legal.multFactor
    dtTerm := t0_legal.dtTerm, tremTerm := t0_legal.tremTerm, lfoBits := t0_legal.lfoBits
    tlCoef := t0_legal.tlCoef, kslCoef := t0_legal.kslCoef, fbCoef := t0_legal.fbCoef
    baseRate := t0_legal.baseRate, releaseRate := t0_legal.releaseRate, ksrFactor := t0_legal.ksrFactor
    slLevel := t0_legal.slLevel, dampRate := t0_legal.dampRate, refRate := t0_legal.refRate
    attVolume := t0_legal.attVolume, attExpression := t0_legal.attExpression, attVelocity := t0_legal.attVelocity
    panTable := t0_legal.panTable, infinity64 := t0_legal.infinity64
    divByZero := ⟨t0_legal.divByZero.zero, t0_legal.divByZero.half, t0_legal.divByZero.whole⟩
    names :=
      { exact := t0_names.exact, rational := t0_names.rational, atMost := t0_names.atMost, floorOf := t0_names.floorOf
        truncOf := t0_names.truncOf, binary64 := t0_names.binary64, nearest64 := t0_names.nearest64 }
    egStep := fun st level r t ha => by
      have h1 : leS t0 (.rat 1) r = true ↔ 1 ≤ valueS t0 r := by rw [leS_iff t0_names, valueS_one]
      have hv : ∀ x, valueS { t0 with egStep := jumpLaw } x = valueS t0 x := fun _ => rfl
      constructor <;> simp only [Ahead, hv, InUnit] at ha ⊢ <;> split_ifs at ha ⊢ with h2 h3 <;>
        first | exact le_rfl | exact ha | skip
      all_goals intros
      all_goals first | rfl | (rw [h1] at *; linarith) }

/-- An operator at a stage and level, phase 0, with given registers. -/
def opAt (st : Stage) (l : Rat) (r : OperatorRegs := OperatorRegs.reset) : Operator :=
  { Operator.reset with regs := r, stage := st, level := .rat l }

/-- The registers of voice V (95 section 0): MULT 1, the rest 0. -/
def voiceRegs : OperatorRegs := { OperatorRegs.reset with mult := 1 }

/-- Voice V: Sustain, level 1, phase 0. -/
def voice : Operator := opAt .sustain 1 voiceRegs

/-- The channel of voice V: FNUM 256, BLOCK 2, full volume, centred. -/
def voiceChRegs : ChannelRegs :=
  { ChannelRegs.reset with fnum := 256, block := 2, volume := 127, expression := 127, velocity := 127, chpan := 64,
                           panpot := 15 }

/-- Four operators of one kind under an algorithm. -/
def chOf (alg : BitVec 3) (o : Operator) : Channel :=
  { Channel.reset with regs := { voiceChRegs with alg := alg }, op0 := o, op1 := o, op2 := o, op3 := o }

/-- Feedback state of K4 to K6. -/
def ringing : FeedbackLine := { prev := .rat (1 / 2), curr := .rat (-1 / 2), out := .rat 0 }

/-- A keyed, sounding channel with feedback state. -/
def sounding : Channel :=
  { chOf 1 voice with regs := { voiceChRegs with alg := 1, kon := 1 }, fb1 := ringing, fb3 := ringing, lfoPhase := 5 }

/-- A chip of one channel. -/
def chip1 (ch : Channel) : State := { channels := [ch], frames := [], pending := [] }

/-- The channel numbered j after a command on a chip of one channel. -/
def after (i : Instr) (ch : Channel) : Option Channel :=
  match exec i (chip1 ch) with
  | .next t => t.channels[0]?
  | .fault _ => none
  | .refused _ => none

/-- The same for a delivered word, read through f. -/
def afterWord {α : Type} (w : Word) (f : Channel → α) : Option α :=
  match decodeWord w with
  | .ok i => (after i Channel.reset).map f
  | .error _ => none

/-! ### Words (95 section 2.1; 40 section 6; 41 section 3; 42) -/

theorem test_decode_chip_words :
    decodeWord 0x0000000000000000 = .ok .nop ∧ decodeWord 0x4000000000000000 = .ok .next ∧
    decodeWord 0x3002400000100020 = .ok (.wrtl 2 1 0x10 0x20) ∧
    decodeWord 0x30004000FFFF0040 = .ok (.wrtl 0 1 0xFFFF 0x40) := by decide

theorem test_decode_channel_words :
    decodeWord 0x10000000FFFFFFFF = .ok (.wrchKON 0 (-1)) ∧ decodeWord 0x10000100FFFFFFFF = .ok (.wrchBLOCK 0 (-1)) ∧
    decodeWord 0x1000020000000400 = .ok (.wrchFNUM 0 1024) ∧ decodeWord 0x1002030000000005 = .ok (.wrchALG 2 5) ∧
    decodeWord 0x100004000000000D = .ok (.wrchLFO 0 13) ∧ decodeWord 0x1000050000000028 = .ok (.wrchPANPOT 0 40) ∧
    decodeWord 0x10000600000000C8 = .ok (.wrchCHPAN 0 200) ∧ decodeWord 0x100307000000007F = .ok (.wrchVOLUME 3 127) ∧
    decodeWord 0x10000800000000FF = .ok (.wrchEXPRESSION 0 255) ∧ decodeWord 0x1000090000000005 = .ok (.wrchBO 0 5) ∧
    decodeWord 0x10000A0000000064 = .ok (.wrchVELOCITY 0 100) := by decide

theorem test_decode_operator_words :
    decodeWord 0x2000000000000002 = .ok (.wropEAM 0 0 2) ∧ decodeWord 0x2000410000000003 = .ok (.wropEVB 0 1 3) ∧
    decodeWord 0x2000020000000006 = .ok (.wropDAM 0 0 6) ∧ decodeWord 0x20000300FFFFFFFF = .ok (.wropDVB 0 0 (-1)) ∧
    decodeWord 0x200084000000000D = .ok (.wropDT 0 2 13) ∧ decodeWord 0x2000050000000004 = .ok (.wropKSL 0 0 4) ∧
    decodeWord 0x2000060000000002 = .ok (.wropKSR 0 0 2) ∧ decodeWord 0x2000070000000009 = .ok (.wropWS 0 0 9) ∧
    decodeWord 0x2001C80000000001 = .ok (.wropMULT 1 3 1) ∧ decodeWord 0x2001090000000004 = .ok (.wropFB 1 0 4) ∧
    decodeWord 0x20018A000000000F = .ok (.wropAR 1 2 15) ∧ decodeWord 0x20000B0000000010 = .ok (.wropDR 0 0 16) ∧
    decodeWord 0x20000C0000000010 = .ok (.wropSL 0 0 16) ∧ decodeWord 0x20000D000000001F = .ok (.wropSR 0 0 31) ∧
    decodeWord 0x20014E000000000F = .ok (.wropRR 1 1 15) ∧ decodeWord 0x2001CF000000007F = .ok (.wropTL 1 3 0x7f) ∧
    decodeWord 0x2000100000000002 = .ok (.wropXOF 0 0 2) := by decide

/-- X6 to X12, X14 to X16. -/
theorem test_reserved_words :
    decodeWord 0x5000000000000000 = .error .kind ∧ decodeWord 0x1000400000000001 = .error .unusedField ∧
    decodeWord 0x10000B0000000000 = .error .registerCode ∧ decodeWord 0x2000110000000000 = .error .registerCode ∧
    decodeWord 0x3000010000000000 = .error .unusedField ∧ decodeWord 0x4000000000000001 = .error .unusedField ∧
    decodeWord 0x0000000000000001 = .error .unusedField ∧ decodeWord 0x1000000100000000 = .error .reservedField ∧
    decodeWord 0x1100000000000000 = .error .reservedField ∧
    decodeWord 0x2000200000000000 = .error .reservedField := by decide

theorem test_encode_words :
    encode (.wropTL 1 3 0x7f) = 0x2001CF000000007F ∧ encode (.wrtl 2 3 5 0x3f) = 0x3002C0000005003F ∧
    encode (.wrchKON 0 1) = 0x1000000000000001 ∧ encode .next = 0x4000000000000000 := by decide

theorem test_table_word_is_first_word : decodeTableWord 64 0x1000010000000009 = some (.wrchBLOCK 0 9) := by decide

/-- X13: reserved under N = 4, `wrch 4, KON, 1` with N = 16. -/
theorem test_ill_formed_channel_is_refused :
    ¬ (Instr.wrchKON 4 1).WellFormed 4 ∧ (Instr.wrchKON 4 1).WellFormed 16 ∧
    exec (.wrchKON 4 1) (State.construct 4) = .refused (.reservedChannel 4) := ⟨by decide, by decide, rfl⟩

/-- R52. -/
theorem test_text_form :
    asmLine (.wrchBLOCK 0 9) = "wrch 0, BLOCK, 9" ∧ asmLine (.wropDVB 0 0 (-1)) = "wrop 0, 0, DVB, -1" := by decide

/-! ### Register writes (95 sections 2.2 to 2.4) -/

/-- C1 to C16. -/
theorem test_channel_writes_store :
    afterWord 0x1000010000000009 (·.regs.block) = some 7 ∧ afterWord 0x10000100FFFFFFFF (·.regs.block) = some 0 ∧
    afterWord 0x1000020000000400 (·.regs.fnum) = some 0 ∧ afterWord 0x10000200FFFFFFFF (·.regs.fnum) = some 1023 ∧
    afterWord 0x100004000000000D (·.regs.lfo) = some 5 ∧ afterWord 0x1000050000000028 (·.regs.panpot) = some 31 ∧
    afterWord 0x10000500FFFFFFFB (·.regs.panpot) = some 0 ∧ afterWord 0x10000600000000C8 (·.regs.chpan) = some 127 ∧
    afterWord 0x10000600FFFFFFFF (·.regs.chpan) = some 0 ∧ afterWord 0x1000070000000080 (·.regs.volume) = some 0 ∧
    afterWord 0x10000700FFFFFFFF (·.regs.volume) = some 127 ∧
    afterWord 0x10000800000000FF (·.regs.expression) = some 127 ∧
    afterWord 0x1000090000000005 (·.regs.bo) = some 1 ∧ afterWord 0x10000900FFFFFFFF (·.regs.bo) = some 3 ∧
    afterWord 0x10000A0000000080 (·.regs.velocity) = some 0 ∧
    afterWord 0x10000A0000000064 (·.regs.velocity) = some 100 := by decide +kernel

/-- O1 to O10. -/
theorem test_operator_writes_store :
    afterWord 0x2000000000000002 (·.op0.regs.eam) = some 0 ∧ afterWord 0x20000000FFFFFFFF (·.op0.regs.eam) = some 1 ∧
    afterWord 0x2000410000000003 (·.op1.regs.evb) = some 1 ∧ afterWord 0x2000020000000006 (·.op0.regs.dam) = some 2 ∧
    afterWord 0x20000300FFFFFFFF (·.op0.regs.dvb) = some 3 ∧ afterWord 0x200084000000000D (·.op2.regs.dt) = some 5 ∧
    afterWord 0x2000050000000004 (·.op0.regs.ksl) = some 0 ∧ afterWord 0x2000060000000002 (·.op0.regs.ksr) = some 0 ∧
    afterWord 0x2000070000000009 (·.op0.regs.ws) = some 1 ∧
    afterWord 0x2000080000000010 (·.op0.regs.mult) = some 0 := by decide +kernel

/-- O11 to O20. -/
theorem test_rate_and_level_writes_store :
    afterWord 0x2000090000000008 (·.op0.regs.fb) = some 0 ∧ afterWord 0x20000A0000000010 (·.op0.regs.ar) = some 0 ∧
    afterWord 0x20000B0000000010 (·.op0.regs.dr) = some 0 ∧ afterWord 0x20000C0000000010 (·.op0.regs.sl) = some 0 ∧
    afterWord 0x20000D000000001F (·.op0.regs.sr) = some 15 ∧ afterWord 0x20000E0000000010 (·.op0.regs.rr) = some 0 ∧
    afterWord 0x20000F0000000040 (·.op0.regs.tl) = some 0 ∧ afterWord 0x20004F000000007F (·.op1.regs.tl) = some 0x3f ∧
    afterWord 0x20000F00FFFFFFFF (·.op0.regs.tl) = some 0x3f ∧
    afterWord 0x2000100000000002 (·.op0.regs.xof) = some 0 := by decide +kernel

/-- K1, K3: any nonzero value keys on. -/
theorem test_kon_keys_on :
    (after (.wrchKON 0 (-1)) Channel.reset).map (fun c => (c.regs.kon, c.op0.stage, c.op3.stage, c.op3.level)) =
      some (1, .attack, .attack, .rat 0) := by decide +kernel

/-- K4: key-off of a sounding channel keeps levels and feedback. -/
theorem test_kon_zero_releases :
    (after (.wrchKON 0 0) sounding).map (fun c => (c.regs.kon, c.op0.stage, c.op1.level, c.fb1)) =
      some (0, .release, .rat 1, ringing) := by decide +kernel

/-- K5, C17: the same algorithm again changes nothing. -/
theorem test_alg_same_value_keeps : after (.wrchALG 0 9) sounding = some sounding := by decide +kernel

/-- K6. -/
theorem test_alg_change_resets :
    (after (.wrchALG 0 4) sounding).map (fun c => (c.regs.alg, c.regs.kon, c.isOff, c.fb1, c.op2, c.lfoPhase)) =
      some (4, 1, true, FeedbackLine.zero, opAt .off 0 voiceRegs, 5) := by decide +kernel

/-- L6: which operators of ALG 5 take the carrier value. -/
theorem test_wrtl_selects_under_alg5 :
    (after (.wrtl 0 0 0x10 0x20) (chOf 5 voice)).map (·.op0.regs.tl) = some 0x20 ∧
    (after (.wrtl 0 1 0x10 0x20) (chOf 5 voice)).map (·.op1.regs.tl) = some 0x10 ∧
    (after (.wrtl 0 2 0x10 0x20) (chOf 5 voice)).map (·.op2.regs.tl) = some 0x20 ∧
    (after (.wrtl 0 3 0x10 0x20) (chOf 5 voice)).map (·.op3.regs.tl) = some 0x10 := by decide +kernel

/-- L9, L10: both values are masked. -/
theorem test_wrtl_masks :
    (after (.wrtl 0 1 0xFFFF 0x40) (chOf 0 voice)).map (·.op1.regs.tl) = some 0x3f ∧
    (after (.wrtl 0 0 0xFFFF 0x40) (chOf 0 voice)).map (·.op0.regs.tl) = some 0 := by decide +kernel

/-- H1 to H3 with T0's HOST_VEL_TABLE. -/
theorem test_velocity_mapping :
    velocityTL (fun v => v + 1) 0 63 = 32 ∧ velocityTL (fun v => v + 1) 20 127 = 20 ∧
    velocityTL (fun v => v + 1) 20 0 = 63 := by decide

/-! ### The operator's tick under T0 (95 section 2.5) -/

/-- F1 to F7. -/
theorem test_increment :
    incOf t0 voiceChRegs 1 = 2 ^ 62 ∧ incOf t0 voiceChRegs 0 = 2 ^ 61 ∧
    incOf t0 { voiceChRegs with bo := 1 } 1 = 2 ^ 63 ∧
    incOf t0 { voiceChRegs with fnum := 1023, block := 7, bo := 3 } 15 = 2 ^ 64 - 1 ∧
    incOf t0 { voiceChRegs with fnum := 0, block := 7, bo := 3 } 15 = 0 ∧
    incOf t0 { voiceChRegs with fnum := 3, block := 0 } 0 = 6755399441055744 := by decide +kernel

/-- P1v, P3v: the sum with vibrato is not below 0. -/
theorem test_phase_step :
    (phaseStep t0 voiceChRegs 0 voice).phase = 0x4000000000000000 ∧
    (phaseStep { t0 with vibTerm := fun _ _ _ => -2 ^ 63 } voiceChRegs 0
      (opAt .sustain 1 { voiceRegs with evb := 1 })).phase = 0 := by decide +kernel

/-- M1 to M6. -/
theorem test_phase_offset :
    phaseOffset t0 (.rat (1 / 4)) = 0x4000000000000000 ∧ phaseOffset t0 (.rat (-1 / 4)) = 0xC000000000000000 ∧
    phaseOffset t0 (.rat 1) = 0 ∧ phaseOffset t0 (.rat (3 / 2)) = 0x8000000000000000 ∧
    phaseOffset t0 (.rat (1 / 2 ^ 65)) = 0 ∧ phaseOffset t0 (.rat (-1 / 2 ^ 65)) = 0 := by decide +kernel

/-- W2v, W3v, W6v. -/
theorem test_wave_index :
    waveIndex t0 0x3FFFFFFFFFFFFFFF = 0 ∧ waveIndex t0 0x4000000000000000 = 1 ∧
    waveIndex t0 0xFFFFFFFFFFFFFFFF = 3 := by decide

/-- Y1, Y3, Y5, Y6, Y8, Y9. -/
theorem test_operator_output :
    (opNext t0 voiceChRegs 0 (.rat 0) voice).2 = .rat 1 ∧ (opNext t0 voiceChRegs 0 (.rat (1 / 2)) voice).2 = .rat (-1) ∧
    (opNext t0 voiceChRegs 0 (.rat 0) (opAt .sustain 1 { voiceRegs with tl := 21 })).2 = .rat (2 / 3) ∧
    (opNext { t0 with tremTerm := fun _ _ => .rat (1 / 2) } voiceChRegs 0 (.rat 0)
      (opAt .sustain 1 { voiceRegs with eam := 1 })).2 = .rat (1 / 2) ∧
    (opNext t0 voiceChRegs 0 (.rat 0) (opAt .off 0 voiceRegs)).1.phase = 0x4000000000000000 ∧
    (opNext t0 voiceChRegs 0 (.rat 0) (opAt .attack 0 { voiceRegs with ar := 5 })).2 = .rat (1 / 3) := by decide +kernel

/-- One envelope step: the stage and level after it. -/
def eg (o : Operator) : Stage × Sample := ((egStep t0 voiceChRegs o).stage, (egStep t0 voiceChRegs o).level)

/-- G1, G2, G9, G12. -/
theorem test_attack :
    eg (opAt .attack 0 { voiceRegs with ar := 15 }) = (.decay, .rat 1) ∧
    eg (opAt .attack (1 / 3) { voiceRegs with ar := 5 }) = (.attack, .rat (2 / 3)) ∧
    eg (opAt .attack (1 / 3)) = (.attack, .rat (1 / 3)) ∧
    eg (opAt .attack (1 / 2) { voiceRegs with ar := 10 }) = (.decay, .rat 1) := by decide +kernel

/-- G3, G10, G4, G5. -/
theorem test_decay_and_sustain :
    eg (opAt .decay 1 { voiceRegs with dr := 3, sl := 9 }) = (.decay, .rat (4 / 5)) ∧
    eg (opAt .decay (3 / 5) { voiceRegs with dr := 3, sl := 9 }) = (.sustain, .rat (2 / 5)) ∧
    eg (opAt .decay (1 / 2) { voiceRegs with dr := 15 }) = (.sustain, .rat (1 / 2)) ∧
    eg (opAt .sustain (2 / 5) { voiceRegs with sr := 15, xof := 1 }) = (.sustain, .rat 0) ∧
    eg (opAt .sustain (2 / 5) { voiceRegs with sr := 15 }) = (.sustain, .rat (2 / 5)) := by decide +kernel

/-- G6, G7, G8, G11, G13. -/
theorem test_release_damp_off :
    eg (opAt .release (1 / 2) { voiceRegs with rr := 15 }) = (.off, .rat 0) ∧
    eg (opAt .release (1 / 2) { voiceRegs with rr := 5 }) = (.release, .rat (1 / 6)) ∧
    eg (opAt .release (1 / 2)) = (.release, .rat (1 / 2)) ∧ eg (opAt .damp (1 / 2)) = (.off, .rat 0) ∧
    eg (opAt .off 0) = (.off, .rat 0) := by decide +kernel

/-- R55's corner cases under a replacement law: a Release at rate 0 never ends, one at rate 1 ends in one tick. -/
theorem test_replacement_law_corner_cases :
    (egStep { t0 with egStep := jumpLaw } voiceChRegs (opAt .release (1 / 2))).level = .rat (1 / 2) ∧
    (egStep { t0 with egStep := jumpLaw } voiceChRegs (opAt .release (1 / 2))).stage = .release ∧
    (egStep { t0 with egStep := jumpLaw } voiceChRegs (opAt .release (1 / 2) { voiceRegs with rr := 15 })).level =
      .rat 0 ∧
    (egStep { t0 with egStep := jumpLaw } voiceChRegs (opAt .release (1 / 2) { voiceRegs with rr := 15 })).stage =
      .off := by decide +kernel

/-- KO1 to KO3. -/
theorem test_key_operations :
    keyOnOp { opAt .release (1 / 2) with phase := 3 } = opAt .attack (1 / 2) ∧
    keyOffOp { voice with phase := 7 } = { opAt .release 1 voiceRegs with phase := 7 } ∧
    keyOffOp (opAt .off 0) = opAt .off 0 := by decide +kernel

/-! ### The channel's and the chip's tick under T0 (95 section 2.6) -/

/-- T1 to T8. -/
theorem test_routes :
    (route t0 0 (chOf 0 voice)).res = .rat 0 ∧ (route t0 0 (chOf 1 voice)).res = .rat 2 ∧
    (route t0 0 (chOf 2 voice)).res = .rat 4 ∧ (route t0 0 (chOf 3 voice)).res = .rat 0 ∧
    (route t0 0 (chOf 4 voice)).res = .rat 0 ∧ (route t0 0 (chOf 5 voice)).res = .rat 0 ∧
    (route t0 0 (chOf 6 voice)).res = .rat 2 ∧ (route t0 0 (chOf 7 voice)).res = .rat 2 := by decide +kernel

/-- The channel of the feedback table. -/
def fbChannel (phase : BitVec 64) (line : FeedbackLine) : Channel :=
  { chOf 1 { voice with phase := phase } with
    op0 := { opAt .sustain 1 { voiceRegs with fb := 4 } with phase := phase }, fb1 := line }

/-- Ticks 1 and 2 of the feedback table: the line after tick 1 feeds tick 2. -/
theorem test_feedback_ticks :
    (chNext t0 (fbChannel 0 FeedbackLine.zero)).1.fb1 = ⟨.rat 0, .rat (1 / 2), .rat (1 / 4)⟩ ∧
    (chNext t0 (fbChannel 0x4000000000000000 ⟨.rat 0, .rat (1 / 2), .rat (1 / 4)⟩)).1.fb1 =
      ⟨.rat (1 / 2), .rat (-1 / 2), .rat 0⟩ ∧
    (chNext t0 (fbChannel 0x4000000000000000 ⟨.rat 0, .rat (1 / 2), .rat (1 / 4)⟩)).2 =
      ⟨.rat (-1 / 2), .rat (-1 / 2)⟩ := by decide +kernel

/-- The corner cases of R57 and R93 hold at a rate that binary64 rounds to 0: the increment of FNUM = 0, the blend at
REF_RATE = 2 · SAMPLE_RATE and at REF_RATE = SAMPLE_RATE. -/
theorem test_rate_rounded_to_zero :
    incOf (slow 1) { voiceChRegs with fnum := 0 } 1 = 0 ∧ blendCurr (slow (pow2 (-1079))) = .rat 1 ∧
    blendCurr (slow (pow2 (-1080))) = .rat (1 / 2) := by decide +kernel

/-- B1 to B3. -/
theorem test_blend :
    blendCurr t0 = .rat (1 / 2) ∧ blendPrev { t0 with sampleRate := .rat 88200 } = .rat (3 / 4) ∧
    blendCurr { t0 with sampleRate := .rat 11025 } = .rat 1 := by decide +kernel

/-- Q1 to Q6: PanIndex at CHPAN and PANPOT. -/
theorem test_pan_index :
    panIndexInt { voiceChRegs with chpan := 0, panpot := 0 } = 0 ∧
    panIndexInt { voiceChRegs with chpan := 127, panpot := 31 } = 127 ∧ panIndexInt voiceChRegs = 64 ∧
    panIndexInt { voiceChRegs with chpan := 10, panpot := 14 } = 6 ∧
    panIndexInt { voiceChRegs with chpan := 0, panpot := 31 } = 64 ∧
    panIndexInt { voiceChRegs with chpan := 127, panpot := 0 } = 67 := by decide

/-- Z1, Z2, Z4. -/
theorem test_output_frame :
    frameOf t0 voiceChRegs (.rat 2) = ⟨.rat 1, .rat 1⟩ ∧
    frameOf t0 { voiceChRegs with chpan := 0 } (.rat 2) = ⟨.rat 2, .rat 0⟩ ∧
    frameOf t0 { voiceChRegs with panpot := 31 } (.rat 2) = ⟨.rat (1 / 64), .rat (127 / 64)⟩ := by decide +kernel

/-- E1: operator 1 Off, operator 0 in Attack, LFO 1; nothing but the LFO moves. -/
def early : Channel :=
  { Channel.reset with regs := { ChannelRegs.reset with lfo := 1 }, op0 := opAt .attack 0 { voiceRegs with ar := 5 } }

theorem test_early_exit : chNext t0 early = ({ early with lfoPhase := 0x1000000000000000 }, ⟨.rat 0, .rat 0⟩) := by
  decide +kernel

/-- P5, tick 1: the frames of two channels are added and not clipped. -/
theorem test_mix_is_unclipped :
    (tick t0 { chip1 (chOf 2 voice) with channels := [chOf 2 voice, Channel.reset, chOf 1 voice] }).frames =
      [⟨.rat 3, .rat 3⟩] := by decide +kernel

/-- IEEE 754: 1/10 in binary64 is 3602879701896397 / 2^55; 2^53 + 1 is a tie and goes to even. -/
theorem test_binary64 :
    roundBinary64 (pow2 1024) (1 / 10) = 3602879701896397 / 2 ^ 55 ∧
    roundBinary64 (pow2 1024) (2 ^ 53 + 1) = 2 ^ 53 ∧ roundBinary64 (pow2 1024) (2 ^ 1024 - 1) = pow2 1024 ∧
    roundBinary64 (pow2 1024) (1 / 2 ^ 1075) = 0 := by decide +kernel

/-! ### Witnesses: concrete states and operands that meet the hypotheses of each obligation -/

/-- ALG 0 with the modulator in Release and the carrier Off (K9). -/
def modulatorTail : Channel := { Channel.reset with op0 := opAt .release (1 / 2) }

/-- A chip with one channel and one word pending. -/
def chip1With (ch : Channel) (w : Word) : State := { chip1 ch with pending := [w] }

/-- A good operator: any level in [0, 1] outside Off. -/
theorem good_opAt {c : Config} {st : Stage} {l : Rat} (r : OperatorRegs) (h : 0 ≤ l ∧ l ≤ 1) (hs : st ≠ .off) :
    (opAt st l r).Good c := ⟨(inUnit_rat h).1, (inUnit_rat h).2, fun he => absurd he hs⟩

theorem good_chOf {c : Config} (alg : BitVec 3) {o : Operator} (h : o.Good c) : (chOf alg o).Good c := by
  rw [Channel.Good, forall_op]; exact ⟨h, h, h, h⟩

theorem inv_chip1 {c : Config} {ch : Channel} (h : ch.Good c) (ws : List Word) :
    ({ chip1 ch with pending := ws } : State).Inv c where
  some_channel := le_rfl
  channel_count := by simp [chip1]
  good := by simpa [chip1] using h

theorem good_voice (c : Config) : voice.Good c := good_opAt _ (by decide) (by decide)

/-- X3 decodes. -/
theorem witness_EncodeOfDecodeIsIdentity :
    decodeWord 0x2001CF000000007F = .ok (.wropTL 1 3 0x7f) :=
  by decide

/-- X6 for the first clause; X13, the first channel a chip of four does not have, for the second. -/
theorem witness_ReservedWordsAreRefusedAndIgnored :
    decodeWord 0x5000000000000000 = .error .kind ∧ decodeWord 0x1004000000000001 = .ok (.wrchKON 4 1) ∧
    (Instr.wrchKON 4 1).channel = some 4 ∧ (State.construct 4).channels.length ≤ (4 : BitVec 8).toNat :=
  by decide +kernel

/-- The last channel of a chip of four, and the number after it. -/
theorem witness_WellFormedCommandsComplete :
    (Instr.wrchKON 3 1).WellFormed (State.construct 4).channels.length ∧
    ¬ (Instr.wrchKON 4 1).WellFormed (State.construct 4).channels.length :=
  by decide +kernel

/-- A chip with one command pending, and one with none. -/
theorem witness_StepRunsDecodedCommand :
    ({ State.reset with pending := [0x4000000000000000] } : State).pending = [0x4000000000000000] ∧
    decodeWord 0x4000000000000000 = .ok .next ∧ State.reset.pending = [] :=
  ⟨rfl, by decide, rfl⟩

/-- C1 as a table word. -/
theorem witness_FetchWordIsRunNext :
    decodeTableWord 64 0x1000010000000009 = some (.wrchBLOCK 0 9) :=
  by decide

/-- X12: KIND 0 and not the word 0. -/
theorem witness_NopChangesNothing :
    kindField 0x0000000000000001 = 0 ∧ (1 : Word) ≠ 0 :=
  by decide

/-- On a chip of four: a word for its last channel; KIND 5, which matches no row; X13, the channel after the last. -/
theorem witness_EveryStepCompletesUnlessReserved :
    (∃ t, step { State.construct 4 with pending := [0x1003000000000001] } = .next t) ∧
    (spelledBy 0x1003000000000001).isSome = true ∧ (chField 0x1003000000000001).toNat < 4 ∧
    spelledBy 0x5000000000000000 = none ∧ (spelledBy 0x1004000000000001).isSome = true ∧
    kindField 0x1004000000000001 = 1 ∧ (State.construct 4).channels.length ≤ (chField 0x1004000000000001).toNat :=
  ⟨⟨_, rfl⟩, by decide +kernel, by decide, by decide +kernel, by decide +kernel, by decide, by decide⟩

/-- The whole range of a register: hi = 2^n − 1. -/
theorem witness_StoredValueIsMaskedOrClamped :
    (0 : Int) ≤ 7 ∧ (7 : Int) < 2 ^ 3 :=
  by decide

/-- The first and the last channel after reset. -/
theorem witness_MaskingChannelWritesStoreLowBits :
    State.reset.channels[(0 : BitVec 8).toNat]? = some Channel.reset ∧
    State.reset.channels[(15 : BitVec 8).toNat]? = some Channel.reset :=
  ⟨rfl, rfl⟩

/-- The first and the last channel after reset. -/
theorem witness_SaturatingChannelWritesClamp :
    State.reset.channels[(0 : BitVec 8).toNat]? = some Channel.reset ∧
    State.reset.channels[(15 : BitVec 8).toNat]? = some Channel.reset :=
  ⟨rfl, rfl⟩

/-- The first and the last channel after reset. -/
theorem witness_OneAndTwoBitOperatorWritesMask :
    State.reset.channels[(0 : BitVec 8).toNat]? = some Channel.reset ∧
    State.reset.channels[(15 : BitVec 8).toNat]? = some Channel.reset :=
  ⟨rfl, rfl⟩

/-- The first and the last channel after reset. -/
theorem witness_ThreeAndSixBitOperatorWritesMask :
    State.reset.channels[(0 : BitVec 8).toNat]? = some Channel.reset ∧
    State.reset.channels[(15 : BitVec 8).toNat]? = some Channel.reset :=
  ⟨rfl, rfl⟩

/-- The first and the last channel after reset. -/
theorem witness_FourBitOperatorWritesMask :
    State.reset.channels[(0 : BitVec 8).toNat]? = some Channel.reset ∧
    State.reset.channels[(15 : BitVec 8).toNat]? = some Channel.reset :=
  ⟨rfl, rfl⟩

/-- One state for each clause: keyed, unkeyed, a carrier not Off, every carrier Off with a modulator in Release. -/
theorem witness_KonWriteKeysOnAndOff :
    (chip1 sounding).channels[(0 : BitVec 8).toNat]? = some sounding ∧ (2 : Value) ≠ 0 ∧ sounding.regs.kon = 1 ∧
    (chip1 modulatorTail).channels[(0 : BitVec 8).toNat]? = some modulatorTail ∧ modulatorTail.regs.kon = 0 ∧
    (∃ k, isCarrier sounding.regs.alg k = true ∧ (sounding.op k).stage ≠ .off) ∧
    (∀ k, isCarrier modulatorTail.regs.alg k = true → (modulatorTail.op k).stage = .off) :=
  by decide +kernel

/-- C17 and K6. -/
theorem witness_AlgorithmWriteResetsOnChange :
    (chip1 sounding).channels[(0 : BitVec 8).toNat]? = some sounding ∧
    maskTo 3 (9 : Value).toInt = sounding.regs.alg ∧ maskTo 3 (4 : Value).toInt ≠ sounding.regs.alg :=
  by decide +kernel

/-- A carrier, a modulator, a later ALG write, and X10. -/
theorem witness_WriteTlStoresByCarrierRole :
    (chip1 (chOf 5 voice)).channels[(0 : BitVec 8).toNat]? = some (chOf 5 voice) ∧
    isCarrier (chOf 5 voice).regs.alg 1 = true ∧ isCarrier (chOf 5 voice).regs.alg 0 = false ∧
    (∃ t ch', exec (.wrchALG 0 1) (chip1 (chOf 5 voice)) = .next t ∧ t.channels[0]? = some ch') ∧
    kindField 0x3000010000000000 = 3 ∧ regField 0x3000010000000000 ≠ 0 :=
  ⟨rfl, by decide, by decide, ⟨_, _, rfl, rfl⟩, by decide, by decide⟩

/-- One command of each of the three kinds, on a sounding channel. -/
theorem witness_PlainWritesKeepHiddenState :
    (∃ t ch', Instr.wropFB 0 2 7 ∈ operatorWrites 0 2 7 ∧ exec (.wropFB 0 2 7) (chip1 sounding) = .next t ∧
      (chip1 sounding).channels[0]? = some sounding ∧ t.channels[0]? = some ch') ∧
    (∃ t, Instr.wrchBO 0 3 ∈ plainChannelWrites 0 3 ∧ exec (.wrchBO 0 3) (chip1 sounding) = .next t) ∧
    (∃ t, exec (.wrtl 0 2 1 2) (chip1 sounding) = .next t) :=
  ⟨⟨_, _, by decide, rfl, rfl, rfl⟩, ⟨_, by decide, rfl⟩, ⟨_, rfl⟩⟩

/-- The last register of the last operator. -/
theorem witness_OperatorWritesReachOneOperator :
    ∃ t ch', Instr.wropXOF 0 3 1 ∈ operatorWrites 0 3 1 ∧ exec (.wropXOF 0 3 1) (chip1 sounding) = .next t ∧
      (chip1 sounding).channels[(0 : BitVec 8).toNat]? = some sounding ∧
      t.channels[(0 : BitVec 8).toNat]? = some ch' ∧ (0 : Fin 4) ≠ 3 :=
  ⟨_, _, by decide, rfl, rfl, rfl, by decide⟩

/-- An ALG write, NEXT, and a KON write of each kind. -/
theorem witness_OnlyKonWriteChangesKon :
    (∃ t ch', (∀ c v, Instr.wrchALG 0 4 ≠ .wrchKON c v) ∧ exec (.wrchALG 0 4) (chip1 sounding) = .next t ∧
      (chip1 sounding).channels[0]? = some sounding ∧ t.channels[0]? = some ch') ∧
    (∃ t, (∀ c v, Instr.next ≠ .wrchKON c v) ∧ exec .next (chip1 sounding) = .next t) ∧
    (∃ t ch', exec (.wrchKON 0 0) (chip1 sounding) = .next t ∧ t.channels[(0 : BitVec 8).toNat]? = some ch') ∧
    (∃ t ch', exec (.wrchKON 0 2) (chip1 sounding) = .next t ∧ t.channels[(0 : BitVec 8).toNat]? = some ch') :=
  ⟨⟨_, _, by simp, rfl, rfl, rfl⟩, ⟨_, by simp, rfl⟩, ⟨_, _, rfl, rfl⟩, ⟨_, _, rfl, rfl⟩⟩

/-- Key-off of a sounding channel. -/
theorem witness_RegisterWritesAreIdempotent :
    Instr.wrchKON 0 0 ≠ .next ∧ ∃ t, exec (.wrchKON 0 0) (chip1 sounding) = .next t :=
  ⟨by decide, _, rfl⟩

/-- A tick of a sounding channel. -/
theorem witness_NextWritesNoRegister :
    ∃ t ch', exec .next (chip1 sounding) = .next t ∧ (chip1 sounding).channels[0]? = some sounding ∧
      t.channels[0]? = some ch' :=
  ⟨_, _, rfl, rfl, rfl⟩

/-- Two chips that share channel 0 and nothing else. -/
theorem witness_ChannelsDoNotInteract :
    ∃ t t', (chip1 sounding).channels[0]? =
        ({ chip1 sounding with channels := [sounding, Channel.reset] } : State).channels[0]? ∧
      exec .next (chip1 sounding) = .next t ∧
      exec .next { chip1 sounding with channels := [sounding, Channel.reset] } = .next t' :=
  ⟨_, _, rfl, rfl, rfl⟩

/-- A tick, another command, and T0. -/
theorem witness_LfoAdvancesOnEveryTickOnly :
    (∃ t ch', exec .next (chip1 sounding) = .next t ∧ (chip1 sounding).channels[0]? = some sounding ∧
      t.channels[0]? = some ch') ∧
    (∃ t ch', Instr.wrchLFO 0 7 ≠ .next ∧ exec (.wrchLFO 0 7) (chip1 sounding) = .next t ∧
      (chip1 sounding).channels[0]? = some sounding ∧ t.channels[0]? = some ch') ∧ LegalConfig t0 :=
  ⟨⟨_, _, rfl, rfl, rfl⟩, ⟨_, _, by decide, rfl, rfl, rfl⟩, t0_legal⟩

/-- K9: a modulator still in Release. -/
theorem witness_SilentChannelExitsEarly :
    ∀ k, isCarrier modulatorTail.regs.alg k = true → (modulatorTail.op k).stage = .off :=
  by decide

/-- The same channel on a chip. -/
theorem witness_AllCarriersOffGivesZeroFrame :
    ∀ ch ∈ (chip1 modulatorTail).channels, ch.isOff = true :=
  by decide +kernel

/-- A NEXT pending on a chip at construction. -/
theorem witness_SilenceLastsUntilKeyOn :
    ∃ t, (chip1With Channel.reset 0x4000000000000000).AllOff ∧
      step (chip1With Channel.reset 0x4000000000000000) = .next t ∧
      ∀ (w : Word) (rest : List Word) (i : Instr),
        (chip1With Channel.reset 0x4000000000000000).pending = w :: rest → decodeWord w = .ok i → keysOn i = false :=
  ⟨_, by intro ch hch k; simp [chip1With, chip1] at hch; subst hch; fin_cases k <;> rfl, rfl, fun w rest i h hd => by
    simp only [chip1With, List.cons.injEq] at h
    rw [← h.1] at hd; cases hd; rfl⟩

/-- A NEXT and a key-off of channel 0 on a chip of one channel. -/
theorem witness_ConstructionIsSilentUntilKeyOn :
    Channel.reset ∈ (State.construct 1).channels ∧
    (∀ w ∈ ([0x4000000000000000, 0x1000000000000000] : List Word), ∀ i, decodeWord w = .ok i → keysOn i = false) ∧
    ∃ t, runWords [0x4000000000000000, 0x1000000000000000] (State.construct 1) = .next t :=
  ⟨by simp [State.construct], by
    intro w hw i hd
    simp only [List.mem_cons, List.not_mem_nil, or_false] at hw
    rcases hw with rfl | rfl <;> (cases hd; rfl), _, rfl⟩

/-- NEXT, a command that is not NEXT, a run of both, and a run with a reserved word. -/
theorem witness_OutputStreamOnlyGrows :
    (∃ t, exec .next (chip1 sounding) = .next t) ∧ Instr.nop ≠ .next ∧
    exec .nop (chip1 sounding) = .next (chip1 sounding) ∧
    (∃ o, observe [0x4000000000000000, 0x1000000000000000] (chip1 sounding) = some o) ∧
    observe [0x4000000000000000, 0x1001000000000000] (chip1 sounding) = none :=
  ⟨⟨_, rfl⟩, by decide, rfl, ⟨_, rfl⟩, rfl⟩

/-- A NEXT pending on a chip of voices. -/
theorem witness_EnvelopeInvariantKeptByEveryStep :
    ∃ t, (chip1With (chOf 2 voice) 0x4000000000000000).Inv chip ∧
      step (chip1With (chOf 2 voice) 0x4000000000000000) = .next t :=
  ⟨_, inv_chip1 (good_chOf 2 (good_voice chip)) _, rfl⟩

/-- The smallest and the largest chip. -/
theorem witness_EnvelopeInvariantAtConstruction :
    1 ≤ 1 ∧ 1 ≤ 256 ∧ 256 ≤ 256 :=
  by decide

/-- Levels 0 and 1 are values of any arithmetic. -/
theorem representable_opAt (c : Config) (st : Stage) {l : Rat} (r : OperatorRegs) (h : l = 0 ∨ l = 1) :
    (opAt st l r).Representable c := by
  intro _; rcases h with rfl | rfl <;> simp [opAt]

theorem representable_chip1 {c : Config} (alg : BitVec 3) {o : Operator} (h : o.Representable c) (w : Word) :
    (chip1With (chOf alg o) w).Representable c := by
  intro ch hch
  simp only [chip1With, chip1, List.mem_singleton] at hch
  subst hch
  rw [forall_op]
  exact ⟨h, h, h, h⟩

/-- A NEXT pending on a chip of voices at level 1. -/
theorem witness_LevelsStayRepresentable :
    ∃ t, (chip1With (chOf 2 voice) 0x4000000000000000).Representable chip ∧
      step (chip1With (chOf 2 voice) 0x4000000000000000) = .next t :=
  ⟨_, representable_chip1 2 (representable_opAt _ _ _ (.inr rfl)) _, rfl⟩

/-- A step that keeps the stage, with the operator in Attack, in Sustain, and in Damp. -/
theorem witness_LevelIsMonotonicWithinAStageAndDampIsNotEntered :
    (∃ t ch', (chip1With (chOf 2 (opAt .attack 0)) 0x0000000000000000).Inv chip ∧
      (chip1With (chOf 2 (opAt .attack 0)) 0x0000000000000000).Representable chip ∧
      step (chip1With (chOf 2 (opAt .attack 0)) 0x0000000000000000) = .next t ∧
      t.channels[0]? = some ch' ∧ ch'.op0.stage = .attack) ∧
    (∃ t ch', (chip1With (chOf 2 voice) 0x0000000000000000).Inv chip ∧
      (chip1With (chOf 2 voice) 0x0000000000000000).Representable chip ∧
      step (chip1With (chOf 2 voice) 0x0000000000000000) = .next t ∧
      t.channels[0]? = some ch' ∧ ch'.op0.stage = .sustain) ∧
    (∃ t ch', step (chip1With (chOf 2 (opAt .damp 1)) 0x0000000000000000) = .next t ∧
      t.channels[0]? = some ch' ∧ ch'.op0.stage = .damp) :=
  ⟨⟨_, _, inv_chip1 (good_chOf 2 (good_opAt _ (by decide) (by decide))) _,
      representable_chip1 2 (representable_opAt _ _ _ (.inl rfl)) _, rfl, rfl, rfl⟩,
    ⟨_, _, inv_chip1 (good_chOf 2 (good_voice chip)) _, representable_chip1 2 (representable_opAt _ _ _ (.inr rfl)) _,
      rfl, rfl, rfl⟩, ⟨_, _, rfl, rfl, rfl⟩⟩

/-- A chip of one channel. -/
theorem witness_ConstructionGivesResetState :
    Channel.reset ∈ (State.construct 1).channels :=
  by simp [State.construct]

/-- Two channels that differ in a modulator stage. -/
theorem witness_IsOffReadsTheCarrierStagesOnly :
    modulatorTail.regs.alg = Channel.reset.regs.alg ∧
    ∀ k, isCarrier modulatorTail.regs.alg k = true → (modulatorTail.op k).stage = (Channel.reset.op k).stage :=
  by decide

/-- One operator for each clause. -/
theorem witness_KeyOffOfAnOperator :
    Operator.reset.stage = .off ∧ voice.stage ≠ .off :=
  by decide

/-- The neutral PANPOT. -/
theorem witness_PanIndexSaturates :
    voiceChRegs.panpot = 15 :=
  rfl

/-- T0 and FB = 0. -/
theorem witness_FeedbackCoefficientIsZeroAtFbZero :
    LegalConfig t0 ∧ t0.sampleArith = .ideal ∧ voiceRegs.fb = 0 :=
  ⟨t0_legal, rfl, rfl⟩

/-- A channel that is off; one that is not, under ALG 2 and under ALG 1, for operators of each kind. -/
theorem witness_TickAdvancesEachEvaluatedOperatorOnce :
    Channel.reset.isOff = true ∧ (chOf 2 voice).isOff = false ∧ (chOf 2 voice).regs.alg ≠ 0 ∧
    (chOf 2 voice).regs.alg ≠ 1 ∧ (chOf 1 voice).isOff = false ∧ (chOf 1 voice).regs.alg = 1 := by decide +kernel

/-- T0, and for each clause on a rate that rounds to 0 a legal configuration at its boundary. -/
theorem witness_BlendCoefficientsSumToOne :
    let twice := slow (pow2 (-1079))
    let once := slow (pow2 (-1080))
    (LegalConfig t0 ∧ t0.sampleArith = .ideal) ∧
    (LegalConfig twice ∧ valueS twice (roundS twice twice.sampleRate) = 0 ∧
      2 * valueS twice twice.sampleRate ≤ valueS twice twice.refRate) ∧
    (LegalConfig once ∧ valueS once (roundS once once.sampleRate) = 0 ∧
      valueS once once.sampleRate = valueS once once.refRate) := by
  refine ⟨⟨t0_legal, rfl⟩, ⟨slow_legal (pow2_pos _), by rw [slow_rate, valueS_zero], ?_⟩,
    slow_legal (pow2_pos _), by rw [slow_rate, valueS_zero], rfl⟩
  simp only [slow, valueS_rat]
  rw [show (-1079 : Int) = -1080 + 1 by norm_num, pow2_succ]; push_cast; exact le_rfl

/-- T0 and FNUM = 0; a MULT_FACTOR of 0; a legal configuration whose rate rounds to 0. -/
theorem witness_IncrementIsTheSaturatedFloor :
    (LegalConfig t0 ∧ t0.sampleArith = .ideal ∧ ChannelRegs.reset.fnum = 0 ∧
      t0.dtTerm OperatorRegs.reset.dt ChannelRegs.reset.block ChannelRegs.reset.fnum = 0 ∧
      OperatorRegs.reset.evb = 0) ∧
    LegalConfig (slow 1) :=
  ⟨⟨t0_legal, rfl, rfl, rfl, rfl⟩, slow_legal one_pos⟩

/-- T0, with an input for each clause: 1/4 and 5/4, −1/4 and −5/4, M6. -/
theorem witness_PhaseOffsetWrapsAtWholePeriods :
    LegalConfig t0 ∧ t0.sampleArith = .ideal ∧
    (0 ≤ valueS t0 (.rat (1 / 4)) ∧ valueS t0 (.rat (5 / 4)) = valueS t0 (.rat (1 / 4)) + 1) ∧
    (valueS t0 (.rat (-1 / 4)) ≤ 0 ∧ valueS t0 (.rat (-5 / 4)) = valueS t0 (.rat (-1 / 4)) - 1) ∧
    |valueS t0 (.rat (-1 / 2 ^ 65))| < 1 / 2 ^ 64 ∧ valueS t0 (.rat (1 / 4)) = 1 / 4 ∧
    valueS t0 (.rat (-1 / 4)) = -1 / 4 :=
  ⟨t0_legal, rfl, by norm_num, by norm_num, by rw [valueS_rat, abs_lt]; norm_num, by norm_num, by norm_num⟩

/-- T0; its last index. -/
theorem witness_WaveIndexIsTheTopBits :
    LegalConfig t0 ∧ 3 < 2 ^ t0.waveBits :=
  ⟨t0_legal, by decide⟩

/-- T0; a voice at level 1 with and without tremolo, and an operator in Off. -/
theorem witness_OperatorOutputIsWaveTimesAmplitude :
    LegalConfig t0 ∧ t0.sampleArith = .ideal ∧ voice.Good t0 ∧ voice.regs.eam = 0 ∧
    (opAt .sustain 1 { voiceRegs with eam := 1 }).regs.eam = 1 ∧ (opAt .off 0).Good t0 ∧ (opAt .off 0).stage = .off :=
  ⟨t0_legal, rfl, good_voice t0, rfl, rfl, resetOp_good t0 Operator.reset, rfl⟩

/-- T0; an operator for each clause: G1 and G2 (Attack), above and at the target (Decay), XOF 1 and 0 (Sustain),
Release to 0 and short of it, Damp. -/
theorem witness_EnvelopeStepInEachStage :
    LegalConfig t0 ∧ t0.egStep = .linear ∧ t0.sampleArith = .ideal ∧ (opAt .off 0).stage = .off ∧
    addS t0 (.rat 0) (rateOf t0 voiceChRegs (opAt .attack 0 { voiceRegs with ar := 15 })) = .rat 1 ∧
    addS t0 (.rat 0) (rateOf t0 voiceChRegs (opAt .attack 0 { voiceRegs with ar := 5 })) = .rat (1 / 3) ∧
    roundS t0 (t0.slLevel 9) = .rat (2 / 5) ∧ (opAt .decay 1).level = .rat 1 ∧ (opAt .decay 0).level = .rat 0 ∧
    (opAt .sustain 1 { voiceRegs with xof := 1 }).regs.xof = 1 ∧ (opAt .sustain 1).regs.xof = 0 ∧
    subS t0 (.rat 1) (rateOf t0 voiceChRegs (opAt .release 1 { voiceRegs with rr := 15 })) = .rat 0 ∧
    subS t0 (.rat 1) (rateOf t0 voiceChRegs (opAt .release 1 { voiceRegs with rr := 5 })) = .rat (2 / 3) ∧
    (opAt .damp 1).stage = .damp :=
  ⟨t0_legal, rfl, rfl, by decide +kernel⟩

/-- T0 and T0 with the replacement law: for the clauses on every law, an operator at rate 0 and one at rate 1. -/
theorem witness_EnvelopeStepInEachStage_every_law :
    LegalConfig t0 ∧ LegalConfig { t0 with egStep := jumpLaw } ∧
    (∀ st r, st ≠ .off → (opAt st (1 / 2) r).Good t0 ∧ (opAt st (1 / 2) r).Representable t0) ∧
    (∀ st r, st ≠ .off → (opAt st (1 / 2) r).Good { t0 with egStep := jumpLaw } ∧
      (opAt st (1 / 2) r).Representable { t0 with egStep := jumpLaw }) ∧
    (∀ st ∈ [Stage.attack, .decay, .sustain, .release], rateOf t0 voiceChRegs (opAt st (1 / 2)) = .rat 0) ∧
    (∀ st ∈ [Stage.attack, .decay, .sustain, .release, .damp], rateOf t0 voiceChRegs
      (opAt st (1 / 2) { voiceRegs with ar := 15, dr := 15, sr := 15, rr := 15, sl := 9, xof := 1 }) = .rat 1) ∧
    roundS t0 (t0.slLevel 9) = .rat (2 / 5) :=
  ⟨t0_legal, jumpLaw_legal, fun _ r h => ⟨good_opAt r (by decide +kernel) h, fun _ => roundS_ideal rfl _⟩,
    fun _ r h => ⟨good_opAt r (by decide +kernel) h, fun hl => by cases hl⟩, by decide +kernel⟩

/-- A channel of each algorithm. -/
theorem witness_AlgorithmsEvaluateTheirOperators :
    ∀ a : BitVec 3, (chOf a voice).regs.alg = a :=
  fun _ => rfl

/-- A tick under ALG 0 and ALG 1. -/
theorem witness_UnnamedOperatorsAreFrozen :
    (∃ t ch', exec .next (chip1 (chOf 0 voice)) = .next t ∧ t.channels[0]? = some ch' ∧ (chOf 0 voice).regs.alg = 0) ∧
    (∃ t ch', exec .next (chip1 (chOf 1 voice)) = .next t ∧ t.channels[0]? = some ch' ∧ (chOf 1 voice).regs.alg = 1) :=
  ⟨⟨_, _, rfl, rfl, rfl⟩, ⟨_, _, rfl, rfl, rfl⟩⟩

/-- T0: a sounding channel with FB = 4 in operators 0 and 2 under ALG 2, so both lines are updated; the same under
ALG 1; FB = 0; and a channel that is off. -/
theorem witness_FeedbackLineUpdates :
    LegalConfig t0 ∧ valueS t0 (fbCoefOf t0 { voiceRegs with fb := 4 }) ≠ 0 ∧ valueS t0 (fbCoefOf t0 voiceRegs) = 0 ∧
    (chOf 2 (opAt .sustain 1 { voiceRegs with fb := 4 })).isOff = false ∧
    (chOf 2 (opAt .sustain 1 { voiceRegs with fb := 4 })).regs.alg = 2 ∧
    (∃ ch', (tick t0 (chip1 (chOf 2 (opAt .sustain 1 { voiceRegs with fb := 4 })))).channels[0]? = some ch' ∧
      ch'.fb1 ≠ FeedbackLine.zero ∧ ch'.fb3 ≠ FeedbackLine.zero) ∧
    (chOf 1 voice).regs.alg ≠ 2 ∧ (chOf 1 voice).regs.alg ≠ 5 ∧ Channel.reset.isOff = true := by
  refine ⟨t0_legal, ?_, ?_, by decide +kernel, rfl, ⟨_, rfl, by decide +kernel, by decide +kernel⟩, by decide,
    by decide, by decide⟩ <;> rw [fbCoefOf, roundS_ideal rfl] <;> simp [t0, voiceRegs, OperatorRegs.reset]

/-- T0 and a channel that is not off. -/
theorem witness_ChannelFrameIsAttenuatedAndPanned :
    LegalConfig t0 ∧ (chOf 1 voice).isOff = false ∧ t0.sampleArith = .ideal :=
  ⟨t0_legal, by decide, rfl⟩

/-- A sounding channel, and the key-on value 2. -/
theorem witness_RetriggerRestartsFromCurrentLevel :
    (chip1 sounding).channels[(0 : BitVec 8).toNat]? = some sounding ∧ (2 : Value) ≠ 0 ∧ sounding.isOff = false :=
  by decide +kernel

/-- K6, then K7. -/
theorem witness_KeyedChannelIsDeafAfterAlgorithmChange :
    ∃ t, (chip1 sounding).channels[(0 : BitVec 8).toNat]? = some sounding ∧ sounding.regs.kon = 1 ∧
      maskTo 3 (4 : Value).toInt ≠ sounding.regs.alg ∧ (1 : Value) ≠ 0 ∧
      exec (.wrchALG 0 4) (chip1 sounding) = .next t :=
  ⟨_, rfl, by decide, by decide, by decide, rfl⟩

/-- T0 and a channel of voices. -/
theorem witness_KilledChannelIsOffAfterOneTick :
    (chip1 (chOf 2 voice)).channels[(0 : BitVec 8).toNat]? = some (chOf 2 voice) ∧ LegalConfig t0 ∧
    (chOf 2 voice).Good t0 :=
  ⟨rfl, t0_legal, good_chOf 2 (good_voice t0)⟩

/-- A chip of one channel of voices, and that channel. -/
theorem witness_SilenceReachesEveryChannel :
    (chip1 (chOf 2 voice)).Inv t0 ∧ (chip1 (chOf 2 voice)).channels[0]? = some (chOf 2 voice) :=
  ⟨inv_chip1 (good_chOf 2 (good_voice t0)) [], rfl⟩

/-- T0 and a channel in Release at level 1 with the registers of silence. -/
theorem witness_SilencedChipEmitsZeroFrame :
    ∃ ch : Channel, LegalConfig t0 ∧ (chip1 ch).Inv t0 ∧ (∀ x ∈ (chip1 ch).channels, x.Silenced) ∧ ch.isOff = false :=
  ⟨chOf 2 (opAt .release 1 { voiceRegs with tl := 0x3f, ar := 15, dr := 15, rr := 15 }), t0_legal,
    inv_chip1 (good_chOf 2 (good_opAt _ (by decide) (by decide))) [], by
    intro x hx
    simp only [chip1, List.mem_singleton] at hx
    subst hx
    exact ⟨rfl, by decide +kernel, by decide +kernel, by decide +kernel, by decide +kernel, by decide +kernel⟩,
    by decide +kernel⟩

/-- T0; an operator in each stage, with RR = 15 in Release, and the entry 0 of the table. -/
theorem witness_RateIsTheCaseTable :
    LegalConfig t0 ∧ t0.sampleArith = .ideal ∧ (∀ st, (opAt st 0).stage = st) ∧
    (opAt .release 1 { voiceRegs with rr := 15 }).regs.rr = 15 ∧ valueS t0 (t0.baseRate .releaseRate 0) = 0 :=
  ⟨t0_legal, rfl, fun _ => rfl, rfl, by simp [t0]⟩

end Sys2Proof.Tests
end

/-! SUPPORT. The statements of 10_state.md: the writer of KON (R12), carrier sets and `isOff` (R20, R22), the pan index
(R28). -/

namespace Sys2Proof.Machine

/-! ### The KON register (R12) -/

/-- A command's value is 0 as a signed integer only when its word is 0 (R46). -/
theorem toInt_eq_zero_iff (v : Value) : v.toInt = 0 ↔ v = 0 :=
  BitVec.toInt_inj (y := 0)

/-- What a KON write leaves, whatever the branch of R96 it takes. -/
theorem setKon_kon (v : Int) (ch : Channel) : (setKon v ch).regs.kon = if v = 0 then 0 else 1 := by
  by_cases hv : v = 0
  · subst hv
    rw [setKon_zero, if_pos rfl]
    split_ifs <;> rfl
  · simp only [setKon, if_pos hv, if_neg hv]
    split_ifs with hk
    · exact hk
    · rfl

/-- The reset before a changed algorithm writes no register (R95, R99). -/
theorem setAlg_regs (v : Int) (ch : Channel) : (setAlg v ch).regs = { ch.regs with alg := maskTo 3 v } := by
  simp only [setAlg]
  split_ifs <;> rfl

theorem channelEdit_kon {i : Instr} (hi : ∀ c v, i ≠ .wrchKON c v) (ch : Channel) :
    (channelEdit i ch).regs.kon = ch.regs.kon := by
  cases i
  case wrchKON c v => exact absurd rfl (hi c v)
  case wrchALG c v => simp only [channelEdit, setAlg_regs]
  all_goals simp only [channelEdit, Channel.setOp_regs]

/-- No command but a KON write changes a KON register. -/
theorem exec_kon {i : Instr} (hi : ∀ c v, i ≠ .wrchKON c v) {s t : State} (he : exec i s = .next t) {j : Nat}
    {ch ch' : Channel} (h : s.channels[j]? = some ch) (h' : t.channels[j]? = some ch') :
    ch'.regs.kon = ch.regs.kon := by
  cases hc : i.channel with
  | some c =>
    rcases exec_getElem? hc he h h' with ⟨-, rfl⟩ | ⟨-, rfl⟩
    · exact channelEdit_kon hi ch
    · rfl
  | none =>
    rcases exec_next he with ⟨-, rfl⟩ | ⟨-, rfl⟩ | ⟨c, -, hn, -⟩
    · rw [h] at h'; cases h'; rfl
    · rw [tick_getElem? h h', chNext_regs]
    · rw [hc] at hn; cases hn

/-- The channel a command on it leaves is its edit. -/
theorem exec_named_channel {i : Instr} {c : BitVec 8} (hc : i.channel = some c) {s t : State} (he : exec i s = .next t)
    {ch' : Channel} (h' : t.channels[c.toNat]? = some ch') : ∃ ch, ch' = channelEdit i ch := by
  rw [exec_eq_onChannel hc] at he
  obtain ⟨ch, hch, rfl⟩ := onChannel_next he
  rw [setChannel_getElem? hch, if_pos rfl] at h'
  cases h'
  exact ⟨ch, rfl⟩

/-- Settles O22: a command other than a KON write edits no KON bit, a tick writes no register, and `setKon` leaves the
bit its value asks for. -/
theorem onlyKonWriteChangesKon : Obligations.OnlyKonWriteChangesKon := by
  refine ⟨fun i s t hi he j ch ch' h h' => exec_kon hi he h h', fun c v s t ch' he h' => ?_⟩
  obtain ⟨ch, rfl⟩ := exec_named_channel rfl he h'
  simp only [channelEdit, setKon_kon, toInt_eq_zero_iff]

/-! ### Carriers and `isOff` (R20, R22) -/

theorem isCarrier_iff (a : BitVec 3) (k : Fin 4) : isCarrier a k = true ↔ k ∈ carriers a :=
  List.contains_iff_mem

/-- Settles O38: the eight rows are the definition's own, and `isCarrier` is membership in the row. -/
theorem carrierSetsOfTheAlgorithms : Obligations.CarrierSetsOfTheAlgorithms :=
  ⟨rfl, rfl, rfl, rfl, rfl, rfl, rfl, rfl, isCarrier_iff⟩

/-- `isOff` depends on the algorithm and the stages of its carriers alone. -/
theorem Channel.isOff_congr_carriers {a b : Channel} (hr : a.regs.alg = b.regs.alg)
    (hs : ∀ k, isCarrier a.regs.alg k = true → (a.op k).stage = (b.op k).stage) : a.isOff = b.isOff := by
  rw [Bool.eq_iff_iff, Channel.isOff_iff, Channel.isOff_iff, ← hr]
  exact forall₂_congr fun k hk => by rw [hs k hk]

/-- Settles O39, by `isOff` read as a statement about the carriers. -/
theorem isOffReadsTheCarrierStagesOnly : Obligations.IsOffReadsTheCarrierStagesOnly :=
  ⟨Channel.isOff_iff, fun _ _ => Channel.isOff_congr_carriers⟩

/-! ### The pan index (R28) -/

theorem panIndexInt_nonneg (r : ChannelRegs) : 0 ≤ panIndexInt r :=
  le_min (by decide) (le_max_left _ _)

theorem panIndexInt_le (r : ChannelRegs) : panIndexInt r ≤ 127 :=
  min_le_left _ _

/-- The 7 bits of the table's index hold the clamped integer without wrapping. -/
theorem panIndex_toNat (r : ChannelRegs) : ((panIndex r).toNat : Int) = panIndexInt r := by
  have h0 := panIndexInt_nonneg r
  have h1 := panIndexInt_le r
  rw [panIndex, BitVec.toNat_ofInt]
  omega

/-- A neutral PANPOT adds nothing, and CHPAN lies in the range already. -/
theorem panIndexInt_neutral {r : ChannelRegs} (h : r.panpot = 15) : panIndexInt r = r.chpan.toNat := by
  have hp : r.panpot.toNat = 15 := by rw [h]; rfl
  have hc := r.chpan.isLt
  simp only [panIndexInt, hp]
  omega

theorem panIndex_neutral {r : ChannelRegs} (h : r.panpot = 15) : panIndex r = r.chpan := by
  rw [panIndex, panIndexInt_neutral h, BitVec.ofInt_natCast, BitVec.ofNat_toNat, BitVec.setWidth_eq]

/-- Settles O42: the clamp bounds the integer, so 7 bits hold it, and it leaves CHPAN alone at PANPOT = 15. -/
theorem panIndexSaturates : Obligations.PanIndexSaturates :=
  fun r => ⟨rfl, panIndexInt_nonneg r, panIndexInt_le r, panIndex_toNat r, panIndex_neutral⟩

end Sys2Proof.Machine

/-! SUPPORT. The statements of 30_encoding.md: the decoder against the opcode map (R48), and reserved words (R50). -/

namespace Sys2Proof.Machine

/-! ### A word under a row's mask (R43, R48) -/

/-- R47 for the fields no command uses. -/
def rsvClear (w : Word) : Bool := rsv0Field w = 0 ∧ rsv1Field w = 0 ∧ rsv2Field w = 0

/-- R47 for the fields `NOP` and `NEXT` do not use. -/
def operandsClear (w : Word) : Bool := chField w = 0 ∧ opField w = 0 ∧ regField w = 0 ∧ valueField w = 0

theorem rsvClear_iff (w : Word) : rsvClear w ↔ rsv0Field w = 0 ∧ rsv1Field w = 0 ∧ rsv2Field w = 0 :=
  decide_eq_true_iff

theorem operandsClear_iff (w : Word) :
    operandsClear w ↔ chField w = 0 ∧ opField w = 0 ∧ regField w = 0 ∧ valueField w = 0 :=
  decide_eq_true_iff

/-- Every mask of R48 keeps KIND, REG and the reserved fields; what it keeps of CH, OP and VALUE is left open here. -/
theorem and_mask_eq_iff (w : Word) (c : BitVec 8) (o : BitVec 2) (v : Value) (kind : BitVec 4) (reg : BitVec 5) :
    w &&& wordOfFields 15 15 c o 1 31 255 v = commandWord kind 0 0 reg 0 ↔
      rsvClear w ∧ kindField w = kind ∧ regField w = reg ∧
        chField w &&& c = 0 ∧ opField w &&& o = 0 ∧ valueField w &&& v = 0 := by
  have hw : w &&& wordOfFields 15 15 c o 1 31 255 v =
      wordOfFields (kindField w) (rsv0Field w) (chField w &&& c) (opField w &&& o) (rsv1Field w) (regField w)
        (rsv2Field w) (valueField w &&& v) := by
    conv_lhs => rw [← wordOfFields_fields w, wordOfFields_and]
    congr 1 <;> exact Laws.OpcodeRows.and_all _ _
  rw [hw, rsvClear_iff]
  constructor
  · intro h
    refine ⟨⟨?_, ?_, ?_⟩, ?_, ?_, ?_, ?_, ?_⟩
    · simpa [commandWord] using congrArg rsv0Field h
    · simpa [commandWord] using congrArg rsv1Field h
    · simpa [commandWord] using congrArg rsv2Field h
    · simpa [commandWord] using congrArg kindField h
    · simpa [commandWord] using congrArg regField h
    · simpa [commandWord] using congrArg chField h
    · simpa [commandWord] using congrArg opField h
    · simpa [commandWord] using congrArg valueField h
  · rintro ⟨⟨h0, h1, h2⟩, hk, hr, hc, ho, hv⟩
    rw [h0, h1, h2, hk, hr, hc, ho, hv, commandWord]

/-- The masks of `NOP` and `NEXT` keep every field. -/
theorem and_chipMask_eq_iff (w : Word) (kind : BitVec 4) :
    w &&& 0xFFFFFFFFFFFFFFFF = commandWord kind 0 0 0 0 ↔
      rsvClear w ∧ kindField w = kind ∧ operandsClear w := by
  have hm : (0xFFFFFFFFFFFFFFFF : Word) =
      wordOfFields 15 15 (BitVec.allOnes 8) (BitVec.allOnes 2) 1 31 255 (BitVec.allOnes 32) := by decide
  rw [hm, and_mask_eq_iff, operandsClear_iff]
  simp only [BitVec.and_allOnes]
  tauto

/-- The mask of the `WRITE_CHANNEL` rows leaves CH and VALUE free. -/
theorem and_wrchMask_eq_iff (w : Word) (reg : BitVec 5) :
    w &&& 0xFF00FFFF00000000 = commandWord 1 0 0 reg 0 ↔
      (rsvClear w ∧ kindField w = 1 ∧ opField w = 0) ∧ regField w = reg := by
  have hm : (0xFF00FFFF00000000 : Word) = wordOfFields 15 15 0 (BitVec.allOnes 2) 1 31 255 0 := by decide
  rw [hm, and_mask_eq_iff, BitVec.and_allOnes]
  simp only [BitVec.ofNat_eq_ofNat, BitVec.and_zero]
  tauto

/-- The mask of the `WRITE_OPERATOR` and `WRITE_TL` rows leaves OP free as well. -/
theorem and_wropMask_eq_iff (w : Word) (kind : BitVec 4) (reg : BitVec 5) :
    w &&& 0xFF003FFF00000000 = commandWord kind 0 0 reg 0 ↔
      (rsvClear w ∧ kindField w = kind) ∧ regField w = reg := by
  have hm : (0xFF003FFF00000000 : Word) = wordOfFields 15 15 0 0 1 31 255 0 := by decide
  rw [hm, and_mask_eq_iff]
  simp only [BitVec.ofNat_eq_ofNat, BitVec.and_zero]
  tauto

/-! ### The rows of one KIND -/

/-- Whether a word matches a row (R48). -/
def matchesRow (w : Word) (r : OpcodeRow) : Bool := w &&& r.mask == r.pattern

/-- The name of the first of some rows that a word matches. -/
def firstMatch (w : Word) (rows : List OpcodeRow) : Option String :=
  (rows.find? (matchesRow w)).map (·.mnemonic)

theorem spelledBy_eq_firstMatch (w : Word) : spelledBy w = firstMatch w opcodeRows := rfl

@[simp] theorem firstMatch_nil (w : Word) : firstMatch w [] = none := rfl

theorem firstMatch_cons (w : Word) (r : OpcodeRow) (rows : List OpcodeRow) :
    firstMatch w (r :: rows) = if w &&& r.mask = r.pattern then some r.mnemonic else firstMatch w rows := by
  by_cases h : w &&& r.mask = r.pattern <;> simp [firstMatch, matchesRow, h]

theorem firstMatch_append (w : Word) (rows rows' : List OpcodeRow) :
    firstMatch w (rows ++ rows') = (firstMatch w rows).or (firstMatch w rows') := by
  rw [firstMatch, List.find?_append, Option.map_or, firstMatch, firstMatch]

/-- The name of what a decoder reads. -/
def spelling : Except Reserved Instr → Option String
  | .ok i => some i.mnemonic
  | .error _ => none

@[simp] theorem spelling_ok (i : Instr) : spelling (.ok i) = some i.mnemonic := rfl
@[simp] theorem spelling_error (e : Reserved) : spelling (.error e) = none := rfl

/-- The row of a register code: a name by code, the word of the code, and the mask of its KIND. -/
def codeRow (name : BitVec 5 → Option String) (kind : BitVec 4) (mask : Word) (reg : BitVec 5) : OpcodeRow :=
  ⟨(name reg).getD "", commandWord kind 0 0 reg 0, mask⟩

/-- The name of a `WRITE_CHANNEL` register code. -/
def wrchName (reg : BitVec 5) : Option String := spelling (decodeWrch reg.toNat 0 0)

/-- The name of a `WRITE_OPERATOR` register code. -/
def wropName (reg : BitVec 5) : Option String := spelling (decodeWrop reg.toNat 0 0 0)

@[simp] theorem spelling_decodeWrch (reg : BitVec 5) (ch : BitVec 8) (v : Value) :
    spelling (decodeWrch reg.toNat ch v) = wrchName reg := by
  unfold wrchName decodeWrch
  split <;> rfl

@[simp] theorem spelling_decodeWrop (reg : BitVec 5) (ch : BitVec 8) (op : Fin 4) (v : Value) :
    spelling (decodeWrop reg.toNat ch op v) = wropName reg := by
  unfold wropName decodeWrop
  split <;> rfl

/-- The register codes below `n`, in order. -/
def codesBelow (n : Nat) : List (BitVec 5) := (List.range n).map (BitVec.ofNat 5)

theorem wrchRows_eq : wrchRows = (codesBelow 11).map (codeRow wrchName 1 0xFF00FFFF00000000) := by decide

theorem wropRows_eq : wropRows = (codesBelow 17).map (codeRow wropName 2 0xFF003FFF00000000) := by decide

/-- The first row a word matches among those of a KIND is the row of its register code, where the KIND has one; `P`
stands for what the mask asks of the fields other than REG. -/
theorem firstMatch_codeRows {w mask : Word} {kind : BitVec 4} {P : Prop} [Decidable P] {name : BitVec 5 → Option String}
    (hm : ∀ reg, w &&& mask = commandWord kind 0 0 reg 0 ↔ P ∧ regField w = reg) {codes : List (BitVec 5)}
    (hn : ∀ reg, reg ∈ codes ↔ (name reg).isSome) :
    firstMatch w (codes.map (codeRow name kind mask)) = if P then name (regField w) else none := by
  have hrow (reg : BitVec 5) : matchesRow w (codeRow name kind mask reg) ↔ P ∧ regField w = reg :=
    beq_iff_eq.trans (hm reg)
  unfold firstMatch
  cases hf : (codes.map (codeRow name kind mask)).find? (matchesRow w) with
  | none =>
    split_ifs with hP
    · have hcode : regField w ∉ codes := fun h =>
        List.find?_eq_none.mp hf _ (List.mem_map_of_mem h) ((hrow _).mpr ⟨hP, rfl⟩)
      rw [hn, Option.not_isSome_iff_eq_none] at hcode
      rw [hcode, Option.map_none]
    · rfl
  | some r =>
    obtain ⟨reg, hreg, rfl⟩ := List.mem_map.mp (List.mem_of_find?_eq_some hf)
    obtain ⟨hP, rfl⟩ := (hrow reg).mp (List.find?_some hf)
    obtain ⟨m, hname⟩ := Option.isSome_iff_exists.mp ((hn _).mp hreg)
    rw [if_pos hP, Option.map_some, codeRow, hname, Option.getD_some]

theorem firstMatch_wrchRows (w : Word) :
    firstMatch w wrchRows = if rsvClear w ∧ kindField w = 1 ∧ opField w = 0 then wrchName (regField w) else none := by
  rw [wrchRows_eq]
  exact firstMatch_codeRows (and_wrchMask_eq_iff w) (by decide)

theorem firstMatch_wropRows (w : Word) :
    firstMatch w wropRows = if rsvClear w ∧ kindField w = 2 then wropName (regField w) else none := by
  rw [wropRows_eq]
  exact firstMatch_codeRows (and_wropMask_eq_iff w 2) (by decide)

theorem firstMatch_chipRows (w : Word) :
    firstMatch w chipRows =
      if rsvClear w ∧ kindField w = 0 ∧ operandsClear w then some "nop"
      else if (rsvClear w ∧ kindField w = 3) ∧ regField w = 0 then some "wrtl"
      else if rsvClear w ∧ kindField w = 4 ∧ operandsClear w then some "next" else none := by
  have h0 : (0x0000000000000000 : Word) = commandWord 0 0 0 0 0 := by decide
  have h3 : (0x3000000000000000 : Word) = commandWord 3 0 0 0 0 := by decide
  have h4 : (0x4000000000000000 : Word) = commandWord 4 0 0 0 0 := by decide
  simp only [chipRows, h0, h3, h4, firstMatch_cons, firstMatch_nil, and_chipMask_eq_iff, and_wropMask_eq_iff]

/-- The opcode map, read as conditions on the fields. -/
theorem spelledBy_eq_ite (w : Word) :
    spelledBy w =
      ((if rsvClear w ∧ kindField w = 0 ∧ operandsClear w then some "nop"
        else if (rsvClear w ∧ kindField w = 3) ∧ regField w = 0 then some "wrtl"
        else if rsvClear w ∧ kindField w = 4 ∧ operandsClear w then some "next" else none).or
      (if rsvClear w ∧ kindField w = 1 ∧ opField w = 0 then wrchName (regField w) else none)).or
      (if rsvClear w ∧ kindField w = 2 then wropName (regField w) else none) := by
  rw [spelledBy_eq_firstMatch, opcodeRows, firstMatch_append, firstMatch_append, firstMatch_chipRows,
    firstMatch_wrchRows, firstMatch_wropRows]

/-- The decoder and the opcode map name the same command, reserved words and each KIND in turn. -/
theorem spelling_decodeWord (w : Word) : spelling (decodeWord w) = spelledBy w := by
  have hr : (rsv0Field w ≠ 0 ∨ rsv1Field w ≠ 0 ∨ rsv2Field w ≠ 0) ↔ ¬ rsvClear w := by
    rw [rsvClear_iff]; tauto
  have ho : (chField w ≠ 0 ∨ opField w ≠ 0 ∨ regField w ≠ 0 ∨ valueField w ≠ 0) ↔ ¬ operandsClear w := by
    rw [operandsClear_iff]; tauto
  rw [spelledBy_eq_ite]
  simp only [decodeWord, hr, ho, ne_eq, ite_not]
  by_cases hc : rsvClear w
  case neg => simp [hc]
  rw [if_pos hc]
  split
  case h_1 hk =>
    have hk : kindField w = 0 := BitVec.eq_of_toNat_eq hk
    simp [hk, hc, apply_ite spelling, Instr.mnemonic]
  case h_2 hk =>
    have hk : kindField w = 1 := BitVec.eq_of_toNat_eq hk
    simp [hk, hc, apply_ite spelling]
  case h_3 hk =>
    have hk : kindField w = 2 := BitVec.eq_of_toNat_eq hk
    simp [hk, hc]
  case h_4 hk =>
    have hk : kindField w = 3 := BitVec.eq_of_toNat_eq hk
    simp [hk, hc, apply_ite spelling, Instr.mnemonic]
  case h_5 hk =>
    have hk : kindField w = 4 := BitVec.eq_of_toNat_eq hk
    simp [hk, hc, apply_ite spelling, Instr.mnemonic]
  case h_6 h0 h1 h2 h3 h4 =>
    have hk (k : BitVec 4) (h : (kindField w).toNat ≠ k.toNat) : kindField w ≠ k := mt (congrArg _) h
    simp [hk 0#4 h0, hk 1#4 h1, hk 2#4 h2, hk 3#4 h3, hk 4#4 h4]

/-- Settles O3: the map and the decoder are compared as functions of the word's fields. -/
theorem decoderAgreesWithOpcodeMap : Obligations.DecoderAgreesWithOpcodeMap := by
  intro w
  rw [← spelling_decodeWord]
  rfl

/-! ### Reserved words (R50) -/

/-- A built hardware ignores what the model refuses. -/
theorem receive_of_refused {w : Word} {s : State} {r : Refusal} (h : executeWord w s = .refused r) :
    receive w s = s := by
  simp [receive, h]

/-- Settles O5: a word that does not decode is refused as such, and a command on a channel the chip does not have by
`onChannel`. -/
theorem reservedWordsAreRefusedAndIgnored : Obligations.ReservedWordsAreRefusedAndIgnored := by
  refine ⟨fun w e s hw => ?_, fun w i c s hw hc hlen => ?_⟩
  · have h := executeWord_error hw s
    exact ⟨h, receive_of_refused h⟩
  · have h : executeWord w s = .refused (.reservedChannel c) := by
      rw [executeWord_ok hw, exec_eq_onChannel hc, onChannel_none hlen]
    exact ⟨h, receive_of_refused h⟩

end Sys2Proof.Machine

/-! SUPPORT. The statement of 40_operator.md: the key-off of an operator (R63). -/

namespace Sys2Proof.Machine

/-! ### Key-off of an operator (R63) -/

/-- Key-off does not wake an operator that is Off. -/
theorem keyOffOp_of_off {o : Operator} (h : o.stage = .off) : keyOffOp o = o := if_pos h

/-- Key-off of a sounding operator moves its stage and nothing else. -/
theorem keyOffOp_of_not_off {o : Operator} (h : o.stage ≠ .off) : keyOffOp o = { o with stage := .release } := if_neg h

/-- Settles O40: the two branches of `KeyOffOp`, each by its own equation. -/
theorem keyOffOfAnOperator : Obligations.KeyOffOfAnOperator :=
  fun _ => ⟨keyOffOp_of_off, keyOffOp_of_not_off⟩

end Sys2Proof.Machine

/-! SUPPORT. The statements of 41_channel.md: the LFO (R82), the early exit (R83), the channel reset (R95), and the
writes of KON and ALG (R96, R99). -/

namespace Sys2Proof.Machine

/-! ### A command on a channel it names -/

/-- A command that names an existing channel completes, and edits that channel. -/
theorem exec_on_channel {i : Instr} {c : BitVec 8} (hc : i.channel = some c) {s : State} {ch : Channel}
    (h : s.channels[c.toNat]? = some ch) : exec i s = .next (s.setChannel c (channelEdit i ch)) := by
  rw [exec_eq_onChannel hc, onChannel_some h]

/-- A channel after a command other than `NEXT`: left as it was, or edited. -/
theorem exec_channel_of_ne_next {i : Instr} (hi : i ≠ .next) {s t : State} (he : exec i s = .next t) {j : Nat}
    {ch ch' : Channel} (h : s.channels[j]? = some ch) (h' : t.channels[j]? = some ch') :
    ch' = ch ∨ ch' = channelEdit i ch := by
  cases hc : i.channel with
  | some c =>
    rcases exec_getElem? hc he h h' with ⟨-, hedit⟩ | ⟨-, hkept⟩
    · exact .inr hedit
    · exact .inl hkept
  | none =>
    obtain rfl : i = .nop := (channel_eq_none hc).resolve_right hi
    cases he
    exact .inl (Option.some.inj (h'.symm.trans h))

/-! ### The LFO (R82) -/

/-- No branch of a KON write moves the LFO (R96). -/
@[simp] theorem setKon_lfoPhase (v : Int) (ch : Channel) : (setKon v ch).lfoPhase = ch.lfoPhase := by
  simp only [setKon]
  split_ifs <;> rfl

/-- The reset before a changed algorithm leaves the LFO alone (R95, R99). -/
@[simp] theorem setAlg_lfoPhase (v : Int) (ch : Channel) : (setAlg v ch).lfoPhase = ch.lfoPhase := by
  simp only [setAlg]
  split_ifs <;> rfl

theorem channelEdit_lfoPhase (i : Instr) (ch : Channel) : (channelEdit i ch).lfoPhase = ch.lfoPhase := by
  cases i
  case wrchKON c v => exact setKon_lfoPhase _ _
  case wrchALG c v => exact setAlg_lfoPhase _ _
  all_goals simp only [channelEdit, Channel.setOp_lfoPhase]

theorem modIndex_eq_div (c : Config) (ch : Channel) : modIndex c ch = ch.lfoPhase.toNat / 2 ^ (64 - c.lfoBits) :=
  Nat.shiftRight_eq_div_pow _ _

/-- The top LFO_BITS bits of a 64-bit phase are a number of that many bits. -/
theorem modIndex_lt {c : Config} (h : c.lfoBits ≤ 64) (ch : Channel) : modIndex c ch < 2 ^ c.lfoBits := by
  have hsplit : 2 ^ (64 - c.lfoBits) * 2 ^ c.lfoBits = 2 ^ 64 := by rw [← pow_add, Nat.sub_add_cancel h]
  rw [modIndex_eq_div]
  exact Nat.div_lt_of_lt_mul (hsplit ▸ ch.lfoPhase.isLt)

/-- Settles O27: a tick of the chip is each channel's own tick, which adds the increment on either path; no edit
touches the phase; and the index is the phase divided down to its top bits. -/
theorem lfoAdvancesOnEveryTickOnly : Obligations.LfoAdvancesOnEveryTickOnly := by
  refine ⟨fun s t he j ch ch' h h' => ?_, fun i s t hi he j ch ch' h h' => ?_,
    fun c ch hc => ⟨modIndex_eq_div c (lfoStep c ch), modIndex_lt hc.lfoBits.2 _⟩⟩
  · cases he
    rw [tick_getElem? h h', chNext_lfoPhase]
  · rcases exec_channel_of_ne_next hi he h h' with rfl | rfl
    · rfl
    · exact channelEdit_lfoPhase i ch

/-! ### The early exit (R83) -/

/-- Settles O28: the carriers' stages are what `isOff` reads, and off the tick is the LFO's step alone. -/
theorem silentChannelExitsEarly : Obligations.SilentChannelExitsEarly :=
  fun _ ch h => chNext_off (ch.isOff_iff.mpr h)

/-! ### The channel reset (R95) -/

/-- Settles O41, field by field from the laws of `chReset`. -/
theorem channelResetZeroesHiddenStateOnly : Obligations.ChannelResetZeroesHiddenStateOnly :=
  fun ch => ⟨chReset_fb1 ch, chReset_fb3 ch, chReset_op ch, chReset_regs ch, chReset_lfoPhase ch, chReset_isOff ch⟩

/-! ### The KON write (R96) -/

theorem setKon_keyed {v : Int} (hv : v ≠ 0) {ch : Channel} (hk : ch.regs.kon = 1) : setKon v ch = ch := by
  rw [setKon, if_pos hv, if_pos hk]

theorem setKon_unkeyed {v : Int} (hv : v ≠ 0) {ch : Channel} (hk : ch.regs.kon = 0) :
    setKon v ch = (ch.setKonBit 1).mapOps keyOnOp := by
  have hk1 : ch.regs.kon ≠ 1 := by rw [hk]; decide
  rw [setKon, if_pos hv, if_neg hk1]

/-- A reset forgets the stage, the only thing a key-off moves. -/
@[simp] theorem resetOp_keyOffOp (o : Operator) : resetOp (keyOffOp o) = resetOp o := by
  simp only [resetOp, keyOffOp_regs]

/-- Key-off of a channel found off is a reset of it as it was, with KON cleared. -/
theorem chReset_keyOff (ch : Channel) :
    chReset ((ch.setKonBit 0).mapOps keyOffOp) = (chReset ch).setKonBit 0 := by
  simp only [chReset, Channel.mapOps, Channel.setKonBit, resetOp_keyOffOp]

/-- Some carrier sounds. -/
theorem Channel.isOff_eq_false_iff (ch : Channel) :
    ch.isOff = false ↔ ∃ k, isCarrier ch.regs.alg k = true ∧ (ch.op k).stage ≠ .off := by
  rw [← Bool.not_eq_true, Channel.isOff_iff]
  push Not
  rfl

theorem setKon_zero_of_on {ch : Channel} (h : ch.isOff = false) :
    setKon 0 ch = (ch.setKonBit 0).mapOps keyOffOp := by
  rw [setKon_zero, h, if_neg Bool.false_ne_true]

theorem setKon_zero_of_off {ch : Channel} (h : ch.isOff = true) : setKon 0 ch = (chReset ch).setKonBit 0 := by
  rw [setKon_zero, if_pos h, chReset_keyOff]

/-- Settles O14: on an existing channel the command is `setKon`, and each case of R96 is one equation of it. -/
theorem konWriteKeysOnAndOff : Obligations.KonWriteKeysOnAndOff := by
  intro s c ch v h
  have hexec : exec (.wrchKON c v) s = .next (s.setChannel c (setKon v.toInt ch)) := exec_on_channel rfl h
  have hne : v ≠ 0 → v.toInt ≠ 0 := mt (toInt_eq_zero_iff v).mp
  rw [hexec]
  refine ⟨fun hv hk => ?_, fun hv hk => ?_, fun hv hon => ?_, fun hv hoff => ?_⟩
  · rw [setKon_keyed (hne hv) hk, setChannel_self h]
  · rw [setKon_unkeyed (hne hv) hk]
    rfl
  · rw [(toInt_eq_zero_iff v).mpr hv, setKon_zero_of_on (ch.isOff_eq_false_iff.mpr hon)]
    rfl
  · rw [(toInt_eq_zero_iff v).mpr hv, setKon_zero_of_off (ch.isOff_iff.mpr hoff)]
    rfl

/-! ### The ALG write (R99) -/

theorem setAlg_same {v : Int} {ch : Channel} (h : maskTo 3 v = ch.regs.alg) : setAlg v ch = ch := by
  simp only [setAlg, h, ne_eq, not_true_eq_false, if_false]

theorem setAlg_changed {v : Int} {ch : Channel} (h : maskTo 3 v ≠ ch.regs.alg) :
    setAlg v ch = { chReset ch with regs := { ch.regs with alg := maskTo 3 v } } := by
  simp only [setAlg, if_pos h, chReset_regs]

/-- Settles O15: on an existing channel the command is `setAlg`, whose two cases are those of R99. -/
theorem algorithmWriteResetsOnChange : Obligations.AlgorithmWriteResetsOnChange := by
  intro s c ch v h
  have hexec : exec (.wrchALG c v) s = .next (s.setChannel c (setAlg v.toInt ch)) := exec_on_channel rfl h
  rw [hexec]
  refine ⟨fun hsame => ?_, fun hchanged => ?_⟩
  · rw [setAlg_same hsame, setChannel_self h]
  · rw [setAlg_changed hchanged]
    rfl

end Sys2Proof.Machine

/-! SUPPORT. The statements of 42_chip.md: `NOP` (R109) and `WRITE_TL` (R108). -/

namespace Sys2Proof.Machine

/-! ### Reserved words of one KIND (R47, R49) -/

/-- A word is reserved when it spells no command. -/
theorem decodeWord_error_iff (w : Word) : (∃ e, decodeWord w = .error e) ↔ spelledBy w = none := by
  rw [← spelling_decodeWord]
  cases decodeWord w with
  | ok i => exact ⟨nofun, nofun⟩
  | error e => exact ⟨fun _ => rfl, fun _ => ⟨e, rfl⟩⟩

/-- The `NOP` row of R48 holds one word: its mask keeps every bit. -/
theorem nop_fields_iff (w : Word) : (rsvClear w ∧ kindField w = 0 ∧ operandsClear w) ↔ w = 0 := by
  have hones : w &&& 0xFFFFFFFFFFFFFFFF = w := BitVec.and_allOnes
  have hzero : commandWord 0 0 0 0 0 = 0 := by decide
  rw [← and_chipMask_eq_iff, hones, hzero]

/-- Of the words of KIND 0 only the all-zero word spells a command. -/
theorem spelledBy_kind_zero {w : Word} (hk : kindField w = 0) (hw : w ≠ 0) : spelledBy w = none := by
  rw [spelledBy_eq_ite, if_neg (mt (nop_fields_iff w).mp hw)]
  simp [hk]

/-- `WRITE_TL` has no register code: of the words of KIND 3 those with a nonzero REG spell no command. -/
theorem spelledBy_kind_three {w : Word} (hk : kindField w = 3) (hr : regField w ≠ 0) : spelledBy w = none := by
  rw [spelledBy_eq_ite, if_neg (fun h : (rsvClear w ∧ kindField w = 3) ∧ regField w = 0 => hr h.2)]
  simp [hk]

/-! ### `NOP` (R109) -/

/-- Settles O10: `NOP` answers its own state, and its row of the opcode map is the all-zero word alone. -/
theorem nopChangesNothing : Obligations.NopChangesNothing :=
  ⟨fun _ => rfl, by decide, fun w hk hw => (decodeWord_error_iff w).mpr (spelledBy_kind_zero hk hw)⟩

/-! ### `WRITE_TL` (R108) -/

theorem selectTL_carrier {ch : Channel} {k : Fin 4} (h : isCarrier ch.regs.alg k = true) (ctl mtl : BitVec 16) :
    selectTL ch k ctl mtl = maskTo 6 ctl.toInt :=
  if_pos h

theorem selectTL_modulator {ch : Channel} {k : Fin 4} (h : isCarrier ch.regs.alg k = false) (ctl mtl : BitVec 16) :
    selectTL ch k ctl mtl = maskTo 6 mtl.toInt :=
  if_neg (Bool.eq_false_iff.mp h)

/-- On an existing channel the command stores the selected TL in the operator it names. -/
theorem exec_wrtl {s : State} {c : BitVec 8} {ch : Channel} (h : s.channels[c.toNat]? = some ch) (k : Fin 4)
    (ctl mtl : BitVec 16) :
    exec (.wrtl c k ctl mtl) s = .next (s.setChannel c
      (ch.setOp k { ch.op k with regs := { (ch.op k).regs with tl := selectTL ch k ctl mtl } })) :=
  exec_on_channel rfl h

/-- An ALG write, which may reset the channel (R99), writes no operator's registers. -/
theorem exec_wrchALG_op_regs {s t : State} {c : BitVec 8} {v : Value} (he : exec (.wrchALG c v) s = .next t) {j : Nat}
    {ch ch' : Channel} (h : s.channels[j]? = some ch) (h' : t.channels[j]? = some ch') (k : Fin 4) :
    (ch'.op k).regs = (ch.op k).regs := by
  rcases exec_channel_of_ne_next (i := .wrchALG c v) nofun he h h' with rfl | rfl
  · rfl
  · exact setAlg_op_regs _ _ k

/-- Settles O19: the stored value is `selectTL`, by the operator's role; an ALG write keeps operator registers; the
carrier rows of ALG 2, 3 and 4 and the example words are read off. -/
theorem writeTlStoresByCarrierRole : Obligations.WriteTlStoresByCarrierRole := by
  refine ⟨fun s c k ch ctl mtl h => ⟨fun hcar => ?_, fun hmod => ?_⟩,
    fun s t c v j ch ch' he h h' k => ?_, by decide, by decide, by decide,
    fun w hk hr => (decodeWord_error_iff w).mpr (spelledBy_kind_three hk hr), by decide, by decide⟩
  · rw [exec_wrtl h, selectTL_carrier hcar]
  · rw [exec_wrtl h, selectTL_modulator hmod]
  · rw [exec_wrchALG_op_regs he h h']

end Sys2Proof.Machine

/-! SUPPORT. The statement of 70_reset_and_hazards.md: silence from construction until a key-on (R131). -/

namespace Sys2Proof.Machine

/-! ### The word of `NEXT` (R44, R48) -/

/-- The opcode map has one row named `next`, whose mask keeps every bit; so one word spells `NEXT`. -/
theorem eq_encode_next_of_spelledBy {w : Word} (h : spelledBy w = some "next") : w = encode .next := by
  have hrow : ∀ r ∈ opcodeRows, r.mnemonic = "next" → r.mask = BitVec.allOnes 64 ∧ r.pattern = encode .next := by
    decide
  rw [spelledBy_eq_firstMatch, firstMatch, Option.map_eq_some_iff] at h
  obtain ⟨r, hr, hname⟩ := h
  have hmatch : matchesRow w r := List.find?_some hr
  obtain ⟨hmask, hpattern⟩ := hrow r (List.mem_of_find?_eq_some hr) hname
  rwa [matchesRow, beq_iff_eq, hmask, hpattern, BitVec.and_allOnes] at hmatch

theorem decodeWord_eq_next_iff (w : Word) : decodeWord w = .ok .next ↔ w = encode .next := by
  constructor
  · intro h
    apply eq_encode_next_of_spelledBy
    rw [← spelling_decodeWord, h]
    rfl
  · rintro rfl
    decide

/-! ### A channel with every operator Off, modulators too (R131) -/

/-- `State.AllOff` of one channel. -/
def Channel.AllOff (ch : Channel) : Prop := ∀ k, (ch.op k).stage = .off

theorem State.allOff_iff (s : State) : s.AllOff ↔ ∀ ch ∈ s.channels, ch.AllOff := Iff.rfl

theorem Channel.AllOff.isOff {ch : Channel} (h : ch.AllOff) : ch.isOff = true := ch.isOff_iff.mpr fun k _ => h k

theorem chReset_allOff (ch : Channel) : (chReset ch).AllOff := fun k => by rw [chReset_op, resetOp_stage]

theorem channelReset_allOff : Channel.reset.AllOff := by unfold Channel.AllOff; decide

/-- A key-off of a channel found off resets it (R96). -/
theorem setKon_zero_allOff {ch : Channel} (h : ch.AllOff) : (setKon 0 ch).AllOff := fun k => by
  rw [setKon_zero_of_off h.isOff, Channel.setKonBit_op, chReset_allOff ch k]

theorem withRegs_allOff {ch : Channel} (h : ch.AllOff) (r : ChannelRegs) :
    Channel.AllOff { ch with regs := r } := fun k => by
  rw [withRegs_op, h k]

/-- An ALG write keeps the operators or resets them (R99). -/
theorem setAlg_allOff (v : Int) {ch : Channel} (h : ch.AllOff) : (setAlg v ch).AllOff := by
  by_cases hv : maskTo 3 v = ch.regs.alg
  · rwa [setAlg_same hv]
  · rw [setAlg_changed hv]
    exact withRegs_allOff (chReset_allOff ch) _

/-- A write to the registers of one operator moves no stage (R61). -/
theorem setOp_allOff {ch : Channel} (h : ch.AllOff) (k : Fin 4) (r : OperatorRegs) :
    (ch.setOp k { ch.op k with regs := r }).AllOff := by
  intro j
  rw [Channel.setOp_op]
  split_ifs
  · exact h k
  · exact h j

theorem lfoStep_allOff (c : Config) {ch : Channel} (h : ch.AllOff) : (lfoStep c ch).AllOff := fun k => by
  rw [lfoStep_op, h k]

/-- No edit but a key-on takes an operator out of Off. -/
theorem channelEdit_allOff {i : Instr} (hi : keysOn i = false) {ch : Channel} (h : ch.AllOff) :
    (channelEdit i ch).AllOff := by
  cases i
  case nop | next => exact h
  case wrchKON c v =>
    have hv : v = 0 := bne_eq_false_iff_eq.mp hi
    subst hv
    exact setKon_zero_allOff h
  case wrchALG c v => exact setAlg_allOff _ h
  case wrchBLOCK | wrchFNUM | wrchLFO | wrchPANPOT | wrchCHPAN | wrchVOLUME | wrchEXPRESSION | wrchBO | wrchVELOCITY =>
    exact withRegs_allOff h _
  all_goals exact setOp_allOff h _ _

/-! ### Commands on a silent chip -/

/-- The chip's sum of silent frames, whatever the arithmetic (R107). -/
theorem mix_replicate_zero (c : Config) (n : Nat) :
    mix c (List.replicate n ⟨.rat 0, .rat 0⟩) = ⟨.rat 0, .rat 0⟩ := by
  unfold mix
  induction n with
  | zero => rfl
  | succ n ih => rwa [List.replicate_succ, List.foldl_cons, addS_zero_zero]

/-- With every channel off a tick moves the LFOs and emits (0, 0) (R83, R107). -/
theorem tick_of_isOff (c : Config) {s : State} (h : ∀ ch ∈ s.channels, ch.isOff = true) :
    tick c s = { s with channels := s.channels.map (lfoStep c), frames := s.frames ++ [⟨.rat 0, .rat 0⟩] } := by
  have hchannels : s.channels.map (fun ch => (chNext c ch).1) = s.channels.map (lfoStep c) :=
    List.map_congr_left fun ch hch => by rw [chNext_off (h ch hch)]
  have hframes : s.channels.map (fun ch => (chNext c ch).2) = List.replicate s.channels.length ⟨.rat 0, .rat 0⟩ :=
    List.map_eq_replicate_iff.mpr fun ch hch => by rw [chNext_off (h ch hch)]
  rw [tick, frameNext, hchannels, hframes, mix_replicate_zero]

/-- A command that keys nothing on keeps a chip with every operator Off so; `NEXT` emits (0, 0), and no other command
emits. -/
theorem exec_allOff {i : Instr} (hi : keysOn i = false) {s t : State} (h : s.AllOff) (he : exec i s = .next t) :
    t.AllOff ∧ t.frames = s.frames ++ List.replicate (if i = .next then 1 else 0) ⟨.rat 0, .rat 0⟩ := by
  rw [State.allOff_iff] at h ⊢
  rcases exec_next he with ⟨rfl, rfl⟩ | ⟨rfl, rfl⟩ | ⟨c, ch, hc, hch, rfl⟩
  · exact ⟨h, (List.append_nil _).symm⟩
  · rw [tick_of_isOff chip fun ch hch => (h ch hch).isOff]
    exact ⟨List.forall_mem_map.mpr fun ch hch => lfoStep_allOff chip (h ch hch), rfl⟩
  · have hne : i ≠ .next := by rintro rfl; cases hc
    refine ⟨fun x hx => ?_, by rw [if_neg hne, List.replicate_zero, List.append_nil, setChannel_frames]⟩
    rcases mem_setChannel hch hx with rfl | hx
    · exact channelEdit_allOff hi (h ch (List.mem_of_getElem? hch))
    · exact h x hx

/-! ### Runs on a silent chip (R131, R141) -/

/-- A run that completes is its first word's command, then the run of the rest. -/
theorem runWords_cons_next {w : Word} {ws : List Word} {s t : State} (h : runWords (w :: ws) s = .next t) :
    ∃ i u, decodeWord w = .ok i ∧ exec i s = .next u ∧ runWords ws u = .next t := by
  rw [runWords] at h
  split at h
  next u hu =>
    obtain ⟨i, hi, he⟩ := executeWord_next hu
    exact ⟨i, u, hi, he, h⟩
  next => cases h
  next => cases h

/-- A run without a key-on, started with every operator Off, keeps them so and appends one frame (0, 0) for each
`NEXT`. -/
theorem runWords_allOff {ws : List Word} (hws : ∀ w ∈ ws, ∀ i, decodeWord w = .ok i → keysOn i = false)
    {s t : State} (hs : s.AllOff) (hrun : runWords ws s = .next t) :
    t.AllOff ∧
      t.frames = s.frames ++ List.replicate (ws.countP fun w => w == encode .next) ⟨.rat 0, .rat 0⟩ := by
  induction ws generalizing s with
  | nil =>
    cases hrun
    exact ⟨hs, (List.append_nil _).symm⟩
  | cons w ws ih =>
    obtain ⟨i, u, hi, he, hrest⟩ := runWords_cons_next hrun
    obtain ⟨hu, huf⟩ := exec_allOff (hws w List.mem_cons_self i hi) hs he
    obtain ⟨ht, htf⟩ := ih (fun v hv => hws v (List.mem_cons_of_mem w hv)) hu hrest
    have hnext : i = .next ↔ (w == encode .next) = true := by
      rw [beq_iff_eq, ← decodeWord_eq_next_iff, hi, Except.ok.injEq]
    refine ⟨ht, ?_⟩
    rw [htf, huf, List.append_assoc, List.replicate_append_replicate, List.countP_cons, Nat.add_comm]
    simp only [hnext]

/-! ### Construction (R130, R131) -/

/-- Every channel of a chip as constructed is the reset channel (R130). -/
theorem eq_reset_of_mem_construct {n : Nat} {ch : Channel} (h : ch ∈ (State.construct n).channels) :
    ch = Channel.reset :=
  List.eq_of_mem_replicate h

theorem construct_allOff (n : Nat) : (State.construct n).AllOff := by
  rw [State.allOff_iff]
  intro ch hch
  rw [eq_reset_of_mem_construct hch]
  exact channelReset_allOff

/-- Settles O31: construction has every operator Off, and a run without a key-on keeps that and emits (0, 0) for each
`NEXT`, by induction on its words. -/
theorem constructionIsSilentUntilKeyOn : Obligations.ConstructionIsSilentUntilKeyOn :=
  ⟨fun n ch hch => ((State.allOff_iff _).mp (construct_allOff n) ch hch).isOff,
    fun n _ _ hws hrun => runWords_allOff hws (construct_allOff n) hrun⟩

end Sys2Proof.Machine

/-! SUPPORT. The statements of 30_encoding.md: the encoder and the decoder undo each other (R43 to R49, R52), and the
spec's example words. -/

namespace Sys2Proof.Machine

/-! ### Decoding an encoded word (R52) -/

theorem decodeWord_wrchWord (reg : BitVec 5) (ch : BitVec 8) (v : Value) :
    decodeWord (wrchWord reg ch v) = decodeWrch reg.toNat ch v := by
  simp [decodeWord, wrchWord, commandWord]

theorem decodeWord_wropWord (reg : BitVec 5) (ch : BitVec 8) (op : Fin 4) (v : Value) :
    decodeWord (wropWord reg ch op v) = decodeWrop reg.toNat ch op v := by
  simp [decodeWord, wropWord, commandWord, opIndex]

theorem decodeWord_encode_wrtl (ch : BitVec 8) (op : Fin 4) (c m : BitVec 16) :
    decodeWord (encode (.wrtl ch op c m)) = .ok (.wrtl ch op c m) := by
  simp [decodeWord, encode, commandWord, opIndex, carrierTLField_eq, modulatorTLField_eq]

/-- Settles O1: a KIND 1 or KIND 2 word decodes by its register code, and each code is its own command's. -/
theorem decodeOfEncodeIsIdentity : Obligations.DecodeOfEncodeIsIdentity := by
  intro i
  cases i
  case nop | next => decide
  case wrtl ch op c m => exact decodeWord_encode_wrtl ch op c m
  case wrchKON | wrchBLOCK | wrchFNUM | wrchALG | wrchLFO | wrchPANPOT | wrchCHPAN | wrchVOLUME | wrchEXPRESSION |
      wrchBO | wrchVELOCITY =>
    exact decodeWord_wrchWord _ _ _
  all_goals exact decodeWord_wropWord _ _ _ _

/-! ### What a word that decodes is (R44, R45, R47) -/

/-- The ways a word decodes, one for each KIND. -/
theorem decodeWord_ok {w : Word} {i : Instr} (h : decodeWord w = .ok i) :
    rsvClear w ∧
      ((kindField w = 0 ∧ operandsClear w ∧ i = .nop) ∨
      (kindField w = 1 ∧ opField w = 0 ∧ decodeWrch (regField w).toNat (chField w) (valueField w) = .ok i) ∨
      (kindField w = 2 ∧ decodeWrop (regField w).toNat (chField w) (opIndex w) (valueField w) = .ok i) ∨
      (kindField w = 3 ∧ regField w = 0 ∧
        i = .wrtl (chField w) (opIndex w) (carrierTLField w) (modulatorTLField w)) ∨
      (kindField w = 4 ∧ operandsClear w ∧ i = .next)) := by
  have hkind (k : BitVec 4) (h : (kindField w).toNat = k.toNat) : kindField w = k := BitVec.eq_of_toNat_eq h
  rw [rsvClear_iff, operandsClear_iff]
  unfold decodeWord at h
  split at h
  · cases h
  next hrsv =>
  push Not at hrsv
  refine ⟨hrsv, ?_⟩
  split at h
  case h_1 hk =>
    split at h
    · cases h
    next hop =>
    push Not at hop
    cases h
    exact .inl ⟨hkind 0 hk, hop, rfl⟩
  case h_2 hk =>
    split at h
    · cases h
    next hop =>
    push Not at hop
    exact .inr (.inl ⟨hkind 1 hk, hop, h⟩)
  case h_3 hk => exact .inr (.inr (.inl ⟨hkind 2 hk, h⟩))
  case h_4 hk =>
    split at h
    · cases h
    next hreg =>
    push Not at hreg
    cases h
    exact .inr (.inr (.inr (.inl ⟨hkind 3 hk, hreg, rfl⟩)))
  case h_5 hk =>
    split at h
    · cases h
    next hop =>
    push Not at hop
    cases h
    exact .inr (.inr (.inr (.inr ⟨hkind 4 hk, hop, rfl⟩)))
  case h_6 => cases h

theorem decodeWrch_ok {reg : BitVec 5} {ch : BitVec 8} {v : Value} {i : Instr} (h : decodeWrch reg.toNat ch v = .ok i) :
    encode i = wrchWord reg ch v ∧ i.channel = some ch := by
  have hreg : reg = BitVec.ofNat 5 reg.toNat := by simp
  rw [hreg]
  generalize reg.toNat = code at h ⊢
  unfold decodeWrch at h
  split at h <;> cases h <;> exact ⟨rfl, rfl⟩

theorem decodeWrop_ok {reg : BitVec 5} {ch : BitVec 8} {op : Fin 4} {v : Value} {i : Instr}
    (h : decodeWrop reg.toNat ch op v = .ok i) : encode i = wropWord reg ch op v ∧ i.channel = some ch := by
  have hreg : reg = BitVec.ofNat 5 reg.toNat := by simp
  rw [hreg]
  generalize reg.toNat = code at h ⊢
  unfold decodeWrop at h
  split at h <;> cases h <;> exact ⟨rfl, rfl⟩

/-- A word whose reserved fields are 0 is the command word of its other fields. -/
theorem commandWord_fields {w : Word} (h : rsvClear w) :
    commandWord (kindField w) (chField w) (opField w) (regField w) (valueField w) = w := by
  obtain ⟨h0, h1, h2⟩ := (rsvClear_iff w).mp h
  have hw := wordOfFields_fields w
  rwa [h0, h1, h2] at hw

/-- Settles O2: for each KIND the command encodes to the word of its fields, and what the KIND does not use is 0. -/
theorem encodeOfDecodeIsIdentity : Obligations.EncodeOfDecodeIsIdentity := by
  intro w i h
  obtain ⟨hrsv, hcases⟩ := decodeWord_ok h
  have hw := commandWord_fields hrsv
  rw [operandsClear_iff] at hcases
  rcases hcases with ⟨hk, ⟨hc, ho, hr, hv⟩, rfl⟩ | ⟨hk, ho, hi⟩ | ⟨hk, hi⟩ | ⟨hk, hr, rfl⟩ | ⟨hk, ⟨hc, ho, hr, hv⟩, rfl⟩
  · rw [hk, hc, ho, hr, hv] at hw
    exact hw
  · rw [hk, ho] at hw
    rw [(decodeWrch_ok hi).1]
    exact hw
  · rw [hk] at hw
    rw [(decodeWrop_ok hi).1]
    exact hw
  · rw [hk, hr] at hw
    rw [encode, carrierTLField_eq, modulatorTLField_eq, wrtlValue_halves]
    exact hw
  · rw [hk, hc, ho, hr, hv] at hw
    exact hw

/-- Settles O4: each word is read by the decoder. -/
theorem exampleWordsDecode : Obligations.ExampleWordsDecode :=
  ⟨by decide, by decide, by decide, by decide, by decide, by decide, by decide, by decide, by decide, by decide,
    by decide, by decide⟩

end Sys2Proof.Machine

/-! SUPPORT. The statements of 20_memory.md section 3 and 60_exceptions.md: which commands, words and steps complete
(R2, R37, R38, R49, R50, R111), and the silence of a chip with every operator Off (R131). -/

namespace Sys2Proof.Machine

/-! ### Well-formed commands complete (R49, R111) -/

/-- `NOP` and `NEXT` name no channel, so every chip gives them a meaning. -/
theorem wellFormed_of_no_channel {i : Instr} (h : i.channel = none) (n : Nat) : i.WellFormed n := by
  simp only [Instr.WellFormed, Instr.channelExists, h]

theorem wellFormed_iff_of_channel {i : Instr} {c : BitVec 8} (h : i.channel = some c) (n : Nat) :
    i.WellFormed n ↔ c.toNat < n := by
  simp only [Instr.WellFormed, Instr.channelExists, h, decide_eq_true_iff]

theorem not_wellFormed_iff (i : Instr) (n : Nat) :
    ¬ i.WellFormed n ↔ ∃ c, i.channel = some c ∧ n ≤ c.toNat := by
  cases h : i.channel with
  | none => simp [wellFormed_of_no_channel h]
  | some c => simp [wellFormed_iff_of_channel h]

@[simp] theorem tick_length (c : Config) (s : State) : (tick c s).channels.length = s.channels.length :=
  List.length_map _

/-- A command that answers keeps the channel count and the undelivered commands. -/
theorem exec_keeps {i : Instr} {s t : State} (h : exec i s = .next t) :
    t.channels.length = s.channels.length ∧ t.pending = s.pending := by
  rcases exec_next h with ⟨-, rfl⟩ | ⟨-, rfl⟩ | ⟨c, ch, -, -, rfl⟩
  · exact ⟨rfl, rfl⟩
  · exact ⟨tick_length chip s, rfl⟩
  · exact ⟨List.length_set, rfl⟩

theorem exec_of_wellFormed {i : Instr} {s : State} (h : i.WellFormed s.channels.length) : ∃ t, exec i s = .next t := by
  cases hc : i.channel with
  | none => rcases channel_eq_none hc with rfl | rfl <;> exact ⟨_, rfl⟩
  | some c =>
    have hlt : c.toNat < s.channels.length := (wellFormed_iff_of_channel hc _).mp h
    exact ⟨_, exec_on_channel hc (List.getElem?_eq_getElem hlt)⟩

theorem exec_of_not_wellFormed {i : Instr} {s : State} (h : ¬ i.WellFormed s.channels.length) :
    ∃ c, i.channel = some c ∧ exec i s = .refused (.reservedChannel c) := by
  obtain ⟨c, hc, hle⟩ := (not_wellFormed_iff i _).mp h
  exact ⟨c, hc, by rw [exec_eq_onChannel hc, onChannel_none hle]⟩

/-- Settles O6: `NOP` and `NEXT` always answer, a command on a channel answers exactly when the channel exists. -/
theorem wellFormedCommandsComplete : Obligations.WellFormedCommandsComplete := by
  refine fun i s => ⟨fun h => ?_, exec_of_not_wellFormed⟩
  obtain ⟨t, ht⟩ := exec_of_wellFormed h
  exact ⟨t, ht, exec_keeps ht⟩

/-! ### Words and steps (R2, R38, R49, R50) -/

theorem executeWord_completes_iff (w : Word) (s : State) :
    (∃ t, executeWord w s = .next t) ↔ ∃ i, decodeWord w = .ok i ∧ i.WellFormed s.channels.length := by
  constructor
  · rintro ⟨t, ht⟩
    obtain ⟨i, hi, he⟩ := executeWord_next ht
    refine ⟨i, hi, by_contra fun hwf => ?_⟩
    obtain ⟨c, -, hrefused⟩ := exec_of_not_wellFormed hwf
    rw [hrefused] at he
    cases he
  · rintro ⟨i, hi, hwf⟩
    rw [executeWord_ok hi]
    exact exec_of_wellFormed hwf

/-- The opcode map spells a command exactly for the words that decode (R48). -/
theorem spelledBy_isSome_iff (w : Word) : (spelledBy w).isSome = true ↔ ∃ i, decodeWord w = .ok i := by
  rw [← spelling_decodeWord]
  cases decodeWord w with
  | ok i => exact ⟨fun _ => ⟨i, rfl⟩, fun _ => rfl⟩
  | error e => exact ⟨nofun, nofun⟩

/-- The commands that name a channel are those of KIND 1, 2 and 3, and it is their CH (R43, R44). -/
theorem channel_of_decodeWord {w : Word} {i : Instr} (h : decodeWord w = .ok i) :
    i.channel = if kindField w = 1 ∨ kindField w = 2 ∨ kindField w = 3 then some (chField w) else none := by
  rcases (decodeWord_ok h).2 with ⟨hk, -, rfl⟩ | ⟨hk, -, hi⟩ | ⟨hk, hi⟩ | ⟨hk, -, rfl⟩ | ⟨hk, -, rfl⟩ <;> rw [hk]
  · rfl
  · exact (decodeWrch_ok hi).2
  · exact (decodeWrop_ok hi).2
  · rfl
  · rfl

theorem wellFormed_iff_of_decodeWord {w : Word} {i : Instr} (h : decodeWord w = .ok i) (n : Nat) :
    i.WellFormed n ↔ (kindField w = 1 ∨ kindField w = 2 ∨ kindField w = 3 → (chField w).toNat < n) := by
  have hc := channel_of_decodeWord h
  split_ifs at hc with hk
  · simp only [wellFormed_iff_of_channel hc, hk, forall_const]
  · exact ⟨fun _ hk' => absurd hk' hk, fun _ => wellFormed_of_no_channel hc n⟩

/-- Settles O7: a step is the next word's execution, and there is none without a word. -/
theorem stepRunsDecodedCommand : Obligations.StepRunsDecodedCommand :=
  ⟨fun s w rest i hp hi => by rw [step_cons hp, executeWord_ok hi], fun _ => step_nil⟩

theorem decodeTableWord_some {nbits w : Nat} {i : Instr} (h : decodeTableWord nbits w = some i) :
    decodeWord (tableWord nbits w) = .ok i := by
  unfold decodeTableWord at h
  split at h
  next j hj => cases h; exact hj
  next => cases h

/-- Settles O8: the delivered word stands first, and taking it leaves the state as it was. -/
theorem fetchWordIsRunNext : Obligations.FetchWordIsRunNext := by
  intro s nbits w i h
  have hp : (s.withFetchWord nbits w).pending = tableWord nbits w :: s.pending := rfl
  rw [step_cons hp, executeWord_ok (decodeTableWord_some h)]
  rfl

/-- Settles O9: the step executes the word, which completes exactly when the word decodes to a well-formed command. -/
theorem everyStepCompletesUnlessReserved : Obligations.EveryStepCompletesUnlessReserved := by
  intro s w rest hp
  rw [step_cons hp]
  refine ⟨?_, fun hnone => ?_, fun hsome hk hlen => ?_⟩
  · rw [executeWord_completes_iff, spelledBy_isSome_iff, exists_and_right.symm]
    exact exists_congr fun i => and_congr_right fun hi => wellFormed_iff_of_decodeWord hi _
  · obtain ⟨e, he⟩ := (decodeWord_error_iff w).mpr hnone
    exact ⟨e, executeWord_error he _⟩
  · obtain ⟨i, hi⟩ := (spelledBy_isSome_iff w).mp hsome
    have hc : i.channel = some (chField w) := (channel_of_decodeWord hi).trans (if_pos hk)
    rw [executeWord_ok hi, exec_eq_onChannel hc]
    exact onChannel_none hlen

/-! ### Silence (R131) -/

/-- Settles O30: the step is one command that keys nothing on, which keeps every operator Off and emits at most
(0, 0). -/
theorem silenceLastsUntilKeyOn : Obligations.SilenceLastsUntilKeyOn := by
  intro s t hs hstep hkey
  obtain ⟨w, rest, i, hp, hi, he⟩ := step_next hstep
  have hoff : State.AllOff { s with pending := rest } := hs
  obtain ⟨ht, hframes⟩ := exec_allOff (hkey w rest i hp hi) hoff he
  refine ⟨ht, ?_⟩
  rw [hframes]
  split_ifs
  · exact .inr rfl
  · exact .inl (List.append_nil _)

end Sys2Proof.Machine

/-! SUPPORT. The statements of 20_memory.md, and of the register writes of 40_operator.md section 6 and 41_channel.md
section 3: what a write stores, what it leaves unchanged, and that it is idempotent (R11, R13, R37, R61). -/

namespace Sys2Proof.Machine

/-! ### Stored values (R7, R11) -/

theorem maskTo_toNat (n : Nat) (v : Int) : ((maskTo n v).toNat : Int) = v % 2 ^ n := by
  have hpos : (0 : Int) < 2 ^ n := by positivity
  rw [maskTo, BitVec.toNat_ofInt, Int.toNat_of_nonneg] <;> push_cast
  · rfl
  · exact Int.emod_nonneg v hpos.ne'

theorem clamp_zero_eq_ite {hi : Int} (h : 0 ≤ hi) (v : Int) :
    clamp v 0 hi = if v < 0 then 0 else if hi < v then hi else v := by
  unfold clamp
  split_ifs <;> omega

/-- A range that fits the register is stored without wrapping. -/
theorem saturateTo_toNat {n : Nat} {hi : Int} (h : 0 ≤ hi) (hn : hi < 2 ^ n) (v : Int) :
    ((saturateTo n hi v).toNat : Int) = clamp v 0 hi := by
  have hrange : 0 ≤ clamp v 0 hi ∧ clamp v 0 hi ≤ hi := ⟨le_min h (le_max_left _ _), min_le_left _ _⟩
  rw [saturateTo, ← maskTo, maskTo_toNat]
  exact Int.emod_eq_of_lt hrange.1 (hrange.2.trans_lt hn)

/-- Settles O11: `mask_n` is the residue, and the clamped value needs no mask. -/
theorem storedValueIsMaskedOrClamped : Obligations.StoredValueIsMaskedOrClamped :=
  ⟨maskTo_toNat, fun _ _ v h hn => (saturateTo_toNat h hn v).trans (clamp_zero_eq_ite h v)⟩

/-! ### Each write on an existing channel -/

/-- Settles O12: a write on an existing channel is its edit of that channel. -/
theorem maskingChannelWritesStoreLowBits : Obligations.MaskingChannelWritesStoreLowBits :=
  fun _ _ _ _ h => ⟨exec_on_channel rfl h, exec_on_channel rfl h, exec_on_channel rfl h, exec_on_channel rfl h,
    exec_on_channel rfl h, exec_on_channel rfl h⟩

/-- Settles O13: a write on an existing channel is its edit of that channel. -/
theorem saturatingChannelWritesClamp : Obligations.SaturatingChannelWritesClamp :=
  fun _ _ _ _ h => ⟨exec_on_channel rfl h, exec_on_channel rfl h, exec_on_channel rfl h⟩

/-- Settles O16: a write on an operator of an existing channel is its edit of that channel. -/
theorem oneAndTwoBitOperatorWritesMask : Obligations.OneAndTwoBitOperatorWritesMask :=
  fun _ _ _ _ _ h => ⟨exec_on_channel rfl h, exec_on_channel rfl h, exec_on_channel rfl h, exec_on_channel rfl h,
    exec_on_channel rfl h, exec_on_channel rfl h, exec_on_channel rfl h⟩

/-- Settles O17: a write on an operator of an existing channel is its edit of that channel. -/
theorem threeAndSixBitOperatorWritesMask : Obligations.ThreeAndSixBitOperatorWritesMask :=
  fun _ _ _ _ _ h => ⟨exec_on_channel rfl h, exec_on_channel rfl h, exec_on_channel rfl h, exec_on_channel rfl h⟩

/-- Settles O18: a write on an operator of an existing channel is its edit of that channel. -/
theorem fourBitOperatorWritesMask : Obligations.FourBitOperatorWritesMask :=
  fun _ _ _ _ _ h => ⟨exec_on_channel rfl h, exec_on_channel rfl h, exec_on_channel rfl h, exec_on_channel rfl h,
    exec_on_channel rfl h, exec_on_channel rfl h⟩

/-! ### What a plain write leaves unchanged (R37, R61) -/

/-- Each of the seventeen writes replaces registers of the operator it names. -/
theorem operatorWrite_edit {i : Instr} {c : BitVec 8} {k : Fin 4} {v : Value} (h : i ∈ operatorWrites c k v) :
    i.channel = some c ∧ ∀ ch, ∃ r, channelEdit i ch = ch.setOp k { ch.op k with regs := r } := by
  simp only [operatorWrites, List.mem_cons, List.not_mem_nil, or_false] at h
  rcases h with rfl | rfl | rfl | rfl | rfl | rfl | rfl | rfl | rfl | rfl | rfl | rfl | rfl | rfl | rfl | rfl | rfl <;>
    exact ⟨rfl, fun _ => ⟨_, rfl⟩⟩

/-- Each of the nine plain channel writes replaces channel registers. -/
theorem plainChannelWrite_edit {i : Instr} {c : BitVec 8} {v : Value} (h : i ∈ plainChannelWrites c v) :
    i.channel = some c ∧ ∀ ch, ∃ r, channelEdit i ch = { ch with regs := r } := by
  simp only [plainChannelWrites, List.mem_cons, List.not_mem_nil, or_false] at h
  rcases h with rfl | rfl | rfl | rfl | rfl | rfl | rfl | rfl | rfl <;> exact ⟨rfl, fun _ => ⟨_, rfl⟩⟩

theorem sameHidden_refl (ch : Channel) : SameHidden ch ch :=
  ⟨fun _ => rfl, fun _ => rfl, fun _ => rfl, rfl, rfl, rfl⟩

theorem withRegs_sameHidden (ch : Channel) (r : ChannelRegs) : SameHidden { ch with regs := r } ch :=
  ⟨fun k => by rw [withRegs_op], fun k => by rw [withRegs_op], fun k => by rw [withRegs_op], rfl, rfl, rfl⟩

theorem setOp_sameHidden (ch : Channel) (k : Fin 4) (r : OperatorRegs) :
    SameHidden (ch.setOp k { ch.op k with regs := r }) ch := by
  have hop (j : Fin 4) : (ch.setOp k { ch.op k with regs := r }).op j = ch.op j ∨
      (ch.setOp k { ch.op k with regs := r }).op j = { ch.op j with regs := r } := by
    by_cases hj : j = k
    · subst hj; exact .inr (ch.setOp_op_same j _)
    · exact .inl (ch.setOp_op_other _ hj)
  refine ⟨fun j => ?_, fun j => ?_, fun j => ?_, ch.setOp_fb1 k _, ch.setOp_fb3 k _, ch.setOp_lfoPhase k _⟩ <;>
    rcases hop j with h | h <;> rw [h]

/-- What a command that names a channel does to the rest of the chip: nothing. -/
theorem exec_named_frame {i : Instr} {c : BitVec 8} (hc : i.channel = some c) {s t : State} (he : exec i s = .next t) :
    t.frames = s.frames ∧ t.pending = s.pending ∧ t.channels.length = s.channels.length ∧
      ∀ j : Nat, j ≠ c.toNat → t.channels[j]? = s.channels[j]? := by
  rw [exec_eq_onChannel hc] at he
  obtain ⟨ch, hch, rfl⟩ := onChannel_next he
  exact ⟨rfl, rfl, List.length_set, fun j hj => by rw [setChannel_getElem? hch, if_neg hj.symm]⟩

/-- Settles O20: each of these commands replaces registers of one channel, or of one operator of it. -/
theorem plainWritesKeepHiddenState : Obligations.PlainWritesKeepHiddenState := by
  intro s t i c k v ctl mtl hi he
  have hedit : i.channel = some c ∧ ∀ ch, SameHidden (channelEdit i ch) ch := by
    rcases hi with hi | hi | rfl
    · obtain ⟨hc, hr⟩ := operatorWrite_edit hi
      refine ⟨hc, fun ch => ?_⟩
      obtain ⟨r, hr⟩ := hr ch
      exact hr ▸ setOp_sameHidden ch k r
    · obtain ⟨hc, hr⟩ := plainChannelWrite_edit hi
      refine ⟨hc, fun ch => ?_⟩
      obtain ⟨r, hr⟩ := hr ch
      exact hr ▸ withRegs_sameHidden ch r
    · exact ⟨rfl, fun ch => setOp_sameHidden ch k _⟩
  obtain ⟨hc, hsame⟩ := hedit
  obtain ⟨hframes, hpending, hlen, -⟩ := exec_named_frame hc he
  refine ⟨hframes, hpending, hlen, fun j ch ch' h h' => ?_⟩
  rcases exec_getElem? hc he h h' with ⟨hj, rfl⟩ | ⟨hj, rfl⟩
  · exact ⟨hsame ch, fun hne => absurd hj hne⟩
  · exact ⟨sameHidden_refl ch', fun _ => rfl⟩

/-- Settles O21: the edit replaces the registers of the operator named, and reaches no other channel. -/
theorem operatorWritesReachOneOperator : Obligations.OperatorWritesReachOneOperator := by
  intro s t i c k v ch ch' hi he h h'
  obtain ⟨hc, hedit⟩ := operatorWrite_edit hi
  obtain ⟨r, hr⟩ := hedit ch
  obtain ⟨hframes, hpending, -, hother⟩ := exec_named_frame hc he
  have hch' : ch' = ch.setOp k { ch.op k with regs := r } := by
    rcases exec_getElem? hc he h h' with ⟨-, rfl⟩ | ⟨hne, -⟩
    · exact hr
    · exact absurd rfl hne
  subst hch'
  exact ⟨by rw [Channel.setOp_op_same], fun j hj => ch.setOp_op_other _ hj, hother, hframes, hpending⟩

/-! ### Idempotence (R37) -/

@[simp] theorem keyOffOp_keyOffOp (o : Operator) : keyOffOp (keyOffOp o) = keyOffOp o := by
  by_cases h : o.stage = .off
  · rw [keyOffOp_of_off h, keyOffOp_of_off h]
  · rw [keyOffOp_of_not_off h]
    exact keyOffOp_of_not_off (by simp)

@[simp] theorem setKonBit_isOff (ch : Channel) (b : BitVec 1) : (ch.setKonBit b).isOff = ch.isOff :=
  Channel.isOff_congr rfl fun k => by rw [Channel.setKonBit_op]

/-- A second KON write of one value finds the channel keyed, released or reset already (R96). -/
theorem setKon_idem (v : Int) (ch : Channel) : setKon v (setKon v ch) = setKon v ch := by
  by_cases hv : v = 0
  · subst hv
    cases hoff : ch.isOff
    · have hkept : ((ch.setKonBit 0).mapOps keyOffOp).isOff = false := (keyOff_isOff ch).trans hoff
      rw [setKon_zero_of_on hoff, setKon_zero_of_on hkept]
      simp only [Channel.mapOps, Channel.setKonBit, keyOffOp_keyOffOp]
    · have hreset : ((chReset ch).setKonBit 0).isOff = true := (setKonBit_isOff _ _).trans (chReset_isOff ch)
      rw [setKon_zero_of_off hoff, setKon_zero_of_off hreset]
      rfl
  · exact setKon_keyed hv ((setKon_kon v ch).trans (if_neg hv))

/-- A second ALG write of one value finds the algorithm in force (R99). -/
theorem setAlg_idem (v : Int) (ch : Channel) : setAlg v (setAlg v ch) = setAlg v ch :=
  setAlg_same (by rw [setAlg_regs])

theorem channelEdit_idem (i : Instr) (ch : Channel) : channelEdit i (channelEdit i ch) = channelEdit i ch := by
  cases i
  case wrchKON c v => exact setKon_idem _ ch
  case wrchALG c v => exact setAlg_idem _ ch
  case wrtl c k ctl mtl =>
    simp only [channelEdit, selectTL, Channel.setOp_regs, Channel.setOp_op_same, Channel.setOp_setOp]
  all_goals simp only [channelEdit, Channel.setOp_op_same, Channel.setOp_setOp]

/-- Settles O23: the repeated command edits the channel it edited, and every edit is idempotent. -/
theorem registerWritesAreIdempotent : Obligations.RegisterWritesAreIdempotent := by
  intro i s t hi he
  rcases exec_next he with ⟨rfl, rfl⟩ | ⟨rfl, -⟩ | ⟨c, ch, hc, hch, rfl⟩
  · exact he
  · exact absurd rfl hi
  · have hedited : (s.setChannel c (channelEdit i ch)).channels[c.toNat]? = some (channelEdit i ch) := by
      rw [setChannel_getElem? hch, if_pos rfl]
    rw [exec_on_channel hc hedited, channelEdit_idem, setChannel_setChannel]

end Sys2Proof.Machine

/-! SUPPORT. The statements of 42_chip.md: what `NEXT` does to the chip, that channels do not interact, and the output
stream (R32, R107, R119, R141). -/

namespace Sys2Proof.Machine

/-! ### `NEXT` (R107) -/

/-- The chip's sum, component by component, from any sum so far. -/
theorem foldl_mix (c : Config) (frames : List Frame) (a : Frame) :
    frames.foldl (fun a f => { left := addS c a.left f.left, right := addS c a.right f.right }) a =
      { left := frames.foldl (fun x f => addS c x f.left) a.left
        right := frames.foldl (fun x f => addS c x f.right) a.right } := by
  induction frames generalizing a with
  | nil => rfl
  | cons f frames ih => simp only [List.foldl_cons, ih]

/-- Settles O24: the sum of the frames is taken component by component, in the order of the channels. -/
theorem nextAdvancesEveryChannelAndEmitsTheSum : Obligations.NextAdvancesEveryChannelAndEmitsTheSum := by
  intro s
  have hframe : frameNext chip s =
      { left := s.channels.foldl (fun a ch => addS chip a (chNext chip ch).2.left) (.rat 0)
        right := s.channels.foldl (fun a ch => addS chip a (chNext chip ch).2.right) (.rat 0) } := by
    rw [frameNext, mix, foldl_mix, List.foldl_map, List.foldl_map]
  rw [← hframe]
  rfl

/-- Settles O25: a channel after `NEXT` is its own tick, which writes no register. -/
theorem nextWritesNoRegister : Obligations.NextWritesNoRegister := by
  intro s t he
  obtain ⟨hlen, hpending⟩ := exec_keeps he
  refine ⟨hlen, hpending, fun j ch ch' h h' => ?_⟩
  cases he
  obtain rfl := tick_getElem? h h'
  exact ⟨chNext_regs chip ch, chNext_op_regs chip ch⟩

/-- Settles O29: every channel takes the early exit, and the chip's sum of zero frames is the zero frame. -/
theorem allCarriersOffGivesZeroFrame : Obligations.AllCarriersOffGivesZeroFrame :=
  fun _ h => congrArg Host.Outcome.next (tick_of_isOff chip h)

/-! ### One channel at a time (R107, R119) -/

/-- What a command that answers does to channel `j`. -/
def channelAfter (i : Instr) (j : Nat) (ch : Channel) : Channel :=
  if i = .next then (chNext chip ch).1
  else if i.channel.any (fun c => c.toNat == j) then channelEdit i ch
  else ch

theorem channelAfter_next (j : Nat) (ch : Channel) : channelAfter .next j ch = (chNext chip ch).1 := if_pos rfl

theorem channelAfter_named {i : Instr} {c : BitVec 8} (hc : i.channel = some c) (j : Nat) (ch : Channel) :
    channelAfter i j ch = if c.toNat = j then channelEdit i ch else ch := by
  have hne : i ≠ .next := by rintro rfl; cases hc
  simp only [channelAfter, if_neg hne, hc, Option.any_some, beq_iff_eq]

/-- Every channel after a command is a function of that channel before it. -/
theorem exec_channels {i : Instr} {s t : State} (he : exec i s = .next t) (j : Nat) :
    t.channels[j]? = s.channels[j]?.map (channelAfter i j) := by
  rcases exec_next he with ⟨rfl, rfl⟩ | ⟨rfl, rfl⟩ | ⟨c, ch, hc, hch, rfl⟩
  · exact Option.map_id'.symm
  · simp only [tick, List.getElem?_map, funext (channelAfter_next j)]
  · rw [setChannel_getElem? hch, funext (channelAfter_named hc j)]
    split_ifs with hj
    · rw [← hj, hch, Option.map_some]
    · exact Option.map_id'.symm

/-- Settles O26: the channel after the command is a function of the command, its number and the channel before. -/
theorem channelsDoNotInteract : Obligations.ChannelsDoNotInteract := by
  intro i s s' t t' j hj he he'
  rw [exec_channels he, exec_channels he', hj]

/-! ### The output stream and the observation of a run (R32, R141) -/

/-- The frame a command emits, if it is `NEXT`. -/
theorem exec_frames {i : Instr} {s t : State} (he : exec i s = .next t) :
    t.frames = s.frames ++ if i = .next then [frameNext chip s] else [] := by
  rcases exec_next he with ⟨rfl, rfl⟩ | ⟨rfl, rfl⟩ | ⟨c, ch, hc, -, rfl⟩
  · exact (List.append_nil _).symm
  · rfl
  · have hne : i ≠ .next := by rintro rfl; cases hc
    rw [if_neg hne, List.append_nil, setChannel_frames]

/-- A run appends one frame for each of its `NEXT` words. -/
theorem runWords_frames {ws : List Word} {s t : State} (h : runWords ws s = .next t) :
    ∃ fs : List Frame, t.frames = s.frames ++ fs ∧ fs.length = ws.countP fun w => w == encode .next := by
  induction ws generalizing s with
  | nil => cases h; exact ⟨[], (List.append_nil _).symm, rfl⟩
  | cons w ws ih =>
    obtain ⟨i, u, hi, he, hrest⟩ := runWords_cons_next h
    obtain ⟨fs, hfs, hlen⟩ := ih hrest
    have hnext : i = .next ↔ (w == encode .next) = true := by
      rw [beq_iff_eq, ← decodeWord_eq_next_iff, hi, Except.ok.injEq]
    refine ⟨(if i = .next then [frameNext chip s] else []) ++ fs, ?_, ?_⟩
    · rw [hfs, exec_frames he, List.append_assoc]
    · rw [List.length_append, hlen, List.countP_cons, Nat.add_comm]
      simp only [← hnext]
      split_ifs <;> rfl

/-- A run completes exactly when each of its words spells a command on a channel the chip has. -/
theorem runWords_completes_iff (ws : List Word) (s : State) :
    (∃ t, runWords ws s = .next t) ↔ ∀ w ∈ ws, ∃ i, decodeWord w = .ok i ∧ i.WellFormed s.channels.length := by
  induction ws generalizing s with
  | nil => exact ⟨fun _ => nofun, fun _ => ⟨s, rfl⟩⟩
  | cons w ws ih =>
    rw [List.forall_mem_cons, ← executeWord_completes_iff]
    constructor
    · rintro ⟨t, ht⟩
      obtain ⟨i, u, hi, he, hrest⟩ := runWords_cons_next ht
      refine ⟨⟨u, by rw [executeWord_ok hi, he]⟩, ?_⟩
      rw [← (exec_keeps he).1]
      exact (ih u).mp ⟨t, hrest⟩
    · rintro ⟨⟨u, hu⟩, hws⟩
      obtain ⟨i, -, he⟩ := executeWord_next hu
      rw [← (exec_keeps he).1] at hws
      simpa only [runWords, hu] using (ih u).mpr hws

/-- What a run that completes shows. -/
theorem observe_of_next {ws : List Word} {s t : State} (h : runWords ws s = .next t) :
    observe ws s = some { frames := t.frames.drop s.frames.length, final := t, chOff := t.chOff } := by
  rw [observe, h]

theorem observe_isSome_iff (ws : List Word) (s : State) :
    (∃ o, observe ws s = some o) ↔ ∃ t, runWords ws s = .next t := by
  constructor
  · rintro ⟨o, ho⟩
    unfold observe at ho
    split at ho
    next t ht => exact ⟨t, ht⟩
    next => cases ho
    next => cases ho
  · rintro ⟨t, ht⟩
    exact ⟨_, observe_of_next ht⟩

/-- Settles O32: frames by the cases of a command, the observation by induction on the words, and a run without one by
the words that complete. -/
theorem outputStreamOnlyGrows : Obligations.OutputStreamOnlyGrows := by
  refine ⟨fun i s t he => ⟨fun hi => ?_, fun hi => ?_⟩, fun ws s o ho => ?_, fun ws s => ?_⟩
  · exact ⟨frameNext chip s, by rw [exec_frames he, if_pos hi]⟩
  · rw [exec_frames he, if_neg hi, List.append_nil]
  · obtain ⟨t, ht⟩ := (observe_isSome_iff ws s).mp ⟨o, ho⟩
    obtain ⟨fs, hfs, hlen⟩ := runWords_frames ht
    rw [observe_of_next ht, hfs, List.drop_left] at ho
    cases ho
    exact ⟨ht, hfs, hlen, rfl⟩
  · rw [Option.eq_none_iff_forall_ne_some, ← not_exists, observe_isSome_iff, runWords_completes_iff]
    push Not
    rfl

end Sys2Proof.Machine

/-! SUPPORT. The statements of 40_operator.md section 2 and of the rate of 10_state.md section 7: the rate by its stage
(R24), and the envelope step in each stage (R55). -/

namespace Sys2Proof.Machine

/-! ### The rate (R24) -/

/-- Rounding keeps 0. -/
theorem valueS_roundS_of_zero {c : Config} (hc : LegalConfig c) {x : Sample} (h : valueS c x = 0) :
    valueS c (roundS c x) = 0 :=
  le_antisymm (roundS_nonpos hc h.le) (roundS_nonneg hc h.ge)

theorem valueS_scaledRate_ideal {c : Config} (hc : LegalConfig c) (h : c.sampleArith = .ideal) (r : ChannelRegs)
    (o : OperatorRegs) (s : RateKind) (v : BitVec 4) :
    valueS c (scaledRate c r o s v) = valueS c (c.baseRate s v) * valueS c (c.ksrFactor r.block r.fnum o.ksr) := by
  rw [scaledRate, valueS_mulS_ideal hc h, roundS_ideal h, roundS_ideal h]

section
variable {c : Config} {r : ChannelRegs} {o : Operator}

theorem rateOf_attack (h : o.stage = .attack) : rateOf c r o = scaledRate c r o.regs .attackRate o.regs.ar := by
  simp only [rateOf, h]
theorem rateOf_decay (h : o.stage = .decay) : rateOf c r o = scaledRate c r o.regs .decayRate o.regs.dr := by
  simp only [rateOf, h]
theorem rateOf_sustain (h : o.stage = .sustain) : rateOf c r o = scaledRate c r o.regs .sustainRate o.regs.sr := by
  simp only [rateOf, h]
theorem rateOf_release (h : o.stage = .release) : rateOf c r o = scaledRate c r o.regs .releaseRate o.regs.rr := by
  simp only [rateOf, h]
theorem rateOf_damp (h : o.stage = .damp) : rateOf c r o = roundS c c.dampRate := by
  simp only [rateOf, h]
theorem rateOf_off (h : o.stage = .off) : rateOf c r o = .rat 0 := by
  simp only [rateOf, h]

end

/-- Settles O60: the cases are the definition's, each moving rate is a product of a table entry that is not negative and
a factor of at least 1, and a product with a factor of 0 is written as 0. -/
theorem rateIsTheCaseTable : Obligations.RateIsTheCaseTable := by
  intro c r o hc
  refine ⟨rateOf_attack, rateOf_decay, rateOf_sustain, rateOf_release, rateOf_damp, rateOf_off, fun hideal => ?_,
    rateOf_nonneg hc r o, one_le_releaseRate hc r, fun s v hzero => ?_⟩
  · have hscaled := valueS_scaledRate_ideal hc hideal r o.regs
    cases hs : o.stage with
    | attack => exact (congrArg _ (rateOf_attack hs)).trans (hscaled ..)
    | decay => exact (congrArg _ (rateOf_decay hs)).trans (hscaled ..)
    | sustain => exact (congrArg _ (rateOf_sustain hs)).trans (hscaled ..)
    | release => exact (congrArg _ (rateOf_release hs)).trans (hscaled ..)
    | damp => exact (congrArg _ (rateOf_damp hs)).trans (valueS_roundS_ideal hideal _)
    | off => exact (congrArg _ (rateOf_off hs)).trans (valueS_zero c)
  · exact mulS_of_zero hc (.inl (valueS_roundS_of_zero hc hzero))

/-! ### The envelope step, stage by stage (R55) -/

theorem ahead_attack {c : Config} {l t : Sample} : Ahead c .attack l t ↔ valueS c l ≤ valueS c t := by
  rw [Ahead, if_pos rfl]

theorem ahead_of_ne {c : Config} {st : Stage} (h : st ≠ .attack) {l t : Sample} :
    Ahead c st l t ↔ valueS c t ≤ valueS c l := by
  rw [Ahead, if_neg h]

theorem moveLevel_linear_attack {c : Config} (hlin : c.egStep = .linear) (l r t : Sample) :
    moveLevel c .attack l r t = minS c t (addS c l r) := by
  simp only [moveLevel, hlin, if_true]

theorem moveLevel_linear_down {c : Config} (hlin : c.egStep = .linear) {st : Stage} (h : st ≠ .attack)
    (l r t : Sample) : moveLevel c st l r t = maxS c t (subS c l r) := by
  simp only [moveLevel, hlin, if_neg h]

/-- An exit test is a comparison of reals (R7). -/
theorem exit_iff {c : Config} (hc : LegalConfig c) (a b : Sample) {exit stay : Stage} (hne : exit ≠ stay) :
    ((if leS c a b then exit else stay) = exit ↔ valueS c a ≤ valueS c b) ∧
    ((if leS c a b then exit else stay) = stay ↔ valueS c b < valueS c a) := by
  rw [← leS_iff hc.names, ← leS_false_iff hc.names]
  cases leS c a b
  · simp [hne.symm]
  · simp [hne]

section
variable {c : Config} {r : ChannelRegs} {o : Operator}

theorem egStep_off (h : o.stage = .off) : egStep c r o = o := by
  simp only [egStep, egStepAt, h]

theorem egStep_attack (h : o.stage = .attack) :
    (egStep c r o).level = moveLevel c .attack o.level (rateOf c r o) (.rat 1) ∧
    (egStep c r o).stage = if leS c (.rat 1) (egStep c r o).level then .decay else .attack := by
  simp only [egStep, egStepAt, h, and_self]

theorem egStep_decay (h : o.stage = .decay) :
    (egStep c r o).level = (if leS c o.level (decayTarget c o.regs) then o.level
      else moveLevel c .decay o.level (rateOf c r o) (decayTarget c o.regs)) ∧
    (egStep c r o).stage = if leS c (egStep c r o).level (decayTarget c o.regs) then .sustain else .decay := by
  simp only [egStep, egStepAt, h, and_self]

theorem egStep_sustain_moving (h : o.stage = .sustain) (hx : o.regs.xof = 1) :
    egStep c r o = { o with level := moveLevel c .sustain o.level (rateOf c r o) (.rat 0) } := by
  simp only [egStep, egStepAt, h, hx, if_true]

theorem egStep_sustain_held (h : o.stage = .sustain) (hx : o.regs.xof = 0) : egStep c r o = o := by
  simp only [egStep, egStepAt, h, hx]
  rfl

theorem egStep_sustain_stage (h : o.stage = .sustain) : (egStep c r o).stage = .sustain := by
  simp only [egStep, egStepAt, h]
  split_ifs
  · rfl
  · exact h

theorem ne_attack_of_fading (h : o.stage = .release ∨ o.stage = .damp) : o.stage ≠ .attack := by
  rcases h with h | h <;> rw [h] <;> nofun

/-- Release and Damp differ in their rate only. -/
theorem egStep_fading (h : o.stage = .release ∨ o.stage = .damp) :
    (egStep c r o).level = moveLevel c o.stage o.level (rateOf c r o) (.rat 0) ∧
    (egStep c r o).stage = if leS c (egStep c r o).level (.rat 0) then .off else o.stage := by
  rcases h with h | h <;> simp only [egStep, egStepAt, h, and_self]

end

/-! ### The level the step leaves, and its exits, under every law -/

section
variable {c : Config} (hc : LegalConfig c) (r : ChannelRegs) {o : Operator}

theorem Operator.Good.inUnit {c : Config} {o : Operator} (h : o.Good c) : InUnit c o.level :=
  ⟨h.level_nonneg, h.level_le_one⟩

theorem inUnit_zero (c : Config) : InUnit c (.rat 0) := by simp [InUnit]
theorem inUnit_one (c : Config) : InUnit c (.rat 1) := by simp [InUnit]

include hc

theorem egStep_attack_exits (h : o.stage = .attack) :
    ((egStep c r o).stage = .decay ↔ 1 ≤ valueS c (egStep c r o).level) ∧
    ((egStep c r o).stage = .attack ↔ valueS c (egStep c r o).level < 1) := by
  rw [(egStep_attack h).2]
  simpa only [valueS_one] using exit_iff hc (.rat 1) (egStep c r o).level (exit := .decay) (stay := .attack) nofun

theorem egStep_decay_exits (h : o.stage = .decay) :
    ((egStep c r o).stage = .sustain ↔ valueS c (egStep c r o).level ≤ valueS c (decayTarget c o.regs)) ∧
    ((egStep c r o).stage = .decay ↔ valueS c (decayTarget c o.regs) < valueS c (egStep c r o).level) := by
  rw [(egStep_decay h).2]
  exact exit_iff hc _ _ nofun

theorem egStep_fading_exits (h : o.stage = .release ∨ o.stage = .damp) :
    ((egStep c r o).stage = .off ↔ valueS c (egStep c r o).level ≤ 0) ∧
    ((egStep c r o).stage = o.stage ↔ 0 < valueS c (egStep c r o).level) := by
  have hne : Stage.off ≠ o.stage := by rcases h with h | h <;> rw [h] <;> nofun
  rw [(egStep_fading h).2]
  simpa only [valueS_zero] using exit_iff hc (egStep c r o).level (.rat 0) hne

/-- Decay at or below its target leaves the level where it is. -/
theorem egStep_decay_reached (h : o.stage = .decay) (ht : valueS c o.level ≤ valueS c (decayTarget c o.regs)) :
    egStep c r o = { o with stage := .sustain } := by
  have hle : leS c o.level (decayTarget c o.regs) = true := (leS_iff hc.names _ _).mpr ht
  simp only [egStep, egStepAt, h, hle, if_true]

/-- Decay above its target moves. -/
theorem egStep_decay_level (h : o.stage = .decay) (ht : valueS c (decayTarget c o.regs) < valueS c o.level) :
    (egStep c r o).level = moveLevel c .decay o.level (rateOf c r o) (decayTarget c o.regs) := by
  rw [(egStep_decay h).1, if_neg (by rwa [Bool.not_eq_true, leS_false_iff hc.names])]

theorem egStep_attack_legal (h : o.stage = .attack) (hg : o.Good c) (hr : o.Representable c) :
    LegalMove c .attack o.level (rateOf c r o) (.rat 1) (egStep c r o).level := by
  rw [(egStep_attack h).1]
  exact moveLevel_legal hc (ahead_attack.mpr (by simpa using hg.level_le_one)) hr (roundS_one c) (rateOf_nonneg hc r o)

theorem egStep_decay_legal (h : o.stage = .decay) (ht : valueS c (decayTarget c o.regs) < valueS c o.level)
    (hr : o.Representable c) :
    LegalMove c .decay o.level (rateOf c r o) (decayTarget c o.regs) (egStep c r o).level := by
  rw [egStep_decay_level hc r h ht]
  exact moveLevel_legal hc ((ahead_of_ne (by decide)).mpr ht.le) hr (roundS_idem hc _) (rateOf_nonneg hc r o)

theorem egStep_sustain_legal (h : o.stage = .sustain) (hx : o.regs.xof = 1) (hg : o.Good c) (hr : o.Representable c) :
    LegalMove c .sustain o.level (rateOf c r o) (.rat 0) (egStep c r o).level := by
  rw [egStep_sustain_moving h hx]
  exact moveLevel_legal hc ((ahead_of_ne (by decide)).mpr (by simpa using hg.level_nonneg)) hr (roundS_zero c)
    (rateOf_nonneg hc r o)

theorem egStep_fading_legal (h : o.stage = .release ∨ o.stage = .damp) (hg : o.Good c) (hr : o.Representable c) :
    LegalMove c o.stage o.level (rateOf c r o) (.rat 0) (egStep c r o).level := by
  have hne := ne_attack_of_fading h
  rw [(egStep_fading h).1]
  exact moveLevel_legal hc ((ahead_of_ne hne).mpr (by simpa using hg.level_nonneg)) hr (roundS_zero c)
    (rateOf_nonneg hc r o)

/-! ### The linear law -/

theorem egStep_attack_linear (hlin : c.egStep = .linear) (h : o.stage = .attack) :
    valueS c (egStep c r o).level = min 1 (valueS c (addS c o.level (rateOf c r o))) := by
  rw [(egStep_attack h).1, moveLevel_linear_attack hlin, valueS_minS hc.names, valueS_one]

theorem egStep_decay_linear (hlin : c.egStep = .linear) (h : o.stage = .decay)
    (ht : valueS c (decayTarget c o.regs) < valueS c o.level) :
    valueS c (egStep c r o).level =
      max (valueS c (decayTarget c o.regs)) (valueS c (subS c o.level (rateOf c r o))) := by
  rw [egStep_decay_level hc r h ht, moveLevel_linear_down hlin (by decide), valueS_maxS hc.names]

theorem egStep_sustain_linear (hlin : c.egStep = .linear) (h : o.stage = .sustain) (hx : o.regs.xof = 1) :
    valueS c (egStep c r o).level = max 0 (valueS c (subS c o.level (rateOf c r o))) := by
  rw [egStep_sustain_moving h hx, moveLevel_linear_down hlin (by decide), valueS_maxS hc.names, valueS_zero]

theorem egStep_fading_linear (hlin : c.egStep = .linear) (h : o.stage = .release ∨ o.stage = .damp) :
    valueS c (egStep c r o).level = max 0 (valueS c (subS c o.level (rateOf c r o))) := by
  have hne := ne_attack_of_fading h
  rw [(egStep_fading h).1, moveLevel_linear_down hlin hne, valueS_maxS hc.names, valueS_zero]

/-! ### Limits, a rate of 0 and a rate of at least 1, under every law -/

theorem egStep_attack_limits (h : o.stage = .attack) (hg : o.Good c) (hr : o.Representable c) :
    valueS c o.level ≤ valueS c (egStep c r o).level ∧ valueS c (egStep c r o).level ≤ 1 := by
  have hm := egStep_attack_legal hc r h hg hr
  exact ⟨ahead_attack.mp hm.onward, by simpa using ahead_attack.mp hm.short⟩

theorem egStep_decay_limits (h : o.stage = .decay) (ht : valueS c (decayTarget c o.regs) < valueS c o.level)
    (hr : o.Representable c) :
    valueS c (decayTarget c o.regs) ≤ valueS c (egStep c r o).level ∧
      valueS c (egStep c r o).level ≤ valueS c o.level := by
  have hm := egStep_decay_legal hc r h ht hr
  exact ⟨(ahead_of_ne (by decide)).mp hm.short, (ahead_of_ne (by decide)).mp hm.onward⟩

theorem egStep_fading_limits (h : o.stage = .release ∨ o.stage = .damp) (hg : o.Good c) (hr : o.Representable c) :
    0 ≤ valueS c (egStep c r o).level ∧ valueS c (egStep c r o).level ≤ valueS c o.level := by
  have hne := ne_attack_of_fading h
  have hm := egStep_fading_legal hc r h hg hr
  exact ⟨by simpa using (ahead_of_ne hne).mp hm.short, (ahead_of_ne hne).mp hm.onward⟩

theorem egStep_sustain_limits (h : o.stage = .sustain) (hg : o.Good c) (hr : o.Representable c) :
    0 ≤ valueS c (egStep c r o).level ∧ valueS c (egStep c r o).level ≤ valueS c o.level := by
  rcases BitVec.eq_zero_or_eq_one o.regs.xof with hx | hx
  · rw [egStep_sustain_held h hx]
    exact ⟨hg.level_nonneg, le_rfl⟩
  · have hm := egStep_sustain_legal hc r h hx hg hr
    exact ⟨by simpa using (ahead_of_ne (by decide)).mp hm.short, (ahead_of_ne (by decide)).mp hm.onward⟩

/-- Outside Attack no step raises the level. -/
theorem egStep_level_le (h : o.stage ≠ .attack) (hg : o.Good c) (hr : o.Representable c) :
    valueS c (egStep c r o).level ≤ valueS c o.level := by
  cases hs : o.stage with
  | off => rw [egStep_off hs]
  | attack => exact absurd hs h
  | decay =>
    rcases le_or_gt (valueS c o.level) (valueS c (decayTarget c o.regs)) with ht | ht
    · rw [egStep_decay_reached hc r hs ht]
    · exact (egStep_decay_limits hc r hs ht hr).2
  | sustain => exact (egStep_sustain_limits hc r hs hg hr).2
  | release => exact (egStep_fading_limits hc r (.inl hs) hg hr).2
  | damp => exact (egStep_fading_limits hc r (.inr hs) hg hr).2

theorem egStep_still (hg : o.Good c) (hr : o.Representable c) (h0 : valueS c (rateOf c r o) = 0) :
    valueS c (egStep c r o).level = valueS c o.level := by
  cases hs : o.stage with
  | off => rw [egStep_off hs]
  | attack => exact (egStep_attack_legal hc r hs hg hr).still h0
  | decay =>
    rcases le_or_gt (valueS c o.level) (valueS c (decayTarget c o.regs)) with ht | ht
    · rw [egStep_decay_reached hc r hs ht]
    · exact (egStep_decay_legal hc r hs ht hr).still h0
  | sustain =>
    rcases BitVec.eq_zero_or_eq_one o.regs.xof with hx | hx
    · rw [egStep_sustain_held hs hx]
    · exact (egStep_sustain_legal hc r hs hx hg hr).still h0
  | release => exact (egStep_fading_legal hc r (.inl hs) hg hr).still h0
  | damp => exact (egStep_fading_legal hc r (.inr hs) hg hr).still h0

theorem egStep_attack_crosses (h : o.stage = .attack) (hg : o.Good c) (hr : o.Representable c)
    (h1 : 1 ≤ valueS c (rateOf c r o)) : valueS c (egStep c r o).level = 1 := by
  simpa using (egStep_attack_legal hc r h hg hr).cross hg.inUnit (inUnit_one c) h1

theorem egStep_decay_crosses (h : o.stage = .decay) (ht : valueS c (decayTarget c o.regs) < valueS c o.level)
    (hg : o.Good c) (hr : o.Representable c) (h1 : 1 ≤ valueS c (rateOf c r o)) :
    valueS c (egStep c r o).level = valueS c (decayTarget c o.regs) :=
  (egStep_decay_legal hc r h ht hr).cross hg.inUnit (decayTarget_unit hc _) h1

theorem egStep_sustain_crosses (h : o.stage = .sustain) (hx : o.regs.xof = 1) (hg : o.Good c) (hr : o.Representable c)
    (h1 : 1 ≤ valueS c (rateOf c r o)) : valueS c (egStep c r o).level = 0 := by
  simpa using (egStep_sustain_legal hc r h hx hg hr).cross hg.inUnit (inUnit_zero c) h1

theorem egStep_fading_crosses (h : o.stage = .release ∨ o.stage = .damp) (hg : o.Good c) (hr : o.Representable c)
    (h1 : 1 ≤ valueS c (rateOf c r o)) : valueS c (egStep c r o).level = 0 := by
  simpa using (egStep_fading_legal hc r h hg hr).cross hg.inUnit (inUnit_zero c) h1

end

/-- Settles O50: the exits are comparisons with the level the step leaves, and that level is the linear law's or a legal
move of any law. -/
theorem envelopeStepInEachStage : Obligations.EnvelopeStepInEachStage := by
  intro c r o hc
  have hattack := egStep_attack_exits hc r (o := o)
  have hdecay := egStep_decay_exits hc r (o := o)
  have hfading := egStep_fading_exits hc r (o := o)
  refine ⟨egStep_regs c r o, egStep_phase c r o, egStep_off, egStep_decay_reached hc r,
    fun hs => ⟨egStep_sustain_stage hs, egStep_sustain_held hs⟩,
    fun hlin => ⟨fun hs => ?_, fun hs ht => ?_, egStep_sustain_linear hc r hlin, fun hs => ?_⟩,
    fun hideal => ⟨valueS_addS_ideal hc hideal _ _, valueS_subS_ideal hc hideal _ _, valueS_roundS_ideal hideal _⟩,
    hattack, hdecay, hfading,
    fun hg hr => ⟨fun hs => egStep_attack_limits hc r hs hg hr, fun hs ht => egStep_decay_limits hc r hs ht hr,
      fun hs => hs.elim (fun hs => egStep_sustain_limits hc r hs hg hr) fun hs => egStep_fading_limits hc r hs hg hr⟩,
    fun hg hr h0 => ?_,
    fun hg hr h1 => ⟨fun hs => ?_, fun hs ht => ?_, fun hs hx => egStep_sustain_crosses hc r hs hx hg hr h1,
      fun hs => ?_⟩⟩
  · have hl := egStep_attack_linear hc r hlin hs
    exact ⟨hl, fun hup => (hattack hs).1.mpr (hl ▸ le_min le_rfl hup),
      fun hup => (hattack hs).2.mpr (hl ▸ min_lt_of_right_lt hup)⟩
  · have hl := egStep_decay_linear hc r hlin hs ht
    exact ⟨hl, fun hdown => (hdecay hs).1.mpr (hl ▸ max_le le_rfl hdown),
      fun hdown => (hdecay hs).2.mpr (hl ▸ lt_max_of_lt_right hdown)⟩
  · have hl := egStep_fading_linear hc r hlin hs
    exact ⟨hl, fun hdown => (hfading hs).1.mpr (hl ▸ max_le le_rfl hdown),
      fun hdown => (hfading hs).2.mpr (hl ▸ lt_max_of_lt_right hdown)⟩
  · have hl := egStep_still hc r hg hr h0
    exact ⟨hl, fun hs hlt => (hattack hs).2.mpr (hl ▸ hlt), fun hs ht => (hdecay hs).2.mpr (hl ▸ ht),
      fun hs hpos => (hfading hs).2.mpr (hl ▸ hpos)⟩
  · have hl := egStep_attack_crosses hc r hs hg hr h1
    exact ⟨hl, (hattack hs).1.mpr hl.ge⟩
  · have hl := egStep_decay_crosses hc r hs ht hg hr h1
    exact ⟨hl, (hdecay hs).1.mpr hl.le⟩
  · have hl := egStep_fading_crosses hc r hs hg hr h1
    exact ⟨hl, (hfading hs).1.mpr hl.le⟩

end Sys2Proof.Machine

/-! SUPPORT. The invariants of 10_state.md section 5 and 00_scope.md section 4, at construction and over every step:
R15, levels of the chip's arithmetic (log 3), monotonic levels, and that nothing enters Damp (R56, R130). -/

namespace Sys2Proof.Machine

/-! ### What one step can do to an operator -/

/-- Everything a command can make of an operator `o` of a channel with registers `r`: other registers (the same ones
too), a key-on, a key-off, a reset, or one tick. -/
inductive OperatorMove (r : ChannelRegs) (o : Operator) : Operator → Prop
  | regs (regs : OperatorRegs) : OperatorMove r o { o with regs := regs }
  | keyOn : OperatorMove r o (keyOnOp o)
  | keyOff : OperatorMove r o (keyOffOp o)
  | reset : OperatorMove r o (resetOp o)
  | tick (mi : Nat) (m : Sample) : OperatorMove r o (opNext chip r mi m o).1

theorem OperatorMove.kept (r : ChannelRegs) (o : Operator) : OperatorMove r o o := .regs o.regs

/-- A KON write of 0 keys every operator off, or resets them all (R96). -/
theorem setKon_zero_op (ch : Channel) (k : Fin 4) :
    (setKon 0 ch).op k = keyOffOp (ch.op k) ∨ (setKon 0 ch).op k = resetOp (ch.op k) := by
  cases hoff : ch.isOff
  · rw [setKon_zero_of_on hoff, Channel.mapOps_op, Channel.setKonBit_op]
    exact .inl rfl
  · rw [setKon_zero_of_off hoff, Channel.setKonBit_op, chReset_op]
    exact .inr rfl

theorem setKon_move (v : Int) (ch : Channel) (k : Fin 4) : OperatorMove ch.regs (ch.op k) ((setKon v ch).op k) := by
  by_cases hv : v = 0
  · subst hv
    rcases setKon_zero_op ch k with h | h <;> rw [h]
    · exact .keyOff
    · exact .reset
  · rcases BitVec.eq_zero_or_eq_one ch.regs.kon with hk | hk
    · rw [setKon_unkeyed hv hk, Channel.mapOps_op, Channel.setKonBit_op]
      exact .keyOn
    · rw [setKon_keyed hv hk]
      exact .kept _ _

theorem setAlg_move (v : Int) (ch : Channel) (k : Fin 4) : OperatorMove ch.regs (ch.op k) ((setAlg v ch).op k) := by
  by_cases hv : maskTo 3 v = ch.regs.alg
  · rw [setAlg_same hv]
    exact .kept _ _
  · have hop : (setAlg v ch).op k = resetOp (ch.op k) := by
      rw [setAlg_changed hv]
      exact (withRegs_op (chReset ch) _ k).trans (chReset_op ch k)
    exact hop ▸ .reset

theorem withRegs_move (ch : Channel) (r : ChannelRegs) (k : Fin 4) :
    OperatorMove ch.regs (ch.op k) (({ ch with regs := r } : Channel).op k) := by
  rw [withRegs_op]
  exact .kept _ _

theorem setOp_move (ch : Channel) (j : Fin 4) (r : OperatorRegs) (k : Fin 4) :
    OperatorMove ch.regs (ch.op k) ((ch.setOp j { ch.op j with regs := r }).op k) := by
  by_cases hk : k = j
  · subst hk
    rw [Channel.setOp_op_same]
    exact .regs r
  · rw [ch.setOp_op_other _ hk]
    exact .kept _ _

theorem channelEdit_move (i : Instr) (ch : Channel) (k : Fin 4) :
    OperatorMove ch.regs (ch.op k) ((channelEdit i ch).op k) := by
  cases i
  case nop | next => exact .kept _ _
  case wrchKON c v => exact setKon_move _ ch k
  case wrchALG c v => exact setAlg_move _ ch k
  case wrchBLOCK | wrchFNUM | wrchLFO | wrchPANPOT | wrchCHPAN | wrchVOLUME | wrchEXPRESSION | wrchBO | wrchVELOCITY =>
    exact withRegs_move ch _ k
  all_goals exact setOp_move ch _ _ k

theorem chNext_move (ch : Channel) (k : Fin 4) : OperatorMove ch.regs (ch.op k) ((chNext chip ch).1.op k) := by
  rcases chNext_op chip ch k with h | ⟨mi, m, h⟩ <;> rw [h]
  · exact .kept _ _
  · exact .tick mi m

theorem channelAfter_move (i : Instr) (j : Nat) (ch : Channel) (k : Fin 4) :
    OperatorMove ch.regs (ch.op k) ((channelAfter i j ch).op k) := by
  unfold channelAfter
  split_ifs
  · exact chNext_move ch k
  · exact channelEdit_move i ch k
  · exact .kept _ _

/-- Each operator after a step is a move of that operator before it. -/
theorem step_moves {s t : State} (h : step s = .next t) {j : Nat} {ch' : Channel} (h' : t.channels[j]? = some ch') :
    ∃ ch, s.channels[j]? = some ch ∧ ∀ k, OperatorMove ch.regs (ch.op k) (ch'.op k) := by
  obtain ⟨w, rest, i, -, -, he⟩ := step_next h
  rw [exec_channels he, Option.map_eq_some_iff] at h'
  obtain ⟨ch, hch, rfl⟩ := h'
  exact ⟨ch, hch, channelAfter_move i j ch⟩

/-- A property of operators that every move keeps holds of all operators after a step if it did before. -/
theorem step_keeps_operators {P : Operator → Prop} (hP : ∀ r o o', OperatorMove r o o' → P o → P o') {s t : State}
    (hs : ∀ ch ∈ s.channels, ∀ k, P (ch.op k)) (h : step s = .next t) : ∀ ch ∈ t.channels, ∀ k, P (ch.op k) := by
  intro ch' hmem k
  obtain ⟨j, hj⟩ := List.mem_iff_getElem?.mp hmem
  obtain ⟨ch, hch, hmove⟩ := step_moves h hj
  exact hP _ _ _ (hmove k) (hs ch (List.mem_of_getElem? hch) k)

/-! ### R15 -/

/-- R15 reads the stage and the level only. -/
theorem Operator.Good.congr {c : Config} {o o' : Operator} (h : o.Good c) (hs : o'.stage = o.stage)
    (hl : o'.level = o.level) : o'.Good c := by
  obtain ⟨h0, h1, hoff⟩ := h
  exact ⟨by rwa [hl], by rwa [hl], fun hst => by rw [hl]; exact hoff (by rwa [← hs])⟩

theorem keyOnOp_good {c : Config} {o : Operator} (h : o.Good c) : (keyOnOp o).Good c :=
  ⟨h.level_nonneg, h.level_le_one, nofun⟩

theorem egStep_good {c : Config} (hc : LegalConfig c) (r : ChannelRegs) {o : Operator} (h : o.Good c) :
    (egStep c r o).Good c :=
  egStepAt_good hc (rateOf_nonneg hc r o) h

theorem operatorMove_good {r : ChannelRegs} {o o' : Operator} (h : OperatorMove r o o') (hg : o.Good chip) :
    o'.Good chip := by
  cases h with
  | regs regs => exact hg.congr rfl rfl
  | keyOn => exact keyOnOp_good hg
  | keyOff => exact keyOffOp_good hg
  | reset => exact resetOp_good chip o
  | tick mi m => exact (egStep_good chip_legal r hg).congr rfl rfl

theorem step_length {s t : State} (h : step s = .next t) : t.channels.length = s.channels.length := by
  obtain ⟨w, rest, i, -, -, he⟩ := step_next h
  exact (exec_keeps he).1

/-- Settles O33: a step keeps the number of channels, and every move of an operator keeps R15. -/
theorem envelopeInvariantKeptByEveryStep : Obligations.EnvelopeInvariantKeptByEveryStep := by
  intro s t hs h
  have hlen := step_length h
  exact ⟨hlen ▸ hs.some_channel, hlen ▸ hs.channel_count,
    step_keeps_operators (fun _ _ _ hmove => operatorMove_good hmove) hs.good h⟩

/-! ### Construction (R130) -/

/-- Every operator of a chip as constructed is the reset operator. -/
theorem op_of_mem_construct {n : Nat} {ch : Channel} (h : ch ∈ (State.construct n).channels) (k : Fin 4) :
    ch.op k = Operator.reset := by
  rw [eq_reset_of_mem_construct h]
  revert k
  decide

theorem operatorReset_good (c : Config) : Operator.reset.Good c := resetOp_good c Operator.reset

theorem construct_length (n : Nat) : (State.construct n).channels.length = n := List.length_replicate

theorem construct_inv (c : Config) {n : Nat} (h1 : 1 ≤ n) (h256 : n ≤ 256) : (State.construct n).Inv c := by
  refine ⟨(construct_length n).symm ▸ h1, (construct_length n).symm ▸ h256, fun ch hch k => ?_⟩
  rw [op_of_mem_construct hch k]
  exact operatorReset_good c

/-- Settles O34: every operator is the reset one, which is Off at level 0. -/
theorem envelopeInvariantAtConstruction : Obligations.EnvelopeInvariantAtConstruction :=
  fun c => ⟨construct_inv c (by decide) (by decide), fun _ => construct_inv c⟩

/-- Settles O37: every channel is the reset channel, whose fields are read off. -/
theorem constructionGivesResetState : Obligations.ConstructionGivesResetState := by
  have hoff : Channel.isOff Channel.reset = true := by decide
  refine ⟨rfl, fun n => ⟨construct_length n, rfl, rfl, ?_, fun ch hch => ?_⟩⟩
  · rw [State.chOff, State.construct, List.map_replicate, hoff]
  · have hop := op_of_mem_construct hch
    rw [eq_reset_of_mem_construct hch] at hop ⊢
    refine ⟨rfl, rfl, rfl, rfl, fun k => ?_⟩
    rw [hop k]
    exact ⟨rfl, rfl, rfl, rfl⟩

/-! ### Levels of the chip's arithmetic (log 3) -/

/-- The linear law moves a level to its target or to a rounded result. -/
theorem roundS_moveLevel {c : Config} (hc : LegalConfig c) (hlin : c.egStep = .linear) (st : Stage) (l r : Sample)
    {t : Sample} (ht : roundS c t = t) : roundS c (moveLevel c st l r t) = moveLevel c st l r t := by
  have hadd : roundS c (addS c l r) = addS c l r := roundS_idem hc _
  have hsub : roundS c (subS c l r) = subS c l r := roundS_idem hc _
  simp only [moveLevel, hlin, minS, maxS]
  split_ifs <;> assumption

/-- The level after an envelope step: the old one, or a move toward a value of the chip's arithmetic. -/
theorem egStep_level_cases {c : Config} (hc : LegalConfig c) (r : ChannelRegs) (o : Operator) :
    (egStep c r o).level = o.level ∨
      ∃ st t, roundS c t = t ∧ (egStep c r o).level = moveLevel c st o.level (rateOf c r o) t := by
  cases hs : o.stage with
  | off => exact .inl (by rw [egStep_off hs])
  | attack => exact .inr ⟨_, _, roundS_one c, (egStep_attack hs).1⟩
  | decay =>
    rcases le_or_gt (valueS c o.level) (valueS c (decayTarget c o.regs)) with ht | ht
    · exact .inl (by rw [egStep_decay_reached hc r hs ht])
    · exact .inr ⟨_, _, roundS_idem hc _, egStep_decay_level hc r hs ht⟩
  | sustain =>
    rcases BitVec.eq_zero_or_eq_one o.regs.xof with hx | hx
    · exact .inl (by rw [egStep_sustain_held hs hx])
    · exact .inr ⟨_, _, roundS_zero c, by rw [egStep_sustain_moving hs hx]⟩
  | release => exact .inr ⟨_, _, roundS_zero c, (egStep_fading (.inl hs)).1⟩
  | damp => exact .inr ⟨_, _, roundS_zero c, (egStep_fading (.inr hs)).1⟩

theorem operatorMove_representable {r : ChannelRegs} {o o' : Operator} (h : OperatorMove r o o')
    (ho : o.Representable chip) : o'.Representable chip := by
  cases h with
  | regs | keyOn => exact ho
  | keyOff => intro hlin; rw [keyOffOp_level, ho hlin]
  | reset => exact fun _ => roundS_zero chip
  | tick mi m =>
    intro hlin
    rw [opNext_level]
    rcases egStep_level_cases chip_legal r o with hl | ⟨st, t, ht, hl⟩ <;> rw [hl]
    · exact ho hlin
    · exact roundS_moveLevel chip_legal hlin st _ _ ht

/-- Settles O35: level 0 is representable, and every move keeps, zeroes or rounds the level. -/
theorem levelsStayRepresentable : Obligations.LevelsStayRepresentable := by
  refine ⟨fun n ch hch k _ => ?_, fun s t hs h => ?_⟩
  · rw [op_of_mem_construct hch k]
    exact roundS_zero chip
  · exact step_keeps_operators (fun _ _ _ hmove => operatorMove_representable hmove) hs h

/-! ### Monotonic levels, and Damp (R15, R56) -/

/-- Outside Attack no move raises the level of an operator that keeps its stage, and in Attack none lowers it. -/
theorem operatorMove_monotonic {r : ChannelRegs} {o o' : Operator} (h : OperatorMove r o o') (hg : o.Good chip)
    (hr : o.Representable chip) (hstage : o'.stage = o.stage) :
    (o.stage = .attack → valueS chip o.level ≤ valueS chip o'.level) ∧
    (o.stage ≠ .attack → valueS chip o'.level ≤ valueS chip o.level) := by
  cases h with
  | regs | keyOn => exact ⟨fun _ => le_rfl, fun _ => le_rfl⟩
  | keyOff => rw [keyOffOp_level]; exact ⟨fun _ => le_rfl, fun _ => le_rfl⟩
  | reset =>
    refine ⟨fun hattack => ?_, fun _ => by simpa using hg.level_nonneg⟩
    rw [hattack] at hstage
    cases hstage
  | tick mi m =>
    exact ⟨fun hattack => (egStep_attack_limits chip_legal r hattack hg hr).1,
      fun hne => egStep_level_le chip_legal r hne hg hr⟩

/-- No move enters Damp. -/
theorem operatorMove_damp {r : ChannelRegs} {o o' : Operator} (h : OperatorMove r o o') (hdamp : o'.stage = .damp) :
    o.stage = .damp := by
  cases h with
  | regs regs => exact hdamp
  | keyOn => cases hdamp
  | keyOff =>
    rw [keyOffOp_stage] at hdamp
    split_ifs at hdamp
  | reset => cases hdamp
  | tick mi m => exact egStepAt_damp hdamp

/-- Settles O36: each operator after the step is a move of the one before it, and both facts hold of every move. -/
theorem levelIsMonotonicWithinAStageAndDampIsNotEntered :
    Obligations.LevelIsMonotonicWithinAStageAndDampIsNotEntered := by
  have hmoves {s t : State} (h : step s = .next t) {j : Nat} {ch ch' : Channel} (hch : s.channels[j]? = some ch)
      (hch' : t.channels[j]? = some ch') (k : Fin 4) : OperatorMove ch.regs (ch.op k) (ch'.op k) := by
    obtain ⟨old, hold, hmove⟩ := step_moves h hch'
    rw [hch] at hold
    cases hold
    exact hmove k
  refine ⟨fun s t hs hr h j ch ch' k hch hch' => ?_, fun s t h j ch ch' k hch hch' => ?_⟩
  · have hmem := List.mem_of_getElem? hch
    exact operatorMove_monotonic (hmoves h hch hch' k) (hs.good ch hmem k) (hr ch hmem k)
  · exact operatorMove_damp (hmoves h hch hch' k)

end Sys2Proof.Machine

/-! SUPPORT. The statements of 10_state.md section 7 and 40_operator.md section 3: the feedback coefficient and the
blend (R26, R30), the increment and the phase (R23, R57, R58), the waveform index and the output (R54, R59, R60). -/

namespace Sys2Proof.Machine

/-! ### The feedback coefficient (R26) -/

theorem fbCoefOf_zero {c : Config} (hc : LegalConfig c) {o : OperatorRegs} (h : o.fb = 0) : fbCoefOf c o = .rat 0 := by
  rw [fbCoefOf, h, hc.fbCoef, roundS_zero]

/-- Settles O43: the coefficient is the rounded entry, and the entry at FB = 0 is 0. -/
theorem feedbackCoefficientIsZeroAtFbZero : Obligations.FeedbackCoefficientIsZeroAtFbZero :=
  fun _ _ hc => ⟨rfl, fun hideal => roundS_ideal hideal _, fbCoefOf_zero hc⟩

/-! ### Powers of two are values of binary64 -/

theorem floorLog2_pow2 (e : Int) : floorLog2 (pow2 e) = e := by
  obtain ⟨hlo, hhi⟩ := floorLog2_bounds (pow2_ne_zero e)
  rw [abs_of_pos (pow2_pos e)] at hlo hhi
  have hle := pow2_le_iff.mp hlo
  have hlt := pow2_lt_iff.mp hhi
  omega

theorem roundBinary64_pow2 (inf : Rat) {e : Int} (hlo : -1074 ≤ e) (hhi : e < 1024) :
    roundBinary64 inf (pow2 e) = pow2 e := by
  have hulp : ulpExponent (pow2 e) ≤ e := by
    rw [ulpExponent, floorLog2_pow2]
    omega
  obtain ⟨n, -, hn⟩ := pow2_eq_int_mul hulp
  rw [roundBinary64_eq, if_neg (pow2_ne_zero e), roundFinite_of_multiple hn, abs_of_pos (pow2_pos e),
    if_pos (pow2_lt_iff.mpr hhi)]

/-- Rounding keeps 1/2. -/
theorem valueS_roundS_of_half {c : Config} (hc : LegalConfig c) {x : Sample} (h : valueS c x = 1 / 2) :
    valueS c (roundS c x) = 1 / 2 := by
  have hhalf : roundRat c (1 / 2) = 1 / 2 := by
    have hpow : pow2 (-1) = 1 / 2 := by norm_num [pow2_eq_zpow]
    unfold roundRat
    split
    · rfl
    · rw [← hpow]
      exact roundBinary64_pow2 _ (by decide) (by decide)
  have hx : valueS c x = ((1 / 2 : Rat) : Real) := by rw [h]; norm_num
  obtain ⟨hlo, hhi⟩ := roundS_bounds hc x (1 / 2)
  rw [hhalf] at hlo hhi
  rw [le_antisymm (hhi hx.le) (hlo hx.ge)]
  norm_num

/-! ### The blend (R30, R93) -/

/-- The one division, whatever the rate rounds to (log 19). -/
theorem divRate_eq {c : Config} (hc : LegalConfig c) (x a : Sample) :
    divRate c x a = roundS c (if valueS c (roundS c c.sampleRate) = 0 then c.divByZero x
      else exactS c .div a (roundS c c.sampleRate)) := by
  split_ifs with h
  · exact divRate_of_eq hc h x a
  · exact divRate_of_ne hc h x a

theorem valueS_blendCurr_ideal {c : Config} (hc : LegalConfig c) (h : c.sampleArith = .ideal) :
    valueS c (blendCurr c) = min 1 (1 / 2 * valueS c c.refRate / valueS c c.sampleRate) := by
  rw [blendCurr, valueS_minS hc.names, valueS_divRate_ideal hc h, valueS_mulS_ideal hc h, roundS_ideal h, valueS_one,
    valueS_rat]
  norm_num

theorem valueS_blendPrev_ideal {c : Config} (hc : LegalConfig c) (h : c.sampleArith = .ideal) :
    valueS c (blendPrev c) = 1 - valueS c (blendCurr c) := by
  rw [blendPrev, valueS_subS_ideal hc h, valueS_one]

/-- `0.5 · REF_RATE`, the dividend of R30 as the rule states it. -/
theorem valueS_half_refRate {c : Config} (hc : LegalConfig c) :
    2 * valueS c (exactS c .mul (.rat (1 / 2)) c.refRate) = valueS c c.refRate := by
  rw [valueS_exact_mul hc.names, valueS_rat]
  push_cast
  ring

section
variable {c : Config} (hc : LegalConfig c) (hrate : valueS c (roundS c c.sampleRate) = 0)
include hc hrate

theorem valueS_blendCurr_rate_zero : valueS c (blendCurr c) =
    min 1 (valueS c (roundS c (c.divByZero (exactS c .mul (.rat (1 / 2)) c.refRate)))) := by
  rw [blendCurr, divRate_of_eq hc hrate, valueS_minS hc.names, valueS_one]

theorem blendCurr_rate_zero_whole (h : 2 * valueS c c.sampleRate ≤ valueS c c.refRate) :
    valueS c (blendCurr c) = 1 := by
  have hx : valueS c c.sampleRate ≤ valueS c (exactS c .mul (.rat (1 / 2)) c.refRate) := by
    linarith [valueS_half_refRate hc]
  rw [valueS_blendCurr_rate_zero hc hrate]
  exact min_eq_left (one_le_roundS hc (hc.divByZero.whole _ hx))

theorem blendCurr_rate_zero_half (h : valueS c c.sampleRate = valueS c c.refRate) : valueS c (blendCurr c) = 1 / 2 := by
  have hx := hc.divByZero.half _ ((valueS_half_refRate hc).trans h.symm)
  rw [valueS_blendCurr_rate_zero hc hrate, valueS_roundS_of_half hc hx]
  norm_num

end

/-- Settles O44: the formulas are the definitions', ideal arithmetic computes them on reals, and a rate that rounds to 0
leaves the free quotient, whose corner cases survive rounding. -/
theorem blendCoefficientsSumToOne : Obligations.BlendCoefficientsSumToOne := by
  intro c hc
  refine ⟨rfl, divRate_eq hc, rfl, fun hideal => ?_, fun hrate =>
    ⟨blendCurr_rate_zero_whole hc hrate, blendCurr_rate_zero_half hc hrate⟩⟩
  have hprev := valueS_blendPrev_ideal hc hideal
  exact ⟨valueS_blendCurr_ideal hc hideal, hprev, by rw [hprev, add_sub_cancel]⟩

/-! ### The increment (R23) -/

/-- A factor of 0 makes the dividend 0, for any product and reading of constants that keep 0. -/
theorem valueS_incDividend_zero {c : Config} {mul : Sample → Sample → Sample} {read : Sample → Sample}
    (hmul : ∀ a b, valueS c a = 0 ∨ valueS c b = 0 → valueS c (mul a b) = 0)
    (hread : ∀ x, valueS c x = 0 → valueS c (read x) = 0) {r : ChannelRegs} {m : BitVec 4}
    (h : r.fnum = 0 ∨ valueS c (c.multFactor m) = 0) : valueS c (incDividend mul read c r m) = 0 := by
  refine hmul _ _ (.inl (hmul _ _ ?_))
  rcases h with hf | hm
  · exact .inl (hmul _ _ (.inl (by rw [hf]; simp)))
  · exact .inr (hread _ hm)

theorem valueS_incReal_zero {c : Config} (hc : LegalConfig c) {r : ChannelRegs} {m : BitVec 4}
    (h : r.fnum = 0 ∨ valueS c (c.multFactor m) = 0) : valueS c (incReal c r m) = 0 := by
  refine valueS_divRate_zero hc ?_ ?_
  · exact valueS_incDividend_zero (fun a b hab => by rw [valueS_exact_mul hc.names]; exact mul_eq_zero.mpr hab)
      (fun _ hx => hx) h
  · exact valueS_incDividend_zero (fun a b hab => by rw [mulS_of_zero hc hab, valueS_zero])
      (fun _ hx => valueS_roundS_of_zero hc hx) h

theorem incOf_zero {c : Config} (hc : LegalConfig c) {r : ChannelRegs} {m : BitVec 4}
    (h : r.fnum = 0 ∨ valueS c (c.multFactor m) = 0) : incOf c r m = 0 := by
  rw [incOf, floorS_eq hc.names, valueS_incReal_zero hc h, Int.floor_zero]
  rfl

theorem phaseDelta_eq (c : Config) (r : ChannelRegs) (mi : Nat) (o : OperatorRegs) :
    phaseDelta c r mi o = max 0 ((incOf c r o.mult : Int) + c.dtTerm o.dt r.block r.fnum +
      (if o.evb = 1 then c.vibTerm (incOf c r o.mult) mi o.dvb else 0)) := by
  unfold phaseDelta
  split_ifs <;> simp

/-- With neither detune nor vibrato an increment of 0 freezes the phase (R57). -/
theorem opNext_phase_frozen {c : Config} {r : ChannelRegs} (mi : Nat) (x : Sample) {o : Operator}
    (hinc : incOf c r o.regs.mult = 0) (hdt : c.dtTerm o.regs.dt r.block r.fnum = 0) (hevb : o.regs.evb = 0) :
    (opNext c r mi x o).1.phase = o.phase := by
  have hne : o.regs.evb ≠ 1 := by rw [hevb]; decide
  have hdelta : phaseDelta c r mi o.regs = 0 := by rw [phaseDelta_eq, hinc, hdt, if_neg hne]; rfl
  rw [opNext_phase, hdelta, BitVec.ofInt_ofNat]
  exact BitVec.add_zero _

theorem valueS_pow2 (c : Config) (e : Int) : valueS c (.rat (pow2 e)) = (2 : Real) ^ e := by
  rw [valueS_rat, pow2_eq_zpow, Rat.cast_zpow, Rat.cast_ofNat]

theorem valueS_incReal_ideal {c : Config} (hc : LegalConfig c) (h : c.sampleArith = .ideal) (r : ChannelRegs)
    (m : BitVec 4) : valueS c (incReal c r m) =
      (r.fnum.toNat : Real) * (2 : Real) ^ ((r.block.toNat : Int) + (r.bo.toNat : Int) - c.phaseRef) *
        valueS c (c.multFactor m) * valueS c c.phaseConst / valueS c c.sampleRate := by
  rw [incReal, valueS_divRate_ideal hc h, incDividend]
  simp only [valueS_mulS_ideal hc h, roundS_ideal h, valueS_pow2, incExponent]
  rw [valueS_rat, Rat.cast_natCast]

/-- A saturated integer of a non-negative real. -/
theorem incOf_eq_min {c : Config} (hc : LegalConfig c) {r : ChannelRegs} {m : BitVec 4}
    (h : 0 ≤ valueS c (incReal c r m)) : (incOf c r m : Int) = min (2 ^ 64 - 1) ⌊valueS c (incReal c r m)⌋ := by
  have hfloor : 0 ≤ ⌊valueS c (incReal c r m)⌋ := Int.floor_nonneg.mpr h
  rw [incOf, floorS_eq hc.names]
  omega

/-- Settles O45: the saturation bounds it, a factor of 0 survives every rounding, and under ideal arithmetic the
quotient is that of the reals, which is not negative. -/
theorem incrementIsTheSaturatedFloor : Obligations.IncrementIsTheSaturatedFloor := by
  intro c r m hc
  refine ⟨min_le_left _ _, fun h => ⟨incOf_zero hc h, fun mi x o hm hdt hevb => ?_⟩, fun hideal => ?_⟩
  · exact opNext_phase_frozen mi x (hm ▸ incOf_zero hc h) hdt hevb
  · have hvalue := valueS_incReal_ideal hc hideal r m
    have hmult := hc.multFactor m
    have hconst := hc.phaseConst
    have hrate := hc.sampleRate
    rw [incOf_eq_min hc (by rw [hvalue]; positivity), hvalue]

end Sys2Proof.Machine

/-! SUPPORT. The statements of 40_operator.md sections 1 and 3: the phase offset (R58), the waveform index (R59), and an
operator's output (R54, R60). -/

namespace Sys2Proof.Machine

/-! ### The phase offset (R58) -/

section
variable {c : Config} (hc : LegalConfig c) (hideal : c.sampleArith = .ideal) {m m' : Sample}
include hc hideal

/-- Under ideal arithmetic the offset is the integer part of m · 2^64, toward zero, modulo 2^64. -/
theorem phaseOffset_toNat (m : Sample) : ((phaseOffset c m).toNat : Int) =
    (if 0 ≤ valueS c m * 2 ^ 64 then ⌊valueS c m * 2 ^ 64⌋ else ⌈valueS c m * 2 ^ 64⌉) % 2 ^ 64 := by
  rw [phaseOffset, ← maskTo, maskTo_toNat, truncS_eq hc.names, valueS_mulS_ideal hc hideal, valueS_pow2]
  norm_cast

theorem phaseOffset_of_nonneg (h : 0 ≤ valueS c m) :
    ((phaseOffset c m).toNat : Int) = ⌊valueS c m * 2 ^ 64⌋ % 2 ^ 64 := by
  rw [phaseOffset_toNat hc hideal, if_pos (by positivity)]

theorem phaseOffset_of_nonpos (h : valueS c m ≤ 0) :
    ((phaseOffset c m).toNat : Int) = ⌈valueS c m * 2 ^ 64⌉ % 2 ^ 64 := by
  rw [phaseOffset_toNat hc hideal]
  rcases h.eq_or_lt with h | h
  · simp [h]
  · rw [if_neg (not_le.mpr (mul_neg_of_neg_of_pos h (by norm_num)))]

/-- One more in a non-negative input is 2^64 more in its integer part. -/
theorem phaseOffset_add_one (h : 0 ≤ valueS c m) (h' : valueS c m' = valueS c m + 1) :
    phaseOffset c m' = phaseOffset c m := by
  have hfloor : ⌊valueS c m' * 2 ^ 64⌋ = ⌊valueS c m * 2 ^ 64⌋ + 2 ^ 64 := by
    rw [h', add_mul, one_mul, ← Int.floor_add_intCast]
    norm_cast
  apply BitVec.eq_of_toNat_eq
  rw [← Nat.cast_inj (R := Int), phaseOffset_of_nonneg hc hideal (h'.symm ▸ by positivity),
    phaseOffset_of_nonneg hc hideal h, hfloor, Int.add_emod_right]

/-- One less in a non-positive input is 2^64 less in its integer part. -/
theorem phaseOffset_sub_one (h : valueS c m ≤ 0) (h' : valueS c m' = valueS c m - 1) :
    phaseOffset c m' = phaseOffset c m := by
  have hceil : ⌈valueS c m' * 2 ^ 64⌉ = ⌈valueS c m * 2 ^ 64⌉ - 2 ^ 64 := by
    rw [h', sub_mul, one_mul, ← Int.ceil_sub_intCast]
    norm_cast
  apply BitVec.eq_of_toNat_eq
  rw [← Nat.cast_inj (R := Int), phaseOffset_of_nonpos hc hideal (by rw [h']; linarith),
    phaseOffset_of_nonpos hc hideal h, hceil, Int.sub_emod_right]

/-- An input below the last place of the phase has integer part 0. -/
theorem phaseOffset_small (h : |valueS c m| < 1 / 2 ^ 64) : phaseOffset c m = 0 := by
  obtain ⟨hlo, hhi⟩ := abs_lt.mp h
  apply BitVec.eq_of_toNat_eq
  rw [← Nat.cast_inj (R := Int)]
  rcases le_total 0 (valueS c m) with h0 | h0
  · have hfloor : ⌊valueS c m * 2 ^ 64⌋ = 0 :=
      Int.floor_eq_zero_iff.mpr ⟨by positivity, (lt_div_iff₀ (by norm_num)).mp hhi⟩
    rw [phaseOffset_of_nonneg hc hideal h0, hfloor]
    rfl
  · have hceil : ⌈valueS c m * 2 ^ 64⌉ = 0 := by
      rw [Int.ceil_eq_zero_iff]
      constructor <;> norm_num at hlo ⊢ <;> linarith
    rw [phaseOffset_of_nonpos hc hideal h0, hceil]
    rfl

theorem phaseOffset_quarter (h : valueS c m = 1 / 4) : phaseOffset c m = 0x4000000000000000 := by
  have hfloor : ⌊valueS c m * 2 ^ 64⌋ = 2 ^ 62 := by rw [h, Int.floor_eq_iff]; norm_num
  apply BitVec.eq_of_toNat_eq
  rw [← Nat.cast_inj (R := Int), phaseOffset_of_nonneg hc hideal (by rw [h]; norm_num), hfloor]
  rfl

theorem phaseOffset_neg_quarter (h : valueS c m = -1 / 4) : phaseOffset c m = 0xC000000000000000 := by
  have hceil : ⌈valueS c m * 2 ^ 64⌉ = -2 ^ 62 := by rw [h, Int.ceil_eq_iff]; norm_num
  apply BitVec.eq_of_toNat_eq
  rw [← Nat.cast_inj (R := Int), phaseOffset_of_nonpos hc hideal (by rw [h]; norm_num), hceil]
  rfl

end

/-- Settles O47: the offset is the residue of the floor or the ceiling of m · 2^64, and a whole period adds 2^64. -/
theorem phaseOffsetWrapsAtWholePeriods : Obligations.PhaseOffsetWrapsAtWholePeriods :=
  fun _ hc hideal _ _ => ⟨phaseOffset_of_nonneg hc hideal, phaseOffset_of_nonpos hc hideal,
    phaseOffset_add_one hc hideal, phaseOffset_sub_one hc hideal, phaseOffset_small hc hideal,
    phaseOffset_quarter hc hideal, phaseOffset_neg_quarter hc hideal⟩

/-! ### The waveform index (R59) -/

theorem waveIndex_eq_div (c : Config) (pe : BitVec 64) : waveIndex c pe = pe.toNat / 2 ^ (64 - c.waveBits) :=
  Nat.shiftRight_eq_div_pow _ _

/-- The index bits and the bits below them are the 64 bits of the phase. -/
theorem pow_waveBits_split {c : Config} (hc : LegalConfig c) : 2 ^ (64 - c.waveBits) * 2 ^ c.waveBits = 2 ^ 64 := by
  rw [← pow_add, Nat.sub_add_cancel (hc.waveBits.2.trans (by decide))]

theorem waveIndex_lt {c : Config} (hc : LegalConfig c) (pe : BitVec 64) : waveIndex c pe < 2 ^ c.waveBits := by
  rw [waveIndex_eq_div]
  exact Nat.div_lt_of_lt_mul (pow_waveBits_split hc ▸ pe.isLt)

/-- An index is that of the phase with it on top and 0 below. -/
theorem waveIndex_surjective {c : Config} (hc : LegalConfig c) {i : Nat} (h : i < 2 ^ c.waveBits) :
    ∃ pe : BitVec 64, waveIndex c pe = i := by
  have hlt : 2 ^ (64 - c.waveBits) * i < 2 ^ 64 :=
    pow_waveBits_split hc ▸ Nat.mul_lt_mul_of_pos_left h (by positivity)
  refine ⟨BitVec.ofNat 64 (2 ^ (64 - c.waveBits) * i), ?_⟩
  rw [waveIndex_eq_div, BitVec.toNat_ofNat, Nat.mod_eq_of_lt hlt, Nat.mul_div_cancel_left _ (by positivity)]

/-- Settles O48: a shift is a division, which 64 bits bound, and every quotient has a phase. -/
theorem waveIndexIsTheTopBits : Obligations.WaveIndexIsTheTopBits :=
  fun c hc => ⟨fun pe => ⟨waveIndex_eq_div c pe, waveIndex_lt hc pe⟩, fun _ h => waveIndex_surjective hc h⟩

/-! ### The output (R54, R60) -/

/-- The output in terms of the operator after the tick. -/
theorem opNext_snd (c : Config) (r : ChannelRegs) (mi : Nat) (m : Sample) (o : Operator) :
    (opNext c r mi m o).2 =
      mulS c (waveSample c mi o.regs ((opNext c r mi m o).1.phase + phaseOffset c m))
        (mulS c (opNext c r mi m o).1.level (kslTl c r o.regs)) := by
  simp only [opNext, phaseStep_regs, phaseStep_level, egStep_regs]

theorem valueS_waveSample_ideal {c : Config} (hc : LegalConfig c) (h : c.sampleArith = .ideal) (mi : Nat)
    (o : OperatorRegs) (pe : BitVec 64) : valueS c (waveSample c mi o pe) =
      valueS c (c.waveTable o.ws (waveIndex c pe)) * (if o.eam = 1 then valueS c (c.tremTerm mi o.dam) else 1) := by
  unfold waveSample
  split_ifs
  · rw [valueS_mulS_ideal hc h, roundS_ideal h, roundS_ideal h]
  · rw [roundS_ideal h, mul_one]

theorem valueS_kslTl_ideal {c : Config} (hc : LegalConfig c) (h : c.sampleArith = .ideal) (r : ChannelRegs)
    (o : OperatorRegs) :
    valueS c (kslTl c r o) = valueS c (c.kslCoef o.ksl r.block r.fnum) * valueS c (c.tlCoef o.tl) := by
  rw [kslTl, valueS_mulS_ideal hc h, roundS_ideal h, roundS_ideal h]

theorem abs_le_one_of_inUnit {c : Config} {x : Sample} (h : InUnit c x) : |valueS c x| ≤ 1 := by
  rw [abs_of_nonneg h.1]
  exact h.2

/-- Every factor of the output lies in [−1, 1]. -/
theorem abs_opNext_snd_le_one {c : Config} (hc : LegalConfig c) (r : ChannelRegs) (mi : Nat) (m : Sample) {o : Operator}
    (hg : o.Good c) : |valueS c (opNext c r mi m o).2| ≤ 1 := by
  rw [opNext_snd]
  refine mulS_abs_le_one hc (abs_waveSample_le_one hc mi o.regs _) ?_
  exact abs_le_one_of_inUnit (mulS_unit hc (egStep_good hc r hg).inUnit (kslTl_unit hc r o.regs))

/-- A level of 0 after the envelope step gives an output of exactly 0. -/
theorem opNext_snd_zero {c : Config} (hc : LegalConfig c) {r : ChannelRegs} {o : Operator}
    (h : valueS c (egStep c r o).level = 0) (mi : Nat) (m : Sample) : (opNext c r mi m o).2 = .rat 0 := by
  have hamp : mulS c (opNext c r mi m o).1.level (kslTl c r o.regs) = .rat 0 := mulS_of_zero hc (.inl h)
  rw [opNext_snd, hamp]
  exact mulS_of_zero hc (.inr (valueS_zero c))

/-- An operator that is Off moves its phase only. -/
theorem opNext_fst_off {c : Config} {r : ChannelRegs} {o : Operator} (h : o.stage = .off) (mi : Nat) (m : Sample) :
    (opNext c r mi m o).1 = phaseStep c r mi o := by
  simp only [opNext, egStep_off h]

/-- Settles O49: the output is the product of the waveform sample and the amplitude, each in [−1, 1], and Off has
amplitude 0. -/
theorem operatorOutputIsWaveTimesAmplitude : Obligations.OperatorOutputIsWaveTimesAmplitude := by
  intro c r mi m o hc
  refine ⟨opNext_snd c r mi m o, fun hideal => ?_, fun hg => ?_⟩
  · rw [opNext_snd, valueS_mulS_ideal hc hideal, valueS_mulS_ideal hc hideal, valueS_waveSample_ideal hc hideal,
      valueS_kslTl_ideal hc hideal]
  · obtain ⟨hlo, hhi⟩ := abs_le.mp (abs_opNext_snd_le_one hc r mi m hg)
    refine ⟨hlo, hhi, fun hoff => ⟨opNext_snd_zero hc ?_ mi m, opNext_fst_off hoff mi m⟩⟩
    rw [egStep_off hoff]
    exact hg.off_level hoff

end Sys2Proof.Machine

/-! SUPPORT. The statements of 41_channel.md section 1: the eight algorithms (R84 to R92), which operators a tick
advances (R81, R83), the feedback lines (R93) and the channel's frame (R94). -/

namespace Sys2Proof.Machine

/-! ### The algorithm in force (R84) -/

theorem alg_cases (a : BitVec 3) : a = 0 ∨ a = 1 ∨ a = 2 ∨ a = 3 ∨ a = 4 ∨ a = 5 ∨ a = 6 ∨ a = 7 := by
  revert a
  decide

section
variable (c : Config) (mi : Nat) {ch : Channel}

theorem route_alg0 (h : ch.regs.alg = 0) : route c mi ch = routeAlg0 c mi ch := by rw [route, h]; rfl
theorem route_alg1 (h : ch.regs.alg = 1) : route c mi ch = routeAlg1 c mi ch := by rw [route, h]; rfl
theorem route_alg2 (h : ch.regs.alg = 2) : route c mi ch = routeAlg2 c mi ch := by rw [route, h]; rfl
theorem route_alg3 (h : ch.regs.alg = 3) : route c mi ch = routeAlg3 c mi ch := by rw [route, h]; rfl
theorem route_alg4 (h : ch.regs.alg = 4) : route c mi ch = routeAlg4 c mi ch := by rw [route, h]; rfl
theorem route_alg5 (h : ch.regs.alg = 5) : route c mi ch = routeAlg5 c mi ch := by rw [route, h]; rfl
theorem route_alg6 (h : ch.regs.alg = 6) : route c mi ch = routeAlg6 c mi ch := by rw [route, h]; rfl
theorem route_alg7 (h : ch.regs.alg = 7) : route c mi ch = routeAlg7 c mi ch := by rw [route, h]; rfl

end

/-- Settles O51: each algorithm's route is its own definition, and evaluating one operator leaves the others, the
registers and the lines as they were. -/
theorem algorithmsEvaluateTheirOperators : Obligations.AlgorithmsEvaluateTheirOperators :=
  fun c mi _ => ⟨route_alg0 c mi, route_alg1 c mi, route_alg2 c mi, route_alg3 c mi, route_alg4 c mi, route_alg5 c mi,
    route_alg6 c mi, route_alg7 c mi⟩

/-! ### Which operators a route evaluates -/

/-- The operators an algorithm names: all but 2 and 3 under ALG 0 and 1. -/
def evaluates (alg : BitVec 3) (k : Fin 4) : Prop := k = 0 ∨ k = 1 ∨ (alg ≠ 0 ∧ alg ≠ 1)

/-- An operator the algorithm names has taken one tick, whose modulator input does not reach it (R58). -/
theorem route_op_evaluated {c : Config} {mi : Nat} {ch : Channel} {k : Fin 4} (h : evaluates ch.regs.alg k)
    (m : Sample) :
    (route c mi ch).ch.op k = (opNext c ch.regs mi m (ch.op k)).1 := by
  unfold evaluates at h
  rcases alg_cases ch.regs.alg with ha | ha | ha | ha | ha | ha | ha | ha
  · rw [route_alg0 c mi ha]
    rw [ha] at h
    obtain rfl | rfl : k = 0 ∨ k = 1 := by simpa using h
    · rfl
    · rfl
  · rw [route_alg1 c mi ha]
    rw [ha] at h
    obtain rfl | rfl : k = 0 ∨ k = 1 := by simpa using h
    · rfl
    · rfl
  · rw [route_alg2 c mi ha]; fin_cases k <;> rfl
  · rw [route_alg3 c mi ha]; fin_cases k <;> rfl
  · rw [route_alg4 c mi ha]; fin_cases k <;> rfl
  · rw [route_alg5 c mi ha]; fin_cases k <;> rfl
  · rw [route_alg6 c mi ha]; fin_cases k <;> rfl
  · rw [route_alg7 c mi ha]; fin_cases k <;> rfl

/-- ALG 0 and 1 leave operators 2 and 3 alone. -/
theorem route_op_frozen {c : Config} {mi : Nat} {ch : Channel} {k : Fin 4} (hk : k = 2 ∨ k = 3)
    (ha : ch.regs.alg = 0 ∨ ch.regs.alg = 1) : (route c mi ch).ch.op k = ch.op k := by
  rcases ha with ha | ha
  · rw [route_alg0 c mi ha]
    rcases hk with rfl | rfl <;> rfl
  · rw [route_alg1 c mi ha]
    rcases hk with rfl | rfl <;> rfl

/-- Every carrier is evaluated (R20, R84). -/
theorem evaluates_of_isCarrier {alg : BitVec 3} {k : Fin 4} (h : isCarrier alg k = true) : evaluates alg k := by
  revert alg k
  unfold evaluates
  decide

/-! ### The operators after a channel's tick (R81, R83) -/

theorem chNext_op_off {c : Config} {ch : Channel} (h : ch.isOff = true) (k : Fin 4) :
    (chNext c ch).1.op k = ch.op k := by
  rw [chNext_off h, lfoStep_op]

theorem chNext_op_evaluated {c : Config} {ch : Channel} (h : ch.isOff = false) {k : Fin 4}
    (hk : evaluates ch.regs.alg k) (m : Sample) :
    (chNext c ch).1.op k = (opNext c ch.regs (modIndex c (lfoStep c ch)) m (ch.op k)).1 := by
  rw [chNext_op_on h]
  simpa only [lfoStep_op, lfoStep_regs] using route_op_evaluated (ch := lfoStep c ch) hk m

theorem chNext_op_frozen (c : Config) {ch : Channel} {k : Fin 4} (hk : k = 2 ∨ k = 3)
    (ha : ch.regs.alg = 0 ∨ ch.regs.alg = 1) : (chNext c ch).1.op k = ch.op k := by
  cases h : ch.isOff
  · rw [chNext_op_on h]
    simpa only [lfoStep_op] using route_op_frozen (ch := lfoStep c ch) hk ha
  · exact chNext_op_off h k

/-- A sum of phases is taken modulo 2^64. -/
theorem opNext_phase_toNat (c : Config) (r : ChannelRegs) (mi : Nat) (m : Sample) (o : Operator) :
    ((opNext c r mi m o).1.phase.toNat : Int) = ((o.phase.toNat : Int) + phaseDelta c r mi o.regs) % 2 ^ 64 := by
  rw [opNext_phase, ← maskTo, BitVec.toNat_add, Int.natCast_mod, Nat.cast_add, maskTo_toNat]
  exact Int.add_emod_emod _ _ _

/-- Settles O46: one `OpNext` is the envelope step and then the phase step, and a tick gives one to each operator the
algorithm names. -/
theorem tickAdvancesEachEvaluatedOperatorOnce : Obligations.TickAdvancesEachEvaluatedOperatorOnce := by
  refine ⟨fun c r mi m o => ⟨?_, opNext_regs .., opNext_stage .., opNext_level .., fun _ _ => ⟨rfl, rfl⟩⟩,
    fun c ch k => ⟨fun h => chNext_op_off h k, fun h => ⟨chNext_op_on h k, fun hk m => ?_, fun hk ha => ?_⟩⟩⟩
  · rw [opNext_phase_toNat, phaseDelta_eq]
  · exact chNext_op_evaluated h hk m
  · exact chNext_op_frozen c hk ha

/-- Settles O52: a tick of either kind leaves operators 2 and 3 alone under ALG 0 and 1. -/
theorem unnamedOperatorsAreFrozen : Obligations.UnnamedOperatorsAreFrozen := by
  intro s t j ch ch' he h h' ha
  cases he
  obtain rfl := tick_getElem? h h'
  exact ⟨chNext_op_frozen chip (k := 2) (.inl rfl) ha, chNext_op_frozen chip (k := 3) (.inr rfl) ha⟩

/-! ### The feedback lines (R93) -/

theorem fbIn_of_zero {c : Config} (hc : LegalConfig c) {ch : Channel} {k : Fin 4}
    (h : valueS c (fbCoefOf c (ch.op k).regs) = 0) : fbIn c ch k = .rat 0 := by
  rw [fbIn, if_pos ((isZeroS_iff hc.names _).mpr h)]

theorem fbIn_of_ne_zero {c : Config} (hc : LegalConfig c) {ch : Channel} {k : Fin 4}
    (h : valueS c (fbCoefOf c (ch.op k).regs) ≠ 0) : fbIn c ch k = (ch.line k).out := by
  rw [fbIn, if_neg (mt (isZeroS_iff hc.names _).mp h)]

theorem fbUpdate_of_zero {c : Config} (hc : LegalConfig c) {ch : Channel} {k : Fin 4}
    (h : valueS c (fbCoefOf c (ch.op k).regs) = 0) (o : Sample) : fbUpdate c k o ch = ch := by
  simp only [fbUpdate, (isZeroS_iff hc.names _).mpr h, if_true]

theorem fbUpdate_of_ne_zero {c : Config} (hc : LegalConfig c) {ch : Channel} {k : Fin 4}
    (h : valueS c (fbCoefOf c (ch.op k).regs) ≠ 0) (o : Sample) :
    fbUpdate c k o ch = ch.setLine k (lineNext c (fbCoefOf c (ch.op k).regs) o (ch.line k)) := by
  simp only [fbUpdate, if_neg (mt (isZeroS_iff hc.names _).mp h)]

/-- An update of one line leaves the other. -/
theorem fbUpdate_zero_fb3 (c : Config) (o : Sample) (ch : Channel) : (fbUpdate c 0 o ch).fb3 = ch.fb3 := by
  simp only [fbUpdate]
  split_ifs <;> rfl

theorem fbUpdate_two_fb1 (c : Config) (o : Sample) (ch : Channel) : (fbUpdate c 2 o ch).fb1 = ch.fb1 := by
  simp only [fbUpdate]
  split_ifs <;> rfl

theorem hasFb3_iff (alg : BitVec 3) : hasFb3 alg = true ↔ alg = 2 ∨ alg = 5 := by
  revert alg
  decide

theorem fbUpdates_fb1 (c : Config) (t : Routed) : (fbUpdates c t).fb1 = (fbUpdate c 0 t.o0 t.ch).fb1 := by
  simp only [fbUpdates]
  split_ifs
  · rw [fbUpdate_two_fb1]
  · rfl

/-- The update of fb3 sees the channel with fb1 updated, of which it reads nothing. -/
theorem fbUpdates_fb3 (c : Config) (t : Routed) : (fbUpdates c t).fb3 =
    if hasFb3 t.ch.regs.alg then (fbUpdate c 2 t.o2 (fbUpdate c 0 t.o0 t.ch)).fb3 else t.ch.fb3 := by
  simp only [fbUpdates, fbUpdate_regs]
  split_ifs
  · rfl
  · rw [fbUpdate_zero_fb3]

theorem route_op_regs (c : Config) (mi : Nat) (ch : Channel) (k : Fin 4) :
    ((route c mi ch).ch.op k).regs = (ch.op k).regs := by
  rcases route_op c mi ch k with h | ⟨m, h⟩ <;> rw [h]
  rw [opNext_regs]

section
variable {c : Config} (hc : LegalConfig c) {ch : Channel}

theorem chNext_fb1_off (h : ch.isOff = true) : (chNext c ch).1.fb1 = ch.fb1 := by rw [chNext_off h, lfoStep_fb1]
theorem chNext_fb3_off (h : ch.isOff = true) : (chNext c ch).1.fb3 = ch.fb3 := by rw [chNext_off h, lfoStep_fb3]

theorem chNext_fb3_unmarked (ha : ch.regs.alg ≠ 2 ∧ ch.regs.alg ≠ 5) : (chNext c ch).1.fb3 = ch.fb3 := by
  cases h : ch.isOff
  · have hrest := route_rest c (modIndex c (lfoStep c ch)) (lfoStep c ch)
    have hno : ¬ hasFb3 ch.regs.alg = true := by
      rw [hasFb3_iff, not_or]
      exact ha
    rw [chNext_on h, fbUpdates_fb3, hrest.regs, lfoStep_regs, if_neg hno, hrest.fb3, lfoStep_fb3]
  · exact chNext_fb3_off h

include hc

theorem chNext_fb1_kept (hg : valueS c (fbCoefOf c (ch.op 0).regs) = 0) : (chNext c ch).1.fb1 = ch.fb1 := by
  cases h : ch.isOff
  · rw [chNext_on h, fbUpdates_fb1, fbUpdate_of_zero hc (by rwa [route_op_regs, lfoStep_op]), (route_rest ..).fb1,
      lfoStep_fb1]
  · exact chNext_fb1_off h

theorem chNext_fb1_updated (h : ch.isOff = false) (hg : valueS c (fbCoefOf c (ch.op 0).regs) ≠ 0) :
    (chNext c ch).1.fb1 = lineNext c (fbCoefOf c (ch.op 0).regs)
      (route c (modIndex c (lfoStep c ch)) (lfoStep c ch)).o0 ch.fb1 := by
  have hline : ((route c (modIndex c (lfoStep c ch)) (lfoStep c ch)).ch.line 0) = ch.fb1 := (route_rest ..).fb1
  rw [chNext_on h, fbUpdates_fb1, fbUpdate_of_ne_zero hc (by rwa [route_op_regs, lfoStep_op]), route_op_regs,
    lfoStep_op, hline]
  rfl

theorem chNext_fb3_kept (hg : valueS c (fbCoefOf c (ch.op 2).regs) = 0) : (chNext c ch).1.fb3 = ch.fb3 := by
  cases h : ch.isOff
  · have hrest := route_rest c (modIndex c (lfoStep c ch)) (lfoStep c ch)
    rw [chNext_on h, fbUpdates_fb3, fbUpdate_of_zero hc (by rwa [fbUpdate_op, route_op_regs, lfoStep_op]),
      fbUpdate_zero_fb3, ite_self, hrest.fb3, lfoStep_fb3]
  · exact chNext_fb3_off h

theorem chNext_fb3_updated (h : ch.isOff = false) (hg : valueS c (fbCoefOf c (ch.op 2).regs) ≠ 0)
    (ha : ch.regs.alg = 2 ∨ ch.regs.alg = 5) :
    (chNext c ch).1.fb3 = lineNext c (fbCoefOf c (ch.op 2).regs)
      (route c (modIndex c (lfoStep c ch)) (lfoStep c ch)).o2 ch.fb3 := by
  have hrest := route_rest c (modIndex c (lfoStep c ch)) (lfoStep c ch)
  have hline (o : Sample) : (fbUpdate c 0 o (route c (modIndex c (lfoStep c ch)) (lfoStep c ch)).ch).line 2 = ch.fb3 :=
    (fbUpdate_zero_fb3 c o _).trans hrest.fb3
  rw [chNext_on h, fbUpdates_fb3, hrest.regs, lfoStep_regs, if_pos ((hasFb3_iff _).mpr ha),
    fbUpdate_of_ne_zero hc (by rwa [fbUpdate_op, route_op_regs, lfoStep_op]), fbUpdate_op, route_op_regs, lfoStep_op,
    hline]
  rfl

end

/-- Settles O53: the input and the update test one coefficient, which no part of the tick writes; the update of one line
does not reach the other. -/
theorem feedbackLineUpdates : Obligations.FeedbackLineUpdates := by
  refine ⟨fun c ch hc => ⟨fbIn_of_zero hc (k := 0), fbIn_of_ne_zero hc (k := 0), fbIn_of_zero hc (k := 2),
    fbIn_of_ne_zero hc (k := 2)⟩, fun _ _ _ _ => rfl, fun _ => rfl, fun c s j ch ch' hc h h' => ?_⟩
  obtain rfl := tick_getElem? h h'
  refine ⟨chNext_fb1_updated hc, fun hcase => ?_, chNext_fb3_updated hc, fun hcase => ?_⟩
  · rcases hcase with hoff | hg
    · exact chNext_fb1_off hoff
    · exact chNext_fb1_kept hc hg
  · rcases hcase with hoff | hg | ha
    · exact chNext_fb3_off hoff
    · exact chNext_fb3_kept hc hg
    · exact chNext_fb3_unmarked ha

/-! ### The frame (R94) -/

/-- Settles O54: on a channel that is not off the frame is `frameOf` of the carrier sum. -/
theorem channelFrameIsAttenuatedAndPanned : Obligations.ChannelFrameIsAttenuatedAndPanned := by
  intro c ch hc hon
  have hframe : (chNext c ch).2 =
      frameOf c ch.regs (route c (modIndex c (lfoStep c ch)) (lfoStep c ch)).res := by rw [chNext_on hon]
  refine ⟨hframe, fun hideal => ?_⟩
  rw [hframe]
  constructor <;>
    simp only [frameOf, attOf, panL, panR, valueS_mulS_ideal hc hideal, roundS_ideal hideal]

end Sys2Proof.Machine

/-! SUPPORT. The statements of 70_reset_and_hazards.md and 60_exceptions.md section 4 on sequences of commands: retrigger
and the keyed channel after an algorithm change (R137, R138), `kill` (R125), `silence` and the frame after it
(R132, R133). -/

namespace Sys2Proof.Machine

/-! ### KON and ALG in sequence (R137, R138) -/

/-- A key-on forgets the stage, the only thing a key-off moves. -/
theorem keyOnOp_keyOffOp (o : Operator) : keyOnOp (keyOffOp o) = keyOnOp o := by
  simp only [keyOnOp, keyOffOp_regs, keyOffOp_level]

/-- Settles O55: the key-off releases the operators and clears KON, so that the key-on finds the channel unkeyed. -/
theorem retriggerRestartsFromCurrentLevel : Obligations.RetriggerRestartsFromCurrentLevel := by
  intro s c v ch h hv hon
  have hne : v.toInt ≠ 0 := mt (toInt_eq_zero_iff v).mp hv
  rw [execAll_channel c [.wrchKON c 0, .wrchKON c v] s ch (by simp [Instr.channel]) h]
  have hedits : [Instr.wrchKON c 0, .wrchKON c v].foldl (fun x i => channelEdit i x) ch =
      (((ch.setKonBit 0).mapOps keyOffOp).setKonBit 1).mapOps keyOnOp := by
    have hoff : setKon (0 : Value).toInt ch = (ch.setKonBit 0).mapOps keyOffOp := setKon_zero_of_on hon
    simp only [List.foldl_cons, List.foldl_nil, channelEdit, hoff]
    exact setKon_unkeyed hne rfl
  rw [hedits]
  simp only [Channel.mapOps, Channel.setKonBit, keyOnOp_keyOffOp]
  rfl

/-- Settles O56: the ALG write resets the operators and leaves KON at 1, which makes the key-on a no-op. -/
theorem keyedChannelIsDeafAfterAlgorithmChange : Obligations.KeyedChannelIsDeafAfterAlgorithmChange := by
  intro s t c a v ch h hkon halg hv he
  have hexec : exec (.wrchALG c a) s = .next (s.setChannel c (setAlg a.toInt ch)) := exec_on_channel rfl h
  rw [hexec] at he
  cases he
  have hch : (s.setChannel c (setAlg a.toInt ch)).channels[c.toNat]? = some (setAlg a.toInt ch) := by
    rw [setChannel_getElem? h, if_pos rfl]
  have hkeyed : (setAlg a.toInt ch).regs.kon = 1 := by rw [setAlg_regs]; exact hkon
  have hoff : (setAlg a.toInt ch).AllOff := by
    rw [setAlg_changed halg]
    exact withRegs_allOff (chReset_allOff ch) _
  refine ⟨?_, _, hch, hkeyed, hoff.isOff, hoff⟩
  have hsame : channelEdit (.wrchKON c v) (setAlg a.toInt ch) = setAlg a.toInt ch :=
    setKon_keyed (mt (toInt_eq_zero_iff v).mp hv) hkeyed
  rw [exec_on_channel rfl hch, hsame, setChannel_self hch]

/-! ### The key-off that ends `kill` and `silence` -/

theorem setKon_zero_regs (ch : Channel) : (setKon 0 ch).regs = { ch.regs with kon := 0 } := by
  rw [setKon_zero]
  split_ifs <;> rfl

theorem setKon_zero_stage (ch : Channel) (k : Fin 4) :
    ((setKon 0 ch).op k).stage = .off ∨ ((setKon 0 ch).op k).stage = .release := by
  rcases setKon_zero_op ch k with h | h <;> rw [h]
  · rw [keyOffOp_stage]
    split_ifs
    · exact .inl rfl
    · exact .inr rfl
  · exact .inl rfl

theorem setKon_zero_good {c : Config} {ch : Channel} (h : ch.Good c) : (setKon 0 ch).Good c := by
  intro k
  rcases setKon_zero_op ch k with hop | hop <;> rw [hop]
  · exact keyOffOp_good (h k)
  · exact resetOp_good c _

/-- Off, or in Release at the fastest rate: what `kill` and `silence` leave of an operator. -/
def Operator.FastReleased (o : Operator) : Prop := (o.stage = .off ∨ o.stage = .release) ∧ o.regs.rr = 15

/-- One envelope step ends such an operator, under every law (R78, R133; log 24). -/
theorem egStep_fastReleased {c : Config} (hc : LegalConfig c) (r : ChannelRegs) {o : Operator} (hg : o.Good c)
    (h : o.FastReleased) : (egStep c r o).stage = .off ∧ valueS c (egStep c r o).level = 0 := by
  obtain ⟨hoff | hrel, hrr⟩ := h
  · rw [egStep_off hoff]
    exact ⟨hoff, hg.off_level hoff⟩
  · have hlevel : valueS c (egStep c r o).level = 0 := by
      rw [(egStep_fading (.inl hrel)).1, hrel]
      exact moveLevel_release hc hg.inUnit (one_le_releaseRate hc r hrel hrr)
    exact ⟨(egStep_fading_exits hc r (.inl hrel)).1.mpr hlevel.le, hlevel⟩

/-- A channel of such operators is off after one tick. -/
theorem chNext_isOff {c : Config} (hc : LegalConfig c) {ch : Channel} (hg : ch.Good c)
    (h : ∀ k, (ch.op k).FastReleased) : (chNext c ch).1.isOff = true := by
  cases hon : ch.isOff
  · rw [Channel.isOff_iff, chNext_regs]
    intro k hk
    rw [chNext_op_evaluated hon (evaluates_of_isCarrier hk) (.rat 0), opNext_stage]
    exact (egStep_fastReleased hc ch.regs (hg k) (h k)).1
  · rw [chNext_off hon, lfoStep_isOff, hon]

/-! ### `kill` (R53, R125) -/

/-- What `kill` writes to the registers of an operator (R53). -/
def killRegs (o : Operator) : Operator :=
  { o with regs := { o.regs with sl := 0, rr := 15, ksl := 0, tl := 0x3f } }

theorem foldl_killOp (c : BitVec 8) (k : Fin 4) (ch : Channel) :
    (killOp c k).foldl (fun x i => channelEdit i x) ch = ch.setOp k (killRegs (ch.op k)) := by
  have hsl : maskTo 4 (0 : Value).toInt = 0 := by decide
  have hrr : maskTo 4 (15 : Value).toInt = 15 := by decide
  have hksl : maskTo 2 (0 : Value).toInt = 0 := by decide
  have htl : maskTo 6 (0x3f : Value).toInt = 0x3f := by decide
  simp only [killOp, List.foldl_cons, List.foldl_nil, channelEdit, hsl, hrr, hksl, htl, Channel.setOp_op_same,
    Channel.setOp_setOp, killRegs]

/-- `kill` on an existing channel: its operators' registers written, then a key-off. -/
theorem execAll_kill {s : State} {c : BitVec 8} {ch : Channel} (h : s.channels[c.toNat]? = some ch) (n : Nat) :
    execAll (Pseudo.expand n (.kill c)) s = .next (s.setChannel c (setKon 0 (ch.mapOps killRegs))) := by
  have hnames : ∀ i ∈ Pseudo.expand n (.kill c), i.channel = some c := by
    simp [Pseudo.expand, killOp, Instr.channel]
  rw [execAll_channel c _ s ch hnames h, Pseudo.expand, List.foldl_append, List.foldl_flatMap]
  simp only [foldl_killOp, foldl_setOp]
  rfl

/-- An edit of registers on every operator keeps R15. -/
theorem mapOps_good {c : Config} {ch : Channel} {f : Operator → Operator} (h : ch.Good c)
    (hs : ∀ o, (f o).stage = o.stage) (hl : ∀ o, (f o).level = o.level) : (ch.mapOps f).Good c := by
  intro k
  rw [Channel.mapOps_op]
  exact (h k).congr (hs _) (hl _)

/-- Settles O57: `kill` leaves the channel's operators Off or in Release at RR = 15, which one tick ends. -/
theorem killedChannelIsOffAfterOneTick : Obligations.KilledChannelIsOffAfterOneTick := by
  intro s c ch h
  refine ⟨_, execAll_kill h _, rfl, fun cfg hcfg hg => ?_⟩
  have hkilled : (s.setChannel c (setKon 0 (ch.mapOps killRegs))).channels[c.toNat]? =
      some (setKon 0 (ch.mapOps killRegs)) := by rw [setChannel_getElem? h, if_pos rfl]
  refine ⟨(chNext cfg (setKon 0 (ch.mapOps killRegs))).1, ?_, chNext_isOff hcfg ?_ fun k => ⟨?_, ?_⟩⟩
  · simp only [tick, List.getElem?_map, hkilled, Option.map_some]
  · exact setKon_zero_good (mapOps_good hg (fun _ => rfl) fun _ => rfl)
  · exact setKon_zero_stage _ k
  · rw [setKon_op_regs, Channel.mapOps_op, killRegs]

/-! ### `silence` (R53, R132) -/

/-- What `silence` makes of a channel. -/
def silencedChannel (ch : Channel) : Channel := setKon 0 (ch.mapOps silenceRegs)

theorem silencedChannel_regs (ch : Channel) : (silencedChannel ch).regs = { ch.regs with kon := 0 } :=
  setKon_zero_regs _

theorem silencedChannel_op_regs (ch : Channel) (k : Fin 4) : ((silencedChannel ch).op k).regs =
    { (ch.op k).regs with tl := 0x3f, ar := 15, dr := 15, rr := 15 } := by
  rw [silencedChannel, setKon_op_regs, Channel.mapOps_op, silenceRegs]

theorem silencedChannel_silenced (ch : Channel) : (silencedChannel ch).Silenced :=
  ⟨by rw [silencedChannel_regs], fun k => by rw [silencedChannel_op_regs], fun k => by rw [silencedChannel_op_regs],
    fun k => by rw [silencedChannel_op_regs], fun k => by rw [silencedChannel_op_regs], setKon_zero_stage _⟩

theorem silencedChannel_good {c : Config} {ch : Channel} (h : ch.Good c) : (silencedChannel ch).Good c :=
  setKon_zero_good (mapOps_good h (fun _ => rfl) fun _ => rfl)

/-- The chip with its first `m` channels silenced. -/
def State.silencedTo (s : State) (m : Nat) : State :=
  { s with channels := s.channels.mapIdx fun j ch => if j < m then silencedChannel ch else ch }

theorem silencedTo_zero (s : State) : s.silencedTo 0 = s := by
  have hchannels : (s.channels.mapIdx fun j ch => if j < 0 then silencedChannel ch else ch) = s.channels :=
    List.ext_getElem (by simp) fun j _ _ => by simp
  rw [State.silencedTo, hchannels]

/-- One channel's commands silence the next channel. -/
theorem execAll_silenceChannel {s : State} {m : Nat} (hm : m < s.channels.length) (hn : s.channels.length ≤ 256) :
    execAll (silenceChannel (BitVec.ofNat 8 m)) (s.silencedTo m) = .next (s.silencedTo (m + 1)) := by
  have hnum : (BitVec.ofNat 8 m).toNat = m := by
    rw [BitVec.toNat_ofNat]
    exact Nat.mod_eq_of_lt (by omega)
  have hch : (s.silencedTo m).channels[(BitVec.ofNat 8 m).toNat]? = some s.channels[m] := by
    simp [State.silencedTo, hnum, hm]
  have hnames : ∀ i ∈ silenceChannel (BitVec.ofNat 8 m), i.channel = some (BitVec.ofNat 8 m) := by
    simp [silenceChannel, silenceOp, Instr.channel]
  rw [execAll_channel _ _ _ _ hnames hch, foldl_silenceChannel, ← silencedChannel]
  congr 1
  have hchannels : ((s.silencedTo m).setChannel (BitVec.ofNat 8 m) (silencedChannel s.channels[m])).channels =
      (s.silencedTo (m + 1)).channels := by
    apply List.ext_getElem?
    intro j
    rw [setChannel_getElem? hch, hnum]
    simp only [State.silencedTo, List.getElem?_mapIdx]
    by_cases hj : m = j
    · subst hj
      simp [hm]
    · have hlt : j < m + 1 ↔ j < m := by omega
      simp only [if_neg hj, hlt]
  simp only [State.setChannel] at hchannels ⊢
  rw [hchannels]
  rfl

/-- The expansion's channels one by one, by induction on how many are done. -/
theorem execAll_silence_upTo {s : State} (hn : s.channels.length ≤ 256) (m : Nat) (hm : m ≤ s.channels.length) :
    execAll ((List.range m).flatMap fun c => silenceChannel (BitVec.ofNat 8 c)) s = .next (s.silencedTo m) := by
  induction m with
  | zero =>
    rw [silencedTo_zero]
    rfl
  | succ m ih =>
    rw [List.range_succ, List.flatMap_append, execAll_append, ih (by omega)]
    simpa only [List.flatMap_cons, List.flatMap_nil, List.append_nil] using execAll_silenceChannel (by omega) hn

theorem silencedTo_length (s : State) :
    s.silencedTo s.channels.length = { s with channels := s.channels.map silencedChannel } := by
  have hchannels : (s.channels.mapIdx fun j ch => if j < s.channels.length then silencedChannel ch else ch) =
      s.channels.map silencedChannel :=
    List.ext_getElem (by simp) fun j hj _ => by
      rw [List.length_mapIdx] at hj
      simp [hj]
  rw [State.silencedTo, hchannels]

/-- `silence` on a chip whose channels CH can name silences every channel. -/
theorem execAll_silence {s : State} (hn : s.channels.length ≤ 256) :
    execAll (Pseudo.expand s.channels.length .silence) s =
      .next { s with channels := s.channels.map silencedChannel } := by
  rw [← silencedTo_length]
  exact execAll_silence_upTo hn _ le_rfl

/-- Settles O58: every channel is silenced, and what that writes is read off one channel. -/
theorem silenceReachesEveryChannel : Obligations.SilenceReachesEveryChannel := by
  intro c s hs
  have hlen : (s.channels.map silencedChannel).length = s.channels.length := List.length_map _
  refine ⟨_, execAll_silence hs.channel_count,
    ⟨hlen.symm ▸ hs.some_channel, hlen.symm ▸ hs.channel_count,
      List.forall_mem_map.mpr fun ch hch => silencedChannel_good (hs.good ch hch)⟩,
    rfl, rfl, hlen, List.forall_mem_map.mpr fun ch _ => silencedChannel_silenced ch, fun j ch ch' h h' => ?_⟩
  rw [List.getElem?_map, h, Option.map_some, Option.some.injEq] at h'
  subst h'
  exact ⟨silencedChannel_regs ch, silencedChannel_op_regs ch⟩

/-! ### The frame after `silence` (R133) -/

theorem Channel.Silenced.fastReleased {ch : Channel} (h : ch.Silenced) (k : Fin 4) : (ch.op k).FastReleased :=
  ⟨h.stage k, h.rr k⟩

/-- When every operator's output is 0, so is the carrier sum, whatever the algorithm. -/
theorem route_res_zero {c : Config} {mi : Nat} {ch : Channel}
    (h : ∀ k m, (opNext c ch.regs mi m (ch.op k)).2 = .rat 0) : (route c mi ch).res = .rat 0 := by
  obtain ⟨hr0, hr1, hr2, hr3, hr4, hr5, hr6, hr7⟩ := algorithmsEvaluateTheirOperators c mi ch
  rcases alg_cases ch.regs.alg with ha | ha | ha | ha | ha | ha | ha | ha
  · rw [hr0 ha]; exact h 1 _
  · rw [hr1 ha]; simp only [h, addS_zero_zero]
  · rw [hr2 ha]; simp only [h, addS_zero_zero]
  · rw [hr3 ha]; exact h 3 _
  · rw [hr4 ha]; exact h 3 _
  · rw [hr5 ha]; simp only [h, addS_zero_zero]
  · rw [hr6 ha]; simp only [h, addS_zero_zero]
  · rw [hr7 ha]; simp only [h, addS_zero_zero]

theorem frameOf_zero {c : Config} (hc : LegalConfig c) (r : ChannelRegs) :
    frameOf c r (.rat 0) = ⟨.rat 0, .rat 0⟩ := by
  have hmul (x : Sample) : mulS c (.rat 0) x = .rat 0 := mulS_of_zero hc (.inl (valueS_zero c))
  simp only [frameOf, hmul]

/-- A silenced channel's frame is (0, 0): it is off, or every operator's level falls to 0 on this tick. -/
theorem chNext_frame_silenced {c : Config} (hc : LegalConfig c) {ch : Channel} (hg : ch.Good c) (h : ch.Silenced) :
    (chNext c ch).2 = ⟨.rat 0, .rat 0⟩ := by
  cases hon : ch.isOff
  · have hout (mi : Nat) : ∀ k m, (opNext c (lfoStep c ch).regs mi m ((lfoStep c ch).op k)).2 = .rat 0 := by
      intro k m
      rw [lfoStep_op, lfoStep_regs]
      exact opNext_snd_zero hc (egStep_fastReleased hc ch.regs (hg k) (h.fastReleased k)).2 mi m
    rw [chNext_on hon, route_res_zero (hout _), frameOf_zero hc]
  · rw [chNext_off hon]

/-- Settles O59: every channel's frame is (0, 0), and so is their sum. -/
theorem silencedChipEmitsZeroFrame : Obligations.SilencedChipEmitsZeroFrame := by
  intro cfg s hcfg hs hsil
  have hframes : s.channels.map (fun ch => (chNext cfg ch).2) = List.replicate s.channels.length ⟨.rat 0, .rat 0⟩ :=
    List.map_eq_replicate_iff.mpr fun ch hch => chNext_frame_silenced hcfg (hs.good ch hch) (hsil ch hch)
  rw [tick, frameNext, hframes, mix_replicate_zero]

end Sys2Proof.Machine
